-- ==== Sys2Proof/Word.lean ====
section
/-!
DEFINITION. The widths of the command port and of the registers, the pair type for the things the
core has two of (banks, oscillators), and the type `Val` of the values of the domain `V` of rule R9.
-/

namespace Sys2Proof

/-- A command word or a response word (rules R100, R102). -/
abbrev Word := BitVec 64

/-- A 32-bit register, a binary32 pattern, an oscillator phase (rule R8, `u32`). -/
abbrev U32 := BitVec 32

/-- The index and `aux` fields (rules R100, R102). -/
abbrev U16 := BitVec 16

/-- The operation code, `sel` and `fl` fields (rules R100, R102). -/
abbrev U8 := BitVec 8

/-- One octet of a frame (rules R42, R43). -/
abbrev Octet := BitVec 8

/-- A bank number or an oscillator number, 0 or 1 (rules R32, R33). -/
inductive Ix where
  | i0
  | i1
deriving DecidableEq, Repr, Inhabited

/-- Two things of one kind: the banks 0 and 1, or the oscillators 0 and 1. -/
structure Two (α : Type) where
  at0 : α
  at1 : α
deriving DecidableEq, Repr, Inhabited

/-- The element numbered `k`. -/
def Two.get {α : Type} (p : Two α) (k : Ix) : α :=
  match k with
  | .i0 => p.at0
  | .i1 => p.at1

/-- The pair with the element numbered `k` replaced. -/
def Two.set {α : Type} (p : Two α) (k : Ix) (a : α) : Two α :=
  match k with
  | .i0 => { p with at0 := a }
  | .i1 => { p with at1 := a }

/-- The same thing twice. -/
def Two.both {α : Type} (a : α) : Two α := ⟨a, a⟩

/-- A value of the domain `V` of the numerics record `NUM` (rule R9), written as the operations that
produced it, applied in the order the rules write them: rule R9 makes the result of every numerics
record depend on nothing else. `lit q` is a decoded port pattern (rule R10) or one of the constants
`0`, `1/2`, `1`, `2`; `ofInt z` is the record's `ofInt` of an integer. What a value is as a real
number, under the reference record `NUM_REAL`, is `Sys2Proof.Machine.Val.toReal`. -/
inductive Val where
  | lit (q : Rat)
  | ofInt (z : Int)
  | pi
  | add (a b : Val)
  | sub (a b : Val)
  | mul (a b : Val)
  | div (a b : Val)
  | neg (a : Val)
  | abs (a : Val)
  | sqrt (a : Val)
  | sin (a : Val)
  | cos (a : Val)
  | atan2 (y x : Val)
  | cosPhase (p : U32)
  | sinPhase (p : U32)
deriving DecidableEq, Repr, Inhabited

/-- The constant `0` of rule R9. -/
def Val.zero : Val := .lit 0
/-- The constant `1/2` of rule R9. -/
def Val.half : Val := .lit (mkRat 1 2)
/-- The constant `1` of rule R9. -/
def Val.one : Val := .lit 1
/-- The constant `2` of rule R9. -/
def Val.two : Val := .lit 2

end Sys2Proof
end

