-- ==== Sys2Proof/Syntax.lean ====
section
/-!
DEFINITION. The commands, one constructor per row of the opcode table (rule R103), with the fields
their format uses (rules R100, R101). A field a format does not use has no place here: a word in
which it is not zero is refused by the decoder (rule R105, step 2).
-/

namespace Sys2Proof

/-- The twelve commands (rule R103). `sel` is a register number or a bank, `idx` a coefficient index,
`data` the 32-bit operand, `bit` its bit 0. -/
inductive Instr where
  /-- `0x01`, format N (rule R240). -/
  | reset
  /-- `0x02`, format N (rule R241). -/
  | start
  /-- `0x10`, format RW (rule R243). -/
  | cfgwr (sel : U8) (data : U32)
  /-- `0x11`, format RR (rule R244). -/
  | cfgrd (sel : U8)
  /-- `0x12`, format CW (rule R139). -/
  | coefwr (sel : U8) (idx : U16) (data : U32)
  /-- `0x13`, format CR (rule R140). -/
  | coefrd (sel : U8) (idx : U16)
  /-- `0x14`, format B (rule R133). -/
  | fdgen (sel : U8)
  /-- `0x20`, format V (rule R160). -/
  | sample (data : U32)
  /-- `0x21`, format V (rule R197). -/
  | demodin (data : U32)
  /-- `0x22`, format T (rule R219). -/
  | bitin (bit : Bool)
  /-- `0x23`, format T (rule R198). -/
  | setdd (bit : Bool)
  /-- `0x30`, format N (rule R220). -/
  | framerd
deriving DecidableEq, Repr

end Sys2Proof
end

