-- ==== Sys2Proof/Decode.lean ====
section
/-!
DEFINITION. The decoder, total on 64-bit words (rules R100, R103, R105 steps 1 and 2, R106), and after
it the encoder, both from the encoding table of rules R101 and R103.
-/

namespace Sys2Proof

/-- `op = cmd[63:56]` (rule R100). -/
def opField (w : Word) : U8 := w.extractLsb' 56 8
/-- `sel = cmd[55:48]` (rule R100). -/
def selField (w : Word) : U8 := w.extractLsb' 48 8
/-- `idx = cmd[47:32]` (rule R100). -/
def idxField (w : Word) : U16 := w.extractLsb' 32 16
/-- `data = cmd[31:0]` (rule R100). -/
def dataField (w : Word) : U32 := w.extractLsb' 0 32

/-- The assigned operation codes (rule R103). -/
inductive Opcode where
  | reset | start | cfgwr | cfgrd | coefwr | coefrd | fdgen
  | sample | demodin | bitin | setdd | framerd
deriving DecidableEq, Repr

/-- The byte of each operation code (rule R103). -/
def Opcode.byte : Opcode → U8
  | .reset => 0x01#8
  | .start => 0x02#8
  | .cfgwr => 0x10#8
  | .cfgrd => 0x11#8
  | .coefwr => 0x12#8
  | .coefrd => 0x13#8
  | .fdgen => 0x14#8
  | .sample => 0x20#8
  | .demodin => 0x21#8
  | .bitin => 0x22#8
  | .setdd => 0x23#8
  | .framerd => 0x30#8

/-- All assigned operation codes, in the order of rule R103. -/
def Opcode.all : List Opcode :=
  [.reset, .start, .cfgwr, .cfgrd, .coefwr, .coefrd, .fdgen,
   .sample, .demodin, .bitin, .setdd, .framerd]

/-- The operation code a byte names, none for a reserved one (rules R103, R106). -/
def Opcode.ofByte (b : U8) : Option Opcode := Opcode.all.find? fun o => o.byte == b

/-- The bits that must be zero: the fields the format does not use (rules R101, R105 step 2). -/
def Opcode.mustBeZero : Opcode → Word
  | .reset | .start | .framerd => 0x00FFFFFFFFFFFFFF#64
  | .cfgwr => 0x0000FFFF00000000#64
  | .cfgrd | .fdgen => 0x0000FFFFFFFFFFFF#64
  | .coefwr => 0x0000000000000000#64
  | .coefrd => 0x00000000FFFFFFFF#64
  | .sample | .demodin => 0x00FFFFFF00000000#64
  | .bitin | .setdd => 0x00FFFFFFFFFFFFFE#64

/-- The command of an operation code with the operands of a word, each one contiguous field (rule
R104). -/
def Opcode.instr (o : Opcode) (w : Word) : Instr :=
  match o with
  | .reset => .reset
  | .start => .start
  | .cfgwr => .cfgwr (selField w) (dataField w)
  | .cfgrd => .cfgrd (selField w)
  | .coefwr => .coefwr (selField w) (idxField w) (dataField w)
  | .coefrd => .coefrd (selField w) (idxField w)
  | .fdgen => .fdgen (selField w)
  | .sample => .sample (dataField w)
  | .demodin => .demodin (dataField w)
  | .bitin => .bitin (w.getLsbD 0)
  | .setdd => .setdd (w.getLsbD 0)
  | .framerd => .framerd

/-- What a command word is: a command, a word with a reserved operation code, or a word with a bit set
in a field its format does not use (rule R105, steps 1 and 2). -/
inductive Decoded where
  | ok (i : Instr)
  | illegalOp
  | reservedField
deriving DecidableEq, Repr

/-- The decoder: the operation code first, then the fields that must be zero (rules R103, R105). -/
def decode (w : Word) : Decoded :=
  match Opcode.ofByte (opField w) with
  | none => .illegalOp
  | some o => if w &&& o.mustBeZero = 0#64 then .ok (o.instr w) else .reservedField

/-- The word of a command: the four fields, the unused ones zero (rules R100, R101, R109). -/
def fields (op : Opcode) (sel : U8) (idx : U16) (data : U32) : Word :=
  op.byte ++ sel ++ idx ++ data

/-- A bit as the 32-bit operand of format T (rule R101). -/
def bitData (b : Bool) : U32 := 0#31 ++ BitVec.ofBool b

/-- The encoder (rules R100, R101, R103). -/
def encode : Instr → Word
  | .reset => fields .reset 0#8 0#16 0#32
  | .start => fields .start 0#8 0#16 0#32
  | .cfgwr sel data => fields .cfgwr sel 0#16 data
  | .cfgrd sel => fields .cfgrd sel 0#16 0#32
  | .coefwr sel idx data => fields .coefwr sel idx data
  | .coefrd sel idx => fields .coefrd sel idx 0#32
  | .fdgen sel => fields .fdgen sel 0#16 0#32
  | .sample data => fields .sample 0#8 0#16 data
  | .demodin data => fields .demodin 0#8 0#16 data
  | .bitin bit => fields .bitin 0#8 0#16 (bitData bit)
  | .setdd bit => fields .setdd 0#8 0#16 (bitData bit)
  | .framerd => fields .framerd 0#8 0#16 0#32

/-- The command word whose bits are `w`, of which `nbits` are given: one 64-bit word, every bit above
`nbits` zero. -/
def tableWord (nbits w : Nat) : Word := BitVec.ofNat 64 (w % 2 ^ nbits)

/-- The command the decoder reads from an opcode-table word. -/
def decodeTableWord (nbits w : Nat) : Option Instr :=
  match decode (tableWord nbits w) with
  | .ok i => some i
  | .illegalOp => none
  | .reservedField => none

end Sys2Proof
end

