-- ==== Sys2Proof/Config.lean ====
section
/-!
DEFINITION. The implementation parameters of rule R7, and the uninterpreted constants that stand for
what the spec leaves open. A parameter has one value for the life of an instance (rules R7, R20,
R46); a choice of function is named by a selector, so that the parameters are plain data.
-/

namespace Sys2Proof

/-- The numerics record `NUM` (rules R7, R9): the reference record `NUM_REAL`, or one of the records
the spec leaves OPEN. -/
inductive NumSel where
  | real
  | other (n : Nat)
deriving DecidableEq, Repr, Inhabited

/-- The pulse function `PULSE` (rules R7, R141): the default, the textbook root pulse `PULSE_ROOT`, or
any other function (OPEN). -/
inductive PulseSel where
  | raisedCosine
  | root
  | other (n : Nat)
deriving DecidableEq, Repr, Inhabited

/-- The data-detect update `LOCKNEXT` (rules R7, R196): the default, which holds the bit, or any other
function (OPEN). -/
inductive LockSel where
  | hold
  | other (n : Nat)
deriving DecidableEq, Repr, Inhabited

/-- The parameters of one instance (rule R7). -/
structure Params where
  /-- `MAXTAPS`, from 1 to 65535 (OPEN). -/
  maxTaps : Nat
  /-- `MAXFRAME`, from 1 to 65535 (OPEN). -/
  maxFrame : Nat
  /-- `NUM`. -/
  num : NumSel
  /-- `NORM_EPS`, default 0 (OPEN). DESIGN CHOICE, unsafe (log 20): only a value that a `Val` term writes. -/
  normEps : Val
  /-- `SING_EPS`, default 0 (OPEN). DESIGN CHOICE, unsafe (log 20): only a value that a `Val` term writes. -/
  singEps : Val
  /-- `PULSE`. -/
  pulse : PulseSel
  /-- `LOCKNEXT`. -/
  lockNext : LockSel
deriving DecidableEq, Repr, Inhabited

/-- The instance that `State.reset` describes: `MAXTAPS = 9` and `MAXFRAME = 16`, the instance of the
spec's test vectors, and the default of every other parameter. DESIGN CHOICE (log 1), unsafe only
for a statement that rests on these two numbers; no statement does. -/
def Params.default : Params :=
  { maxTaps := 9, maxFrame := 16, num := .real, normEps := .zero, singEps := .zero
    pulse := .raisedCosine, lockNext := .hold }

/-- The content of register `ID` (rules R7, R45; ASCII "AFRX"). -/
def Config.idValue : U32 := 0x41465258#32

/-- A value of a numerics record that the spec leaves OPEN, as its place in the record's total order
(rule R9): by `base` first, then by `offset`. A decoded pattern stands at the rational number it is,
with the offset 0. Every countable total order that has the decoded patterns in their own order is of
this form (log 3). -/
structure Place where
  base : Rat
  offset : Rat
deriving DecidableEq, Repr, Inhabited

/-- The operations of a numerics record on one value (rule R9). -/
inductive Unary where
  | neg | abs | sqrt | sin | cos
deriving DecidableEq, Repr, Inhabited

/-- The operations of a numerics record on two values (rule R9). -/
inductive Binary where
  | add | sub | mul | div | atan2
deriving DecidableEq, Repr, Inhabited

/-- `π` of the numerics record number `n` (rule R9, OPEN; log 3). -/
opaque Config.otherPi : Nat → Place

/-- `ofInt` of the numerics record number `n` (rule R9, OPEN; log 3). -/
opaque Config.otherOfInt : Nat → Int → Place

/-- The operations of the numerics record number `n` on one value (rule R9, OPEN; log 3). -/
opaque Config.otherUnary : Nat → Unary → Place → Place

/-- The operations of the numerics record number `n` on two values (rule R9, OPEN; log 3). -/
opaque Config.otherBinary : Nat → Binary → Place → Place → Place

/-- `cosPhase` of the numerics record number `n` (rule R9, OPEN; log 3). -/
opaque Config.otherCosPhase : Nat → U32 → Place

/-- `sinPhase` of the numerics record number `n` (rule R9, OPEN; log 3). -/
opaque Config.otherSinPhase : Nat → U32 → Place

/-- The port encoding of the numerics record number `n` at the places that are no decoded value (rules
R9, R10, OPEN; log 3). -/
opaque Config.otherEnc32 : Nat → Place → U32

/-- The pulse function number `n` (rule R141, OPEN; log 5). DESIGN CHOICE, unsafe (log 20): rule R7 lets
the result be any value of `V`, and here it is one that a `Val` term writes. -/
opaque Config.otherPulse : Nat → Val → Val → Val

/-- The data-detect update number `n`: the present bit, whether the sample was a transition, the signed
accumulator after the increment, whether a bit was emitted (rule R196, OPEN; log 6). -/
opaque Config.otherLockNext : Nat → Bool → Bool → Int → Bool → Bool

/-- Whether a value other than 0, positive or negative, so small that its nearest pattern has magnitude
0 is encoded with the sign bit set: rule R10 leaves both zero patterns equally near (a free value, log
7). -/
opaque Config.underflowSign : Val → Bool

/-- The value of a register whose pattern is not a value (rule R11 says that a rule reading it is
reached only after validation has excluded this; a free value, log 8). -/
opaque Config.noValue : U32 → Val

end Sys2Proof
end

