-- ==== Sys2Proof/Machine/State.lean ====
section
/-!
DEFINITION. The state of one instance (rules R20 to R43), with the command port of rule R13 beside it,
and the state after reset (rules R49, R290). Plain data throughout.
-/

namespace Sys2Proof.Machine

/-- No command stops the core: the step function is total and every refused command is a response with
a status code (rules R13, R261, R265, R269). There is no fault. -/
inductive Fault where
deriving DecidableEq, Repr

/-- The only refusal is the host's name for a command without a meaning. -/
inductive Refusal where
  /-- Raised by no arm of `exec`: every command of the opcode table has its meaning. It would be safe
  (the model stops). -/
  | notModelled (mnemonic : String)
deriving DecidableEq, Repr

/-- `MODE` (rule R21). -/
inductive Mode where
  | config
  | run
deriving DecidableEq, Repr

/-- `DF_STATE` (rule R41). -/
inductive DfState where
  | hunting
  | filling
deriving DecidableEq, Repr

/-- The status codes (rule R260). -/
inductive Status where
  | ok
  | errIllegalOp
  | errReservedField
  | errMode
  | errSel
  | errIndex
  | errOperand
  | errCfgRate
  | errCfgTone
  | errCfgProfile
  | errCfgFilter
  | errCfgRange
  | errCfgFrame
  | errCfgSpec
deriving DecidableEq, Repr

/-- A response: the fields of the response word (rule R102) and the octets of the payload, which only
FRAMERD gives (rule R111). -/
structure Response where
  /-- `st`. -/
  status : Status
  /-- `fl`. -/
  fl : U8
  /-- `aux`. -/
  aux : U16
  /-- `data`. -/
  data : U32
  /-- The octets of the payload, octet 0 first. -/
  payload : List Octet
deriving DecidableEq, Repr

/-- The filter specification registers of one bank (rule R28). -/
structure FilterSpec where
  /-- `FS_KIND[b]`. -/
  kind : U32
  /-- `FS_TAPS[b]`. -/
  taps : U32
  /-- `FS_F1[b]`. -/
  f1 : U32
  /-- `FS_F2[b]`. -/
  f2 : U32
  /-- `FS_WINDOW[b]`. -/
  window : U32
  /-- `FS_ROLLOFF[b]`. -/
  rolloff : U32
  /-- `FS_SPS[b]`. -/
  sps : U32
deriving DecidableEq, Repr

/-- The configuration registers (rules R24 to R29), 32 bits each (rule R30). -/
structure Cfg where
  sampleRate : U32
  symbolRate : U32
  markFreq : U32
  spaceFreq : U32
  profile : U32
  demodCtrl : U32
  agcAttack : U32
  agcDecay : U32
  pllLockedInertia : U32
  pllSearchInertia : U32
  frameMin : U32
  frameMax : U32
  /-- `FS_*[0]`, `FS_*[1]`. -/
  spec : Two FilterSpec
  /-- `COEF_LEN[0]`, `COEF_LEN[1]`. -/
  coefLen : Two U32
deriving DecidableEq, Repr

/-- The derived constants, written by START only (rule R31). -/
structure Derived where
  /-- `OSC_INC[0..1]`. -/
  oscInc : Two U32
  /-- `PLL_STEP`. -/
  pllStep : U32
  /-- `DISC_SCALE`. -/
  discScale : Val
deriving DecidableEq, Repr

/-- The storage spaces `COEF`, `HIST`, `FRAME` and `SLOT` (rule R70), each an array indexed from 0. The
list of an array holds exactly its elements (`Memory.wf`), so equal arrays are equal lists. -/
structure Memory where
  /-- `COEF[b][0 .. MAXTAPS−1]` (rule R32). -/
  coef : Two (List Val)
  /-- `RAWH[0 .. MAXTAPS−1]` (rule R33). -/
  rawh : List Val
  /-- `IH[t][0 .. MAXTAPS−1]` (rule R33). -/
  ih : Two (List Val)
  /-- `QH[t][0 .. MAXTAPS−1]` (rule R33). -/
  qh : Two (List Val)
  /-- `FRAME_BUF[0 .. MAXFRAME−1]` (rule R42). -/
  frameBuf : List Octet
  /-- `SLOT_BUF[0 .. MAXFRAME−1]` (rule R43). -/
  slotBuf : List Octet
deriving DecidableEq, Repr

/-- The demodulator's run-time registers (rules R34 to R36). -/
structure Demod where
  /-- `OSC_PHASE[0..1]`. -/
  oscPhase : Two U32
  /-- `AGC_PEAK[0..1]`. -/
  agcPeak : Two Val
  /-- `AGC_VALLEY[0..1]`. -/
  agcValley : Two Val
  /-- `PREV_PHASE`. -/
  prevPhase : Val
deriving DecidableEq, Repr

/-- The PLL's run-time registers (rules R37 to R39). -/
structure Pll where
  /-- `PLL_ACC`. -/
  acc : U32
  /-- `PREV_SIGN`. -/
  prevSign : Bool
  /-- `DATA_DETECT`. -/
  dataDetect : Bool
deriving DecidableEq, Repr

/-- The deframer's run-time registers (rules R40 to R43). -/
structure Deframer where
  /-- `PREV_RAW`. -/
  prevRaw : Bool
  /-- `SHIFT_REG`. -/
  shiftReg : Octet
  /-- `OCTET_ACC`. -/
  octetAcc : Octet
  /-- `BITS_IN_OCTET`, an integer in `0..7`. -/
  bitsInOctet : BitVec 3
  /-- `DF_STATE`. -/
  dfState : DfState
  /-- `OVERFLOW`. -/
  overflow : Bool
  /-- `FRAME_LEN`. -/
  frameLen : Nat
  /-- `SLOT_LEN`. -/
  slotLen : Nat
  /-- `SLOT_VALID`. -/
  slotValid : Bool
deriving DecidableEq, Repr

/-- The state of one instance and of its command port. -/
structure State where
  /-- The instance's parameters (rules R7, R46), constant: no command changes them. -/
  params : Params
  /-- `MODE` (rule R21). -/
  mode : Mode
  /-- The configuration registers (rules R24 to R30). -/
  cfg : Cfg
  /-- The derived constants (rule R31). -/
  derived : Derived
  /-- The coefficient banks, histories, frame buffer and slot (rules R32, R33, R42, R43, R70). -/
  mem : Memory
  /-- The demodulator's registers (rules R34 to R36). -/
  demod : Demod
  /-- The PLL's registers (rules R37 to R39). -/
  pll : Pll
  /-- The deframer's registers (rules R40 to R43). -/
  df : Deframer
  /-- The model's own field: the command words the host has presented and the core has not yet taken,
  the next one first (rules R13, R22; log 2). -/
  cmds : List Word
  /-- The model's own field: the response to the latest command, none before the first (rules R13,
  R102; log 2). -/
  resp : Option Response
deriving DecidableEq, Repr

/-- Filter specification registers at reset (rule R49). -/
def FilterSpec.reset : FilterSpec :=
  { kind := 0#32, taps := 0#32, f1 := 0#32, f2 := 0#32, window := 0#32, rolloff := 0#32
    sps := 0#32 }

/-- Configuration registers at reset (rules R30, R49). -/
def Cfg.reset : Cfg :=
  { sampleRate := 0#32, symbolRate := 0#32, markFreq := 0#32, spaceFreq := 0#32
    profile := 0#32, demodCtrl := 0#32, agcAttack := 0#32, agcDecay := 0#32
    pllLockedInertia := 0#32, pllSearchInertia := 0#32, frameMin := 0#32, frameMax := 0#32
    spec := .both .reset, coefLen := .both 0#32 }

/-- Derived constants at reset (rules R31, R49). -/
def Derived.reset : Derived :=
  { oscInc := .both 0#32, pllStep := 0#32, discScale := .zero }

/-- The storage spaces at reset: every element 0 (rules R32, R33, R42, R43, R49). -/
def Memory.reset (maxTaps maxFrame : Nat) : Memory :=
  { coef := .both (List.replicate maxTaps .zero)
    rawh := List.replicate maxTaps .zero
    ih := .both (List.replicate maxTaps .zero)
    qh := .both (List.replicate maxTaps .zero)
    frameBuf := List.replicate maxFrame 0#8
    slotBuf := List.replicate maxFrame 0#8 }

/-- Demodulator registers at reset (rules R34 to R36, R49). -/
def Demod.reset : Demod :=
  { oscPhase := .both 0#32, agcPeak := .both .zero, agcValley := .both .zero, prevPhase := .zero }

/-- PLL registers at reset (rules R37 to R39, R49). -/
def Pll.reset : Pll := { acc := 0#32, prevSign := false, dataDetect := false }

/-- Deframer registers at reset (rules R40 to R43, R49). -/
def Deframer.reset : Deframer :=
  { prevRaw := false, shiftReg := 0#8, octetAcc := 0#8, bitsInOctet := 0#3, dfState := .hunting
    overflow := false, frameLen := 0, slotLen := 0, slotValid := false }

/-- The reset state of an instance with the parameters `p`, no command presented and no response given
(rules R49, R290). -/
def State.resetOf (p : Params) : State :=
  { params := p, mode := .config, cfg := .reset, derived := .reset
    mem := .reset p.maxTaps p.maxFrame, demod := .reset, pll := .reset, df := .reset
    cmds := [], resp := none }

/-- The state after power-on (rules R49, R290), of the instance `Params.default` (log 1). -/
def State.reset : State := .resetOf .default

end Sys2Proof.Machine
end

