-- ==== Sys2Proof/Machine/Flags.lean ====
section
/-!
DEFINITION. The flag bytes of the responses (rules R112, R113), the packed status registers (rules
R40, R44), and the response word and payload words of the port (rules R73, R102, R111, R260).
-/

namespace Sys2Proof.Machine

/-- The code of a status (rule R260). -/
def Status.code : Status → U8
  | .ok => 0x00#8
  | .errIllegalOp => 0x01#8
  | .errReservedField => 0x02#8
  | .errMode => 0x03#8
  | .errSel => 0x04#8
  | .errIndex => 0x05#8
  | .errOperand => 0x06#8
  | .errCfgRate => 0x10#8
  | .errCfgTone => 0x11#8
  | .errCfgProfile => 0x12#8
  | .errCfgFilter => 0x13#8
  | .errCfgRange => 0x14#8
  | .errCfgFrame => 0x15#8
  | .errCfgSpec => 0x16#8

/-- The response word (rule R102). -/
def Response.word (r : Response) : Word := r.status.code ++ r.fl ++ r.aux ++ r.data

/-- The response of a refused command: the status code, all else zero, no payload (rules R102, R260). -/
def Response.error (st : Status) : Response :=
  { status := st, fl := 0#8, aux := 0#16, data := 0#32, payload := [] }

/-- The payload word whose lowest octet is the first of the list, eight octets a word, an absent octet
zero (rule R73). -/
def payloadWord (l : List Octet) : Word :=
  l.getD 7 0#8 ++ l.getD 6 0#8 ++ l.getD 5 0#8 ++ l.getD 4 0#8 ++
    l.getD 3 0#8 ++ l.getD 2 0#8 ++ l.getD 1 0#8 ++ l.getD 0 0#8

/-- The payload words that follow the response word: `⌈L/8⌉` of them for `L` octets (rules R73,
R111). -/
def payloadWords (l : List Octet) : List Word :=
  (List.range ((l.length + 7) / 8)).map fun k => payloadWord (l.drop (8 * k))

/-- The events of one deframer step (rules R210, R218). -/
structure DfEvent where
  /-- `DB`, the NRZI-decoded bit. -/
  db : Bool
  /-- `FLG`, the flag pattern was recognised. -/
  flg : Bool
  /-- `FE`, the slot was written. -/
  fe : Bool
  /-- `OVF`, an octet was dropped. -/
  ovf : Bool
deriving DecidableEq, Repr

/-- No deframer step was made: its flags are 0 (rule R112). -/
def DfEvent.none : DfEvent := { db := false, flg := false, fe := false, ovf := false }

/-- The events of one data-path step (rules R112, R190). -/
structure DataEvent where
  /-- `BV`, a raw bit was handed to the deframer. -/
  bv : Bool
  /-- `B`, that raw bit. -/
  b : Bool
  /-- `TR`, the PLL saw a transition. -/
  tr : Bool
  df : DfEvent
deriving DecidableEq, Repr

/-- Eight flags as a byte, bit 7 first. -/
def flagByte (f7 f6 f5 f4 f3 f2 f1 f0 : Bool) : U8 :=
  BitVec.ofBool f7 ++ BitVec.ofBool f6 ++ BitVec.ofBool f5 ++ BitVec.ofBool f4 ++
    BitVec.ofBool f3 ++ BitVec.ofBool f2 ++ BitVec.ofBool f1 ++ BitVec.ofBool f0

/-- The flags of a data-path response: `OVF TR FA FE FLG DB B BV` from bit 7 down (rule R112). `fa` is
`SLOT_VALID` after the step. -/
def dataFlags (ev : DataEvent) (fa : Bool) : U8 :=
  flagByte ev.df.ovf ev.tr fa ev.df.fe ev.df.flg ev.df.db ev.b ev.bv

/-- The flags of FDGEN: bit 0 `W_CLAMP`, bit 1 `W_DEGEN` (rules R113, R133). -/
def warningFlags (clamp degen : Bool) : U8 :=
  flagByte false false false false false false degen clamp

/-- A flag byte with bit 0 alone: `W_CLAMP` of CFGWR, `V` of FRAMERD (rule R113). -/
def bit0Flag (b : Bool) : U8 := flagByte false false false false false false false b

/-- `DF_STATE` as a bit (rule R41). -/
def DfState.toBool : DfState → Bool
  | .hunting => false
  | .filling => true

/-- `MODE` as a bit (rule R21). -/
def Mode.toBool : Mode → Bool
  | .config => false
  | .run => true

/-- `STATUS` (rule R44): `PREV_RAW PREV_SIGN DATA_DETECT OVERFLOW DF_STATE SLOT_VALID` from bit 5
down. -/
def State.statusWord (s : State) : U32 :=
  0#24 ++ flagByte false false s.df.prevRaw s.pll.prevSign s.pll.dataDetect s.df.overflow
    s.df.dfState.toBool s.df.slotValid

/-- `DF_REGS` (rule R40): `BITS_IN_OCTET OCTET_ACC SHIFT_REG` from bit 18 down. -/
def Deframer.packed (d : Deframer) : U32 := 0#13 ++ d.bitsInOctet ++ d.octetAcc ++ d.shiftReg

/-- The output `frame_avail` (rule R50). -/
def State.frameAvail (s : State) : Bool := s.df.slotValid

end Sys2Proof.Machine
end

