-- ==== Sys2Proof/Machine/Codec.lean ====
section
/-!
DEFINITION. The port codec of rule R10: the IEEE 754 binary32 layout, exact on rational numbers.
-/

namespace Sys2Proof.Machine

/-- The exponent field `e = b[30:23]` (rule R10). -/
def expField (b : U32) : Nat := (b.extractLsb' 23 8).toNat

/-- The fraction field `m = b[22:0]` (rule R10). -/
def fracField (b : U32) : Nat := (b.extractLsb' 0 23).toNat

/-- The sign bit `s = b[31]` (rule R10). -/
def signField (b : U32) : Bool := b.getLsbD 31

/-- Whether the pattern is a value: neither an infinity nor a NaN (rule R10). -/
def isValue (b : U32) : Bool := expField b != 255

/-- The magnitude of a pattern that is a value (rule R10). -/
def decMagnitude (b : U32) : Rat :=
  if expField b = 0 then mkRat (fracField b) (2 ^ 149)
  else if 150 ≤ expField b then ((2 ^ 23 + fracField b) * 2 ^ (expField b - 150) : Nat)
  else mkRat (2 ^ 23 + fracField b : Nat) (2 ^ (150 - expField b))

/-- The rational number a pattern that is a value stands for (rule R10). -/
def decRat (b : U32) : Rat := if signField b then -decMagnitude b else decMagnitude b

/-- `dec32` (rule R10). -/
def dec32 (b : U32) : Option Val := if isValue b then some (.lit (decRat b)) else none

/-- `val(NAME)` of a register that holds a pattern (rule R11). Where the pattern is not a value, which
rule R11 excludes, the result is free (log 8). -/
def valOf (b : U32) : Val := (dec32 b).getD (Config.noValue b)

/-- The quotient `n / d` rounded to the nearest integer, a tie to the even one (rule R10). -/
def roundHalfEven (n d : Nat) : Nat :=
  let q := n / d
  let r := n % d
  if 2 * r < d then q
  else if d < 2 * r then q + 1
  else if q % 2 = 0 then q else q + 1

/-- The exponent `E` with `2^E ≤ n/d < 2^(E+1)`, for positive `n` and `d`. -/
def binaryExponent (n d : Nat) : Int :=
  let k : Int := (n.log2 : Int) - (d.log2 : Int)
  let fits : Bool := if 0 ≤ k then decide (d * 2 ^ k.toNat ≤ n) else decide (d ≤ n * 2 ^ (-k).toNat)
  if fits then k else k - 1

/-- The 31 low bits of the pattern nearest to the magnitude `n/d`, which is positive and below
`2^128 − 2^103`: the quotient by the unit in the last place, rounded; the biased exponent is added to
the rounded fraction, so that a carry out of the fraction goes into the exponent (rule R10). -/
def encMagnitude (n d : Nat) : Nat :=
  let e : Int := max (binaryExponent n d) (-126)
  let up : Int := 23 - e
  let m := if 0 ≤ up then roundHalfEven (n * 2 ^ up.toNat) d
    else roundHalfEven n (d * 2 ^ (-up).toNat)
  (e + 126).toNat * 2 ^ 23 + m

/-- The least magnitude that is encoded as an infinity, `2^128 − 2^103` (rule R10). -/
def overflowBound : Nat := 2 ^ 128 - 2 ^ 103

/-- A pattern from the sign of a value that is not 0 and its 31 low bits; `zeroSign` is the sign bit
taken, whatever the sign of the value, for a magnitude that rounds to 0 (log 7). -/
def packPattern (negative zeroSign : Bool) (mag : Nat) : U32 :=
  BitVec.ofNat 32 (mag + if (if mag = 0 then zeroSign else negative) then 2 ^ 31 else 0)

/-- The pattern of an infinity without its sign (rule R10). -/
def infMagnitude : Nat := 0x7F800000

/-- `enc32` of a rational number: the nearest pattern, a tie to the even fraction, `+0` for 0, an
infinity from `2^128 − 2^103` on (rule R10). `zeroSign` is the sign bit of an underflow to 0 (log 7). -/
def encRat (zeroSign : Bool) (q : Rat) : U32 :=
  if q.num = 0 then 0#32
  else if overflowBound * q.den ≤ q.num.natAbs then
    packPattern (decide (q.num < 0)) zeroSign infMagnitude
  else packPattern (decide (q.num < 0)) zeroSign (encMagnitude q.num.natAbs q.den)

end Sys2Proof.Machine
end

