-- ==== Sys2Proof/Machine/Evaluate.lean ====
section
/-!
DEFINITION. The evaluator of values under the reference record `NUM_REAL` (rule R9). Every value is a
real number there, and this file computes a rational enclosure of it that Lean's kernel can run:
exact where the value is a rational combination of sines of rational multiples of `π` times a power
of `π` (which the coefficients, the mixer products and the filter outputs are), an interval of fixed
point numbers otherwise. `Laws/Evaluate.lean` proves that the enclosure holds the real number.
-/

namespace Sys2Proof.Machine

/-- A closed interval of the real line, its end points in units of `1 / fixedScale`. -/
structure Interval where
  lo : Int
  hi : Int
deriving DecidableEq, Repr

/-- The number of fixed point units in 1. -/
def fixedScale : Int := 2 ^ 80

/-- The quotient rounded toward plus infinity, for a positive divisor. -/
def ceilDiv (a b : Int) : Int := -((-a) / b)

/-- The integer square root, by Newton's method from above. -/
def isqrtFrom (n : Nat) : Nat → Nat → Nat
  | 0, g => g
  | fuel + 1, g =>
    let next := (g + n / g) / 2
    if next < g then isqrtFrom n fuel next else g

/-- An integer `r` with `r² ≤ n < (r+1)²`, none if the search did not find it. -/
def isqrt (n : Nat) : Option Nat :=
  let r := isqrtFrom n (n.log2 + 8) (2 ^ (n.log2 / 2 + 1))
  if r * r ≤ n ∧ n < (r + 1) * (r + 1) then some r else none

def Interval.ofRat (q : Rat) : Interval :=
  { lo := q.num * fixedScale / (q.den : Int), hi := ceilDiv (q.num * fixedScale) (q.den : Int) }

def Interval.add (a b : Interval) : Interval := { lo := a.lo + b.lo, hi := a.hi + b.hi }

def Interval.neg (a : Interval) : Interval := { lo := -a.hi, hi := -a.lo }

def Interval.sub (a b : Interval) : Interval := a.add b.neg

def Interval.mul (a b : Interval) : Interval :=
  let p := a.lo * b.lo
  let q := a.lo * b.hi
  let r := a.hi * b.lo
  let s := a.hi * b.hi
  { lo := min (min p q) (min r s) / fixedScale
    hi := ceilDiv (max (max p q) (max r s)) fixedScale }

/-- The interval divided by a positive integer. -/
def Interval.divNat (a : Interval) (n : Nat) : Interval :=
  { lo := a.lo / (n : Int), hi := ceilDiv a.hi (n : Int) }

/-- The reciprocal of an interval of positive numbers. -/
def Interval.invPos (a : Interval) : Interval :=
  { lo := fixedScale * fixedScale / a.hi, hi := ceilDiv (fixedScale * fixedScale) a.lo }

/-- The quotient, none where the divisor's interval holds 0. -/
def Interval.div (a b : Interval) : Option Interval :=
  if 0 < b.lo then some (a.mul b.invPos)
  else if b.hi < 0 then some (a.neg.mul b.neg.invPos)
  else none

def Interval.abs (a : Interval) : Interval :=
  if 0 ≤ a.lo then a
  else if a.hi ≤ 0 then a.neg
  else { lo := 0, hi := max (-a.lo) a.hi }

def Interval.sqrt (a : Interval) : Option Interval :=
  match isqrt (a.lo * fixedScale).toNat, isqrt (a.hi * fixedScale).toNat with
  | some l, some h => some { lo := l, hi := h + 1 }
  | _, _ => none

/-- `π`, to twenty decimals. -/
def Interval.pi : Interval :=
  { lo := 314159265358979323846 * fixedScale / 10 ^ 20
    hi := ceilDiv (314159265358979323847 * fixedScale) (10 ^ 20) }

/-- The alternating sum `t − t·x2/((k+1)(k+2)) + …` of `fuel` terms. -/
def alternating (x2 : Interval) : Nat → Nat → Interval → Interval
  | 0, _, _ => { lo := 0, hi := 0 }
  | fuel + 1, k, t =>
    t.sub (alternating x2 fuel (k + 2) ((t.mul x2).divNat ((k + 1) * (k + 2))))

/-- The interval widened by `e` units on both sides. -/
def Interval.widen (a : Interval) (e : Int) : Interval := { lo := a.lo - e, hi := a.hi + e }

/-- The sine of `r·π` for a rational `r` from 0 to 1/2: thirteen terms of the power series, of the
sine up to 1/4, of the cosine of the complement above. -/
def sinTurn (r : Rat) : Interval :=
  if r ≤ 1 / 4 then
    let x := (Interval.ofRat r).mul .pi
    (alternating (x.mul x) 13 1 x).widen 1
  else
    let x := (Interval.ofRat (1 / 2 - r)).mul .pi
    (alternating (x.mul x) 13 0 (.ofRat 1)).widen 1

/-- A finite combination `Σ c · sin (r·π)` as pairs `(r, c)`, each `r` from 0 to 1/2, rising. -/
abbrev SineSum := List (Rat × Rat)

/-- The rational number `q`, as `q · sin (π/2)`. -/
def SineSum.ofRat (q : Rat) : SineSum := if q.num = 0 then [] else [(1 / 2, q)]

def SineSum.scale (c : Rat) (l : SineSum) : SineSum :=
  if c.num = 0 then [] else l.map fun t => (t.1, t.2 * c)

/-- One term more; terms of the same sine are joined, and a term that cancels goes. -/
def SineSum.insert (t : Rat × Rat) : SineSum → SineSum
  | [] => [t]
  | u :: l =>
    if t.1 = u.1 then
      let c := t.2 + u.2
      if c.num = 0 then l else (t.1, c) :: l
    else if t.1 < u.1 then t :: u :: l
    else u :: SineSum.insert t l

def SineSum.add (a b : SineSum) : SineSum := a.foldr SineSum.insert b

/-- The rational number a sum is, none where a proper sine stands in it. -/
def SineSum.toRat? : SineSum → Option Rat
  | [] => some 0
  | [(r, c)] => if r = 1 / 2 then some c else none
  | _ => none

/-- The sine of `q·π`, brought into the range from 0 to 1/2. -/
def SineSum.sinPi (q : Rat) : SineSum :=
  let r := q - 2 * ((q / 2).floor : Int)
  let t : Rat × Rat :=
    if r ≤ 1 / 2 then (r, 1)
    else if r ≤ 1 then (1 - r, 1)
    else if r ≤ 3 / 2 then (r - 1, -1)
    else (2 - r, -1)
  if t.1 = 0 then [] else if t.1 = 1 / 6 then [(1 / 2, t.2 / 2)] else [t]

/-- The cosine of `q·π`. -/
def SineSum.cosPi (q : Rat) : SineSum := SineSum.sinPi (q + 1 / 2)

def SineSum.toInterval (l : SineSum) : Interval :=
  l.foldr (fun t a => ((Interval.ofRat t.2).mul (sinTurn t.1)).add a) { lo := 0, hi := 0 }

/-- What is known of a real number: that it is `π^k` times a sum of sines, with `k` the difference of
two naturals, that it lies in an interval, or nothing. -/
inductive Enclosure where
  | exact (up down : Nat) (l : SineSum)
  | within (a : Interval)
  | unknown
deriving DecidableEq, Repr

def Interval.powPi : Nat → Interval
  | 0 => .ofRat 1
  | n + 1 => (Interval.powPi n).mul .pi

def Enclosure.toInterval : Enclosure → Option Interval
  | .exact up down l => (l.toInterval.mul (.powPi up)).div (.powPi down)
  | .within a => some a
  | .unknown => none

def Enclosure.ofInterval : Option Interval → Enclosure
  | some a => .within a
  | none => .unknown

/-- Two intervals combined. -/
def Enclosure.lift2 (f : Interval → Interval → Option Interval) (a b : Enclosure) : Enclosure :=
  match a.toInterval, b.toInterval with
  | some x, some y => .ofInterval (f x y)
  | _, _ => .unknown

/-- An exact value `π^(up−down)·l` with the common powers of `π` cancelled. -/
def Enclosure.mkExact (up down : Nat) (l : SineSum) : Enclosure :=
  match l with
  | [] => .exact 0 0 []
  | t :: l => .exact (up - down) (down - up) (t :: l)

def Enclosure.ofRat (q : Rat) : Enclosure := .exact 0 0 (.ofRat q)

/-- Whether the value is known to be 0. -/
def Enclosure.isZero : Enclosure → Bool
  | .exact _ _ [] => true
  | _ => false

def Enclosure.neg : Enclosure → Enclosure
  | .exact u d l => .exact u d (l.scale (-1))
  | .within a => .within a.neg
  | .unknown => .unknown

def Enclosure.add (a b : Enclosure) : Enclosure :=
  if a.isZero then b
  else if b.isZero then a
  else match a, b with
    | .exact u d l, .exact u' d' l' =>
      if u = u' ∧ d = d' then .mkExact u d (l.add l')
      else .lift2 (fun x y => some (x.add y)) (.exact u d l) (.exact u' d' l')
    | a, b => .lift2 (fun x y => some (x.add y)) a b

/-- `y·cos (t·π) − x·sin (t·π)` for a point whose coordinates are sums of sines, by the product
formulas. It is 0 when the point lies in the direction `t·π` or the opposite one. -/
def SineSum.cross (y x : SineSum) (t : Rat) : SineSum :=
  let ys := y.foldr (fun u a =>
    (((sinPi (u.1 + t)).add (sinPi (u.1 - t))).scale (u.2 / 2)).add a) []
  x.foldr (fun u a =>
    (((cosPi (u.1 + t)).add ((cosPi (u.1 - t)).scale (-1))).scale (u.2 / 2)).add a) ys

/-- The product of two sums of sines, by the product formulas. -/
def SineSum.product (a b : SineSum) : SineSum :=
  b.foldr (fun u l => ((SineSum.cross [] a u.1).scale (-u.2)).add l) []

/-- The product of two sums of sines where one of them is a rational number or both are short. -/
def SineSum.mul? (a b : SineSum) : Option SineSum :=
  match a.toRat?, b.toRat? with
  | some q, _ => some (b.scale q)
  | none, some q => some (a.scale q)
  | none, none => if a.length * b.length ≤ 16 then some (a.product b) else none

def Enclosure.mul (a b : Enclosure) : Enclosure :=
  if a.isZero || b.isZero then .exact 0 0 []
  else match a, b with
    | .exact u d l, .exact u' d' l' =>
      match l.mul? l' with
      | some l'' => .mkExact (u + u') (d + d') l''
      | none => .lift2 (fun x y => some (x.mul y)) (.exact u d l) (.exact u' d' l')
    | a, b => .lift2 (fun x y => some (x.mul y)) a b

def Enclosure.div (a b : Enclosure) : Enclosure :=
  if a.isZero then .exact 0 0 []
  else match a, b with
    | .exact u d l, .exact u' d' l' =>
      match l'.toRat? with
      | some q =>
        if q = 0 then .unknown else .mkExact (u + d') (d + u') (l.scale q⁻¹)
      | none => .lift2 Interval.div (.exact u d l) (.exact u' d' l')
    | a, b => .lift2 Interval.div a b

/-- The sign of a sum whose coefficients all have it; each sine of the sum is positive. -/
def SineSum.sign? (l : SineSum) : Option Int :=
  if l.all fun t => decide (0 < t.1) && decide (0 < t.2) then some 1
  else if l.all fun t => decide (0 < t.1) && decide (t.2 < 0) then some (-1)
  else none

/-- The sign the coefficients of an exact value show. -/
def Enclosure.exactSign? : Enclosure → Option Int
  | .exact _ _ l => l.sign?
  | .within _ => none
  | .unknown => none

/-- The sign an interval shows. -/
def Interval.sign? (i : Interval) : Option Int :=
  if 0 < i.lo then some 1 else if i.hi < 0 then some (-1) else none

/-- The sign of the value: -1, 0 or 1, none where it is not known. -/
def Enclosure.sign? (a : Enclosure) : Option Int :=
  if a.isZero then some 0
  else match a.exactSign? with
    | some s => some s
    | none => a.toInterval.bind Interval.sign?

def Enclosure.abs (a : Enclosure) : Enclosure :=
  match a.sign? with
  | some s => if 0 ≤ s then a else a.neg
  | none => match a.toInterval with
    | some i => .within i.abs
    | none => .unknown

/-- The rational number the value is, where it is known to be one. -/
def Enclosure.toRat? : Enclosure → Option Rat
  | .exact 0 0 l => l.toRat?
  | _ => none

/-- The square root of a rational number, where it is one. -/
def ratSqrt? (q : Rat) : Option Rat :=
  if q.num < 0 then none
  else match isqrt q.num.toNat, isqrt q.den with
    | some n, some d =>
      let r := mkRat n d
      if 0 ≤ r ∧ r * r = q then some r else none
    | _, _ => none

def Enclosure.sqrt (a : Enclosure) : Enclosure :=
  match a.toRat?.bind ratSqrt? with
  | some r => .ofRat r
  | none => match a.toInterval with
    | some i => .ofInterval i.sqrt
    | none => .unknown

/-- The rational `q` of a value known to be `q·π`. -/
def Enclosure.piMultiple? : Enclosure → Option Rat
  | .exact _ _ [] => some 0
  | .exact 1 0 l => l.toRat?
  | _ => none

def Enclosure.sin (a : Enclosure) : Enclosure :=
  match a.piMultiple? with
  | some q => .exact 0 0 (.sinPi q)
  | none => .unknown

def Enclosure.cos (a : Enclosure) : Enclosure :=
  match a.piMultiple? with
  | some q => .exact 0 0 (.cosPi q)
  | none => .unknown

/-- On which side of the direction `t·π` the point lies, from intervals of its coordinates: greater
where its own direction is the greater. -/
def sideOf (y x : Interval) (t : Rat) : Option Ordering :=
  let i := (y.mul (SineSum.cosPi t).toInterval).sub (x.mul (SineSum.sinPi t).toInterval)
  if 0 < i.lo then some .gt else if i.hi < 0 then some .lt else none

/-- On which side of the direction `t·π` the point lies; on neither, where it is exact and its cross
product with the direction vanishes. -/
def sideOfPoint (y x : Enclosure) (iy ix : Interval) (t : Rat) : Option Ordering :=
  match sideOf iy ix t with
  | some o => some o
  | none =>
    match y, x with
    | .exact u d l, .exact u' d' l' =>
      if u = u' ∧ d = d' ∧ SineSum.cross l l' t = [] then some .eq else none
    | _, _ => none

/-- Bisection for a direction between `a·π` and `b·π`; where the middle does not tell, a third does. -/
def bisect (side : Rat → Option Ordering) : Nat → Rat → Rat → Rat × Rat
  | 0, a, b => (a, b)
  | fuel + 1, a, b =>
    let m := (a + b) / 2
    match side m with
    | some .gt => bisect side fuel m b
    | some .lt => bisect side fuel a m
    | some .eq => (m, m)
    | none =>
      let m' := (2 * a + b) / 3
      match side m' with
      | some .gt => bisect side fuel m' b
      | some .lt => bisect side fuel a m'
      | some .eq => (m', m')
      | none => (a, b)

/-- What the bisection found: a direction exactly, or the interval from `a·π` to `b·π`. -/
def Enclosure.ofTurns (t : Rat × Rat) : Enclosure :=
  if t.1 = t.2 then .exact 1 0 (.ofRat t.1)
  else .within
    { lo := ((Interval.ofRat t.1).mul .pi).lo, hi := ((Interval.ofRat t.2).mul .pi).hi }

/-- The direction of a point neither of whose coordinates is known to be 0. -/
def atan2Point (y x : Enclosure) : Enclosure :=
  match y.toInterval, x.toInterval with
  | some iy, some ix =>
    let side := sideOfPoint y x iy ix
    if 0 < iy.lo then .ofTurns (bisect side 64 0 1)
    else if iy.hi < 0 then .ofTurns (bisect side 64 (-1) 0)
    else if 0 < ix.lo then .ofTurns (bisect side 64 (-1 / 2) (1 / 2))
    else .unknown
  | _, _ => .unknown

/-- `atan2`, exact on the axes (`atan2(0, 0) = 0`, rule R9). -/
def Enclosure.atan2 (y x : Enclosure) : Enclosure :=
  match y.sign?, x.sign? with
  | some 0, some s => if s = -1 then .exact 1 0 (.ofRat 1) else .exact 0 0 []
  | some s, some 0 => if s = 1 then .exact 1 0 (.ofRat (1 / 2)) else .exact 1 0 (.ofRat (-1 / 2))
  | _, _ => atan2Point y x

/-- The fraction of half a turn that a phase is: `p / 2^31` (rule R9, `cosPhase`). -/
def halfTurns (p : U32) : Rat := mkRat p.toNat (2 ^ 31)

/-- A quotient of the form `(a − (a+b)/2) / (a−b)` is 1/2, and `(b − (a+b)/2) / (a−b)` is −1/2, where
`a` and `b` differ: the normaliser of rule R170 at either end of its clip. -/
def clipPattern (n d : Val) : Option (Val × Val × Rat) :=
  match n, d with
  | .sub c (.div (.add a b) (.lit two)), .sub a' b' =>
    if two = 2 ∧ a = a' ∧ b = b' then
      if c = a then some (a, b, 1 / 2) else if c = b then some (a, b, -1 / 2) else none
    else none
  | _, _ => none

/-- What is known of the real number a value is. -/
def evaluate : Val → Enclosure
  | .lit q => .ofRat q
  | .ofInt z => .ofRat z
  | .pi => .exact 1 0 (.ofRat 1)
  | .add a b => (evaluate a).add (evaluate b)
  | .sub a b => if a = b then .exact 0 0 [] else (evaluate a).add (evaluate b).neg
  | .mul a b => (evaluate a).mul (evaluate b)
  | .div a b =>
    match clipPattern a b with
    | some (_, _, q) => if (evaluate b).sign?.any (· ≠ 0) then .ofRat q else .unknown
    | none => (evaluate a).div (evaluate b)
  | .neg a => (evaluate a).neg
  | .abs a => (evaluate a).abs
  | .sqrt a => (evaluate a).sqrt
  | .sin a => (evaluate a).sin
  | .cos a => (evaluate a).cos
  | .atan2 y x => (evaluate y).atan2 (evaluate x)
  | .cosPhase p => .exact 0 0 (.cosPi (halfTurns p))
  | .sinPhase p => .exact 0 0 (.sinPi (halfTurns p))

end Sys2Proof.Machine
end

