-- ==== Sys2Proof/Machine/RealNumerics.lean ====
section
/-!
DEFINITION. The reference numerics record `NUM_REAL` (rules R9, R10): what a value is as a real number,
the binary32 pattern of a real number, and the order and the encoding these give.
-/

namespace Sys2Proof.Machine

/-- The real number a value is under `NUM_REAL` (rule R9): `V = ℝ` with every operation exact. -/
noncomputable def Val.toReal : Val → ℝ
  | .lit q => q
  | .ofInt z => z
  | .pi => Real.pi
  | .add a b => Val.toReal a + Val.toReal b
  | .sub a b => Val.toReal a - Val.toReal b
  | .mul a b => Val.toReal a * Val.toReal b
  | .div a b => Val.toReal a / Val.toReal b
  | .neg a => -Val.toReal a
  | .abs a => |Val.toReal a|
  | .sqrt a => Real.sqrt (Val.toReal a)
  | .sin a => Real.sin (Val.toReal a)
  | .cos a => Real.cos (Val.toReal a)
  | .atan2 y x => Complex.arg ⟨Val.toReal x, Val.toReal y⟩
  | .cosPhase p => Real.cos (2 * Real.pi * p.toNat / 2 ^ 32)
  | .sinPhase p => Real.sin (2 * Real.pi * p.toNat / 2 ^ 32)

/-- The nearest integer to a real number, a tie to the even one (rule R10). -/
noncomputable def realHalfEven (x : ℝ) : Int :=
  if x - ⌊x⌋ < 1 / 2 then ⌊x⌋
  else if 1 / 2 < x - ⌊x⌋ then ⌊x⌋ + 1
  else if ⌊x⌋ % 2 = 0 then ⌊x⌋ else ⌊x⌋ + 1

/-- The 31 low bits of the pattern nearest to a positive real number below `2^128 − 2^103` (rule
R10): with `2^E ≤ x < 2^(E+1)` and `e = max E (−126)`, the unit in the last place is `2^(e−23)`. -/
noncomputable def realMagnitude (x : ℝ) : Nat :=
  let e : Int := max (Int.log 2 x) (-126)
  (e + 126).toNat * 2 ^ 23 + (realHalfEven (x / 2 ^ (e - 23))).toNat

/-- `enc32` of a real number (rule R10); `zeroSign` is the sign bit of an underflow to 0 (log
7). -/
noncomputable def encReal (zeroSign : Bool) (x : ℝ) : U32 :=
  if x = 0 then 0#32
  else if 2 ^ 128 - 2 ^ 103 ≤ |x| then packPattern (decide (x < 0)) zeroSign infMagnitude
  else packPattern (decide (x < 0)) zeroSign (realMagnitude |x|)

/-- An element of a nonempty type. All that is known of it is what the type says. (Compiled, this does
not end; the kernel does not run it, and the machine names it only where the evaluator answers
nothing.) -/
def someElement {ι α : Type} [Nonempty α] (i : ι) : α := someElement i
partial_fixpoint

/-- The answer to `a < b` of the real numbers. -/
abbrev OrderAnswer (a b : Val) : Type := { r : Bool // r = true ↔ Val.toReal a < Val.toReal b }

/-- The pattern that rule R10 gives a real number. -/
abbrev EncodingAnswer (v : Val) : Type :=
  { w : U32 // w = encReal (Config.underflowSign v) (Val.toReal v) }

theorem OrderAnswer.nonempty (a b : Val) : Nonempty (OrderAnswer a b) := by
  classical exact ⟨⟨decide (Val.toReal a < Val.toReal b), decide_eq_true_iff⟩⟩

theorem EncodingAnswer.nonempty (v : Val) : Nonempty (EncodingAnswer v) := ⟨⟨_, rfl⟩⟩

/-- The order of `NUM_REAL` itself (rule R9), by what it is: `exactLt_iff`. -/
@[irreducible] def exactLt (a b : Val) : Bool :=
  (@someElement (Val × Val) (OrderAnswer a b) (OrderAnswer.nonempty a b) (a, b)).val

/-- The port encoding of `NUM_REAL` itself (rule R10), by what it is: `exactEnc32_eq`. -/
@[irreducible] def exactEnc32 (v : Val) : U32 :=
  (@someElement Val (EncodingAnswer v) (EncodingAnswer.nonempty v) v).val

theorem exactLt_iff (a b : Val) : exactLt a b = true ↔ Val.toReal a < Val.toReal b := by
  unfold exactLt
  exact (@someElement (Val × Val) (OrderAnswer a b) (OrderAnswer.nonempty a b) (a, b)).property

theorem exactEnc32_eq (v : Val) :
    exactEnc32 v = encReal (Config.underflowSign v) (Val.toReal v) := by
  unfold exactEnc32
  exact (@someElement Val (EncodingAnswer v) (EncodingAnswer.nonempty v) v).property

/-- The interval holds the real number. -/
def Interval.Holds (i : Interval) (x : ℝ) : Prop :=
  (i.lo : ℝ) ≤ x * (fixedScale : ℝ) ∧ x * (fixedScale : ℝ) ≤ (i.hi : ℝ)

/-- The real number a sum of sines is. -/
noncomputable def SineSum.toReal (l : SineSum) : ℝ :=
  (l.map fun t => (t.2 : ℝ) * Real.sin ((t.1 : ℝ) * Real.pi)).sum

/-- Every angle of the sum lies from 0 to a quarter turn. -/
def SineSum.Proper (l : SineSum) : Prop := ∀ t ∈ l, 0 ≤ t.1 ∧ t.1 ≤ 1 / 2

/-- The enclosure says something true of the real number. -/
def Enclosure.Holds (e : Enclosure) (x : ℝ) : Prop :=
  match e with
  | .exact up down l => l.Proper ∧ x = Real.pi ^ up / Real.pi ^ down * l.toReal
  | .within i => i.Holds x
  | .unknown => True

end Sys2Proof.Machine
end

