-- ==== Sys2Proof/Machine/Numerics.lean ====
section
/-!
DEFINITION. The numerics record an instance computes with (rules R7, R9, R10): the comparisons of
values and the port encoding. The arithmetic needs no record: a value is the operations that made it
(`Val`), and only a comparison or a port encoding asks what it comes to.
-/

namespace Sys2Proof.Machine

/-- What the rules ask of a numerics record about values (rule R9): the strict order and `enc32`. -/
structure Num where
  lt : Val → Val → Bool
  enc32 : Val → U32

/-- `a ≤ b` in the total order of rule R9. -/
def Num.le (N : Num) (a b : Val) : Bool := !N.lt b a

/-- `a = b` in the total order of rule R9. -/
def Num.eq (N : Num) (a b : Val) : Bool := !N.lt a b && !N.lt b a

/-- The order of the reference record `NUM_REAL` (rule R9): the order of the real numbers. The
evaluator answers where it separates the two values, and the order by its definition elsewhere (log
4). -/
def ltReal (a b : Val) : Bool :=
  match (evaluate (.sub a b)).sign? with
  | some s => decide (s < 0)
  | none => exactLt a b

/-- The port encoding of an interval: the pattern of all its numbers, where they have one. -/
def encInterval? (i : Interval) : Option U32 :=
  if 0 < i.lo ∨ i.hi < 0 then
    let l := encRat false (mkRat i.lo fixedScale.toNat)
    let h := encRat false (mkRat i.hi fixedScale.toNat)
    if l = h then some l else none
  else none

/-- The port encoding of a value that is not a rational number, as far as the evaluator settles it. -/
def encEvaluated (e : Enclosure) : Option U32 := e.toInterval.bind encInterval?

/-- The port encoding of the reference record `NUM_REAL` (rules R9, R10): the pattern of the real
number. The evaluator answers where it finds the pattern, and the encoding by its definition elsewhere
(log 4). -/
def enc32Real (v : Val) : U32 :=
  let e := evaluate v
  match e.toRat? with
  | some q => encRat (Config.underflowSign v) q
  | none => (encEvaluated e).getD (exactEnc32 v)

/-- The total order of the values of a record the spec leaves OPEN (rule R9). -/
def placeLt (a b : Place) : Bool :=
  decide (a.base < b.base) || (decide (a.base = b.base) && decide (a.offset < b.offset))

/-- The place of a decoded pattern (rule R10). -/
def placeOfRat (q : Rat) : Place := { base := q, offset := 0 }

/-- `atan2` of the record number `n`: 0 at the origin, and above `−π` and at most `π` elsewhere (rule
R9); where the uninterpreted operation is outside that range, `π`. -/
def otherAtan2 (n : Nat) (y x : Place) : Place :=
  if y = placeOfRat 0 ∧ x = placeOfRat 0 then placeOfRat 0
  else
    let r := Config.otherBinary n .atan2 y x
    let p := Config.otherPi n
    if placeLt (Config.otherUnary n .neg p) r && !placeLt p r then r else p

/-- The value of a term in the record number `n`: the record's operations applied in the order the rules
write them, each to its operands alone (rule R9). -/
def placeOf (n : Nat) : Val → Place
  | .lit q => placeOfRat q
  | .ofInt z => Config.otherOfInt n z
  | .pi => Config.otherPi n
  | .add a b => Config.otherBinary n .add (placeOf n a) (placeOf n b)
  | .sub a b => Config.otherBinary n .sub (placeOf n a) (placeOf n b)
  | .mul a b => Config.otherBinary n .mul (placeOf n a) (placeOf n b)
  | .div a b => Config.otherBinary n .div (placeOf n a) (placeOf n b)
  | .neg a => Config.otherUnary n .neg (placeOf n a)
  | .abs a => Config.otherUnary n .abs (placeOf n a)
  | .sqrt a => Config.otherUnary n .sqrt (placeOf n a)
  | .sin a => Config.otherUnary n .sin (placeOf n a)
  | .cos a => Config.otherUnary n .cos (placeOf n a)
  | .atan2 y x => otherAtan2 n (placeOf n y) (placeOf n x)
  | .cosPhase p => Config.otherCosPhase n p
  | .sinPhase p => Config.otherSinPhase n p

/-- The order of the instance's numerics record. On two decoded patterns every record has the order of
the rational numbers they stand for (rules R9, R10; log 3). -/
def numLt (n : NumSel) (a b : Val) : Bool :=
  match a, b with
  | .lit p, .lit q => decide (p < q)
  | a, b =>
    match n with
    | .real => ltReal a b
    | .other k => placeLt (placeOf k a) (placeOf k b)

/-- `enc32` of a record the spec leaves OPEN: on a decoded value the encoding of rule R10 (log 3). -/
def otherEnc32 (n : Nat) (v : Val) : U32 :=
  let p := placeOf n v
  if p.offset = 0 then encRat (Config.underflowSign v) p.base else Config.otherEnc32 n p

/-- `enc32` of the instance's numerics record. On a decoded pattern every record has the encoding of
rule R10 of the rational number it stands for (log 3). -/
def numEnc32 (n : NumSel) (v : Val) : U32 :=
  match v with
  | .lit q => encRat (Config.underflowSign v) q
  | v =>
    match n with
    | .real => enc32Real v
    | .other k => otherEnc32 k v

/-- The numerics record a selector names (rules R7, R9). -/
def numOf (n : NumSel) : Num := { lt := numLt n, enc32 := numEnc32 n }

/-- The record's order and encoding are those of the real numbers the values are (`NUM_REAL`, rules R9,
R10). -/
def Num.IsReal (N : Num) : Prop :=
  (∀ a b, N.lt a b = true ↔ Val.toReal a < Val.toReal b) ∧
    ∀ v, N.enc32 v = encReal (Config.underflowSign v) (Val.toReal v)

/-- The next value of `DATA_DETECT` by the instance's `LOCKNEXT` (rule R196). -/
def lockNext (l : LockSel) (dd tr : Bool) (a : Int) (emitted : Bool) : Bool :=
  match l with
  | .hold => dd
  | .other k => Config.otherLockNext k dd tr a emitted


end Sys2Proof.Machine

namespace Sys2Proof

/-- The ranges rule R7 gives the parameters: `MAXTAPS` and `MAXFRAME` from 1 to 65535, `NORM_EPS` and
`SING_EPS` at least 0 in the order of the instance's `NUM`. -/
abbrev Params.Valid (p : Params) : Prop :=
  1 ≤ p.maxTaps ∧ p.maxTaps ≤ 65535 ∧ 1 ≤ p.maxFrame ∧ p.maxFrame ≤ 65535 ∧
    (Machine.numOf p.num).le .zero p.normEps = true ∧
    (Machine.numOf p.num).le .zero p.singEps = true

end Sys2Proof
end

