-- ==== Sys2Proof/Machine/Operands.lean ====
section
/-!
DEFINITION. The operands: the register map (rules R24 to R29, R45, R47), bank numbers (rule R105 step
4), and reading and writing a configuration register by name (rules R11, R30).
-/

namespace Sys2Proof.Machine

/-- The writable registers (rules R24 to R29). -/
inductive CfgReg where
  | sampleRate | symbolRate | markFreq | spaceFreq | profile | demodCtrl
  | agcAttack | agcDecay | pllLockedInertia | pllSearchInertia | frameMin | frameMax
  | fsKind (b : Ix) | fsTaps (b : Ix) | fsF1 (b : Ix) | fsF2 (b : Ix)
  | fsWindow (b : Ix) | fsRolloff (b : Ix) | fsSps (b : Ix)
  | coefLen (b : Ix)
deriving DecidableEq, Repr

/-- The read-only registers (rule R45). -/
inductive RoReg where
  | mode | status
  | oscPhase (t : Ix) | oscInc (t : Ix)
  | pllAcc | pllStep | dfRegs | frameLen | slotLen | discScale
  | agcPeak (t : Ix) | agcValley (t : Ix)
  | prevPhase | id | hwMaxtaps | hwMaxframe
deriving DecidableEq, Repr

/-- An implemented register (rules R24 to R29, R45). -/
inductive Reg where
  | cfg (r : CfgReg)
  | ro (r : RoReg)
deriving DecidableEq, Repr

/-- The register map (rules R24 to R29, R45). -/
def regMap : List (U8 × Reg) :=
  [(0x00#8, .cfg .sampleRate), (0x01#8, .cfg .symbolRate), (0x02#8, .cfg .markFreq),
   (0x03#8, .cfg .spaceFreq), (0x04#8, .cfg .profile), (0x05#8, .cfg .demodCtrl),
   (0x06#8, .cfg .agcAttack), (0x07#8, .cfg .agcDecay), (0x08#8, .cfg .pllLockedInertia),
   (0x09#8, .cfg .pllSearchInertia), (0x0A#8, .cfg .frameMin), (0x0B#8, .cfg .frameMax)] ++
  [(0x10#8, .cfg (.fsKind .i0)), (0x11#8, .cfg (.fsTaps .i0)), (0x12#8, .cfg (.fsF1 .i0)),
   (0x13#8, .cfg (.fsF2 .i0)), (0x14#8, .cfg (.fsWindow .i0)), (0x15#8, .cfg (.fsRolloff .i0)),
   (0x16#8, .cfg (.fsSps .i0))] ++
  [(0x18#8, .cfg (.fsKind .i1)), (0x19#8, .cfg (.fsTaps .i1)), (0x1A#8, .cfg (.fsF1 .i1)),
   (0x1B#8, .cfg (.fsF2 .i1)), (0x1C#8, .cfg (.fsWindow .i1)), (0x1D#8, .cfg (.fsRolloff .i1)),
   (0x1E#8, .cfg (.fsSps .i1))] ++
  [(0x20#8, .cfg (.coefLen .i0)), (0x21#8, .cfg (.coefLen .i1))] ++
  [(0x80#8, .ro .mode), (0x81#8, .ro .status), (0x82#8, .ro (.oscPhase .i0)),
   (0x83#8, .ro (.oscPhase .i1)), (0x84#8, .ro (.oscInc .i0)), (0x85#8, .ro (.oscInc .i1)),
   (0x86#8, .ro .pllAcc), (0x87#8, .ro .pllStep), (0x88#8, .ro .dfRegs),
   (0x89#8, .ro .frameLen), (0x8A#8, .ro .slotLen), (0x8B#8, .ro .discScale),
   (0x8C#8, .ro (.agcPeak .i0)), (0x8D#8, .ro (.agcValley .i0)),
   (0x8E#8, .ro (.agcPeak .i1)), (0x8F#8, .ro (.agcValley .i1)), (0x90#8, .ro .prevPhase)] ++
  [(0xF0#8, .ro .id), (0xF1#8, .ro .hwMaxtaps), (0xF2#8, .ro .hwMaxframe)]

/-- The register a number names, none for an unimplemented one (rule R47). -/
def regOf (sel : U8) : Option Reg := (regMap.find? fun e => e.1 == sel).map (·.2)

/-- The writable register a number names, none for a read-only or unimplemented one (rules R45, R47,
R243). -/
def writableOf (sel : U8) : Option CfgReg :=
  match regOf sel with
  | some (.cfg r) => some r
  | some (.ro _) => none
  | none => none

/-- The bank a `sel` field names, none for a number above 1 (rules R74, R105 step 4). -/
def bankOf (sel : U8) : Option Ix :=
  if sel = 0#8 then some .i0 else if sel = 1#8 then some .i1 else none

/-- The content of a configuration register (rules R11, R30). -/
def Cfg.get (c : Cfg) (r : CfgReg) : U32 :=
  match r with
  | .sampleRate => c.sampleRate
  | .symbolRate => c.symbolRate
  | .markFreq => c.markFreq
  | .spaceFreq => c.spaceFreq
  | .profile => c.profile
  | .demodCtrl => c.demodCtrl
  | .agcAttack => c.agcAttack
  | .agcDecay => c.agcDecay
  | .pllLockedInertia => c.pllLockedInertia
  | .pllSearchInertia => c.pllSearchInertia
  | .frameMin => c.frameMin
  | .frameMax => c.frameMax
  | .fsKind b => (c.spec.get b).kind
  | .fsTaps b => (c.spec.get b).taps
  | .fsF1 b => (c.spec.get b).f1
  | .fsF2 b => (c.spec.get b).f2
  | .fsWindow b => (c.spec.get b).window
  | .fsRolloff b => (c.spec.get b).rolloff
  | .fsSps b => (c.spec.get b).sps
  | .coefLen b => c.coefLen.get b

/-- The filter specification registers of one bank replaced. -/
def Cfg.setSpec (c : Cfg) (b : Ix) (f : FilterSpec) : Cfg := { c with spec := c.spec.set b f }

/-- A configuration register replaced, its 32 bits verbatim (rules R11, R30). -/
def Cfg.set (c : Cfg) (r : CfgReg) (v : U32) : Cfg :=
  match r with
  | .sampleRate => { c with sampleRate := v }
  | .symbolRate => { c with symbolRate := v }
  | .markFreq => { c with markFreq := v }
  | .spaceFreq => { c with spaceFreq := v }
  | .profile => { c with profile := v }
  | .demodCtrl => { c with demodCtrl := v }
  | .agcAttack => { c with agcAttack := v }
  | .agcDecay => { c with agcDecay := v }
  | .pllLockedInertia => { c with pllLockedInertia := v }
  | .pllSearchInertia => { c with pllSearchInertia := v }
  | .frameMin => { c with frameMin := v }
  | .frameMax => { c with frameMax := v }
  | .fsKind b => c.setSpec b { c.spec.get b with kind := v }
  | .fsTaps b => c.setSpec b { c.spec.get b with taps := v }
  | .fsF1 b => c.setSpec b { c.spec.get b with f1 := v }
  | .fsF2 b => c.setSpec b { c.spec.get b with f2 := v }
  | .fsWindow b => c.setSpec b { c.spec.get b with window := v }
  | .fsRolloff b => c.setSpec b { c.spec.get b with rolloff := v }
  | .fsSps b => c.setSpec b { c.spec.get b with sps := v }
  | .coefLen b => { c with coefLen := c.coefLen.set b v }

/-- `DEMOD_CTRL.PRE_EN`, bit 0 of the register (rules R24, R107). -/
def Cfg.preEnabled (c : Cfg) : Bool := c.demodCtrl.getLsbD 0

/-- The effective tap count `N_b` (rules R29, R33). -/
def Cfg.tapCount (c : Cfg) (b : Ix) : Nat := (c.coefLen.get b).toNat

end Sys2Proof.Machine
end

