-- ==== Sys2Proof/Machine/Ops.lean ====
section
/-!
DEFINITION. The operations the commands share: ending a command with a response or with an error (rules
R11, R260, R261; the core has no trap entry and no return, rules R269, R270), the checks of rule R105,
the storage spaces (rules R70, R74), the history and the convolution (rule R12), and the register read
(rule R45).
-/

namespace Sys2Proof.Machine

/-- The outcome of a command. -/
abbrev Result := Host.Outcome State Fault Refusal

/-- `raise` (rules R11, R261): the response carries the status code alone, and nothing else of the
state changes. -/
def State.raise (s : State) (st : Status) : Result := .next { s with resp := some (.error st) }

/-- `respond` with a payload (rules R11, R102, R111). -/
def State.respondWith (s : State) (fl : U8) (aux : U16) (data : U32) (payload : List Octet) : Result :=
  .next { s with
    resp := some { status := .ok, fl := fl, aux := aux, data := data, payload := payload } }

/-- `respond` (rule R11): status `OK` and the given fields, no payload. -/
def State.respond (s : State) (fl : U8) (aux : U16) (data : U32) : Result :=
  s.respondWith fl aux data []

/-- One check of rule R105: go on where it holds, raise the error where it fails. -/
def State.check (s : State) (holds : Bool) (st : Status) (go : Result) : Result :=
  if holds then go else s.raise st

/-- The check of step 3 of rule R105 for a command allowed in one mode. -/
def State.inMode (s : State) (m : Mode) (go : Result) : Result :=
  s.check (decide (s.mode = m)) .errMode go

/-- The numerics record of the instance (rules R7, R9). -/
def State.num (s : State) : Num := numOf s.params.num

/-- `COEF[b][i]` (rule R11). An index outside the bank is refused before this is reached (rule R74). -/
def Memory.coefAt (m : Memory) (b : Ix) (i : Nat) : Val := (m.coef.get b).getD i .zero

/-- `COEF[b][i] <- v`, one element; outside the bank nothing is written (rules R11, R74). -/
def Memory.setCoef (m : Memory) (b : Ix) (i : Nat) (v : Val) : Memory :=
  { m with coef := m.coef.set b ((m.coef.get b).set i v) }

/-- The form of the storage spaces: every array holds exactly its elements (rule R70). -/
abbrev Memory.wf (m : Memory) (maxTaps maxFrame : Nat) : Prop :=
  (∀ b, (m.coef.get b).length = maxTaps) ∧ m.rawh.length = maxTaps ∧
    (∀ t, (m.ih.get t).length = maxTaps) ∧ (∀ t, (m.qh.get t).length = maxTaps) ∧
    m.frameBuf.length = maxFrame ∧ m.slotBuf.length = maxFrame

/-- `push(H, N, x)` (rule R12): the elements `0 .. N−1` move down one place and the newest goes to
index `N−1`. A history of logical length 0 has no such place and keeps its elements (log 9). -/
def push (h : List Val) (n : Nat) (x : Val) : List Val :=
  match n with
  | 0 => h
  | k + 1 => (h.take (k + 1)).drop 1 ++ x :: h.drop (k + 1)

/-- `conv(C, H, N)` (rule R12): the products of equal index, summed in ascending index from 0. -/
def conv (c h : List Val) (n : Nat) : Val :=
  ((c.zip h).take n).foldl (fun acc p => .add acc (.mul p.1 p.2)) .zero

/-- A sum of values in ascending index from 0 (rules R9, R12). -/
def sumVal (l : List Val) : Val := l.foldl .add .zero

/-- A length or count as the 16-bit `aux` field (rule R102). -/
def auxOf (n : Nat) : U16 := BitVec.ofNat 16 n

/-- What CFGRD returns of a read-only register (rule R45). -/
def State.readRo (s : State) (r : RoReg) : U32 :=
  match r with
  | .mode => 0#31 ++ BitVec.ofBool s.mode.toBool
  | .status => s.statusWord
  | .oscPhase t => s.demod.oscPhase.get t
  | .oscInc t => s.derived.oscInc.get t
  | .pllAcc => s.pll.acc
  | .pllStep => s.derived.pllStep
  | .dfRegs => s.df.packed
  | .frameLen => BitVec.ofNat 32 s.df.frameLen
  | .slotLen => BitVec.ofNat 32 s.df.slotLen
  | .discScale => s.num.enc32 s.derived.discScale
  | .agcPeak t => s.num.enc32 (s.demod.agcPeak.get t)
  | .agcValley t => s.num.enc32 (s.demod.agcValley.get t)
  | .prevPhase => s.num.enc32 s.demod.prevPhase
  | .id => Config.idValue
  | .hwMaxtaps => BitVec.ofNat 32 s.params.maxTaps
  | .hwMaxframe => BitVec.ofNat 32 s.params.maxFrame

/-- `CFG[sel]` of an implemented register (rules R11, R30, R45). -/
def State.readReg (s : State) (r : Reg) : U32 :=
  match r with
  | .cfg r => s.cfg.get r
  | .ro r => s.readRo r

/-- Rounding half up of the quotient of two naturals (rule R8). -/
def roundHalfUp (a b : Nat) : Nat := (2 * a + b) / (2 * b)

end Sys2Proof.Machine
end

