-- ==== Sys2Proof/Machine/FilterDesign.lean ====
section
/-!
DEFINITION. The filter designer and the coefficient banks: FDGEN, COEFWR, COEFRD (rules R130 to R143).
-/

namespace Sys2Proof.Machine

/-- `normTaps(n)` (rule R131): the effective tap count and whether it was clamped. -/
def normTaps (maxTaps : Nat) (n : U32) : Nat × Bool :=
  let n1 := (n ||| 1#32).toNat
  if n1 ≤ maxTaps then (n1, false)
  else (if maxTaps % 2 = 1 then maxTaps else maxTaps - 1, true)

/-- The distance of index `i` from the centre tap, `i − (N−1)/2` (rules R132, R135). -/
def fromCentre (n i : Nat) : Int := (i : Int) - ((n - 1) / 2 : Nat)

/-- `window(kind, size, index)` (rule R132): kind 0 is Truncated, kind 1 Cosine. -/
def window (kind : U32) (n i : Nat) : Val :=
  if kind = 0#32 then .one
  else .cos (.div (.mul .pi (.ofInt (fromCentre n i))) (.ofInt n))

/-- The un-normalised low-pass kernel away from the centre, `sin(2π·fc·k)/(π·k)` (rule R135). -/
def sincKernel (fc : Val) (k : Int) : Val :=
  .div (.sin (.mul (.mul (.mul .two .pi) fc) (.ofInt k))) (.mul .pi (.ofInt k))

/-- `raw[i]` of the low-pass (rule R135). -/
def lowpassRaw (fc : Val) (k : Int) : Val := if k = 0 then .mul .two fc else sincKernel fc k

/-- `raw[i]` of the band-pass (rule R136). -/
def bandpassRaw (f1 f2 : Val) (k : Int) : Val :=
  if k = 0 then .sub (.mul .two f2) (.mul .two f1) else .sub (sincKernel f2 k) (sincKernel f1 k)

/-- A value for every index of a filter of `n` taps, in ascending index. -/
def taps (n : Nat) (f : Nat → Val) : List Val := (List.range n).map f

/-- The weights `w` divided by the divisor, or a bank of zeros where the divisor is near zero (rule
R138); with it, whether it was. -/
def normalise (N : Num) (eps : Val) (divisor : Val) (w : List Val) : List Val × Bool :=
  if N.le (.abs divisor) eps then (w.map fun _ => .zero, true)
  else (w.map fun x => .div x divisor, false)

/-- `w[i]` of the low-pass (rule R135). -/
def lowpassWeights (fc : Val) (n : Nat) (wk : U32) : List Val :=
  taps n fun i => .mul (lowpassRaw fc (fromCentre n i)) (window wk n i)

/-- `lowpass(fc, N, wk)` (rule R135). -/
def lowpass (N : Num) (eps fc : Val) (n : Nat) (wk : U32) : List Val × Bool :=
  let w := lowpassWeights fc n wk
  normalise N eps (sumVal w) w

/-- `w[i]` of the band-pass (rule R136). -/
def bandpassWeights (f1 f2 : Val) (n : Nat) (wk : U32) : List Val :=
  taps n fun i => .mul (bandpassRaw f1 f2 (fromCentre n i)) (window wk n i)

/-- `cos(2·π·fcen·(i − c))`, the weight of tap `i` in the response at the band's centre (rule R136). -/
def centreCosine (f1 f2 : Val) (n i : Nat) : Val :=
  .cos (.mul (.mul (.mul .two .pi) (.div (.add f1 f2) .two)) (.ofInt (fromCentre n i)))

/-- `G`, the response of the weights at the band's centre frequency (rule R136). -/
def bandpassGain (f1 f2 : Val) (n : Nat) (w : List Val) : Val :=
  sumVal (w.zipWith Val.mul (taps n (centreCosine f1 f2 n)))

/-- `bandpass(f1, f2, N, wk)` (rule R136). -/
def bandpass (N : Num) (eps f1 f2 : Val) (n : Nat) (wk : U32) : List Val × Bool :=
  let w := bandpassWeights f1 f2 n wk
  normalise N eps (bandpassGain f1 f2 n w) w

/-- The default pulse (rule R141). -/
def pulseRaisedCosine (N : Num) (eps t a : Val) : Val :=
  if N.le (.abs t) eps then .one
  else
    let pit : Val := .mul .pi t
    let s : Val := .div (.sin pit) pit
    let x : Val := .mul (.mul .two a) t
    if N.le (.abs (.sub (.abs x) .one)) eps then .mul s (.div .pi (.ofInt 4))
    else .div (.mul s (.cos (.mul (.mul .pi a) t))) (.sub .one (.mul x x))

/-- The textbook root pulse `PULSE_ROOT` (rule R141). -/
def pulseRoot (N : Num) (eps t a : Val) : Val :=
  let four : Val := .ofInt 4
  let x : Val := .mul (.mul four a) t
  if N.eq t .zero then .add (.sub .one a) (.div (.mul four a) .pi)
  else if N.lt .zero a && N.le (.abs (.sub (.abs x) .one)) eps then
    let q : Val := .div .pi (.mul four a)
    .mul (.div a (.sqrt .two))
      (.add (.mul (.add .one (.div .two .pi)) (.sin q))
        (.mul (.sub .one (.div .two .pi)) (.cos q)))
  else
    let pit : Val := .mul .pi t
    .div
      (.add (.sin (.mul pit (.sub .one a))) (.mul x (.cos (.mul pit (.add .one a)))))
      (.mul pit (.sub .one (.mul x x)))

/-- `PULSE` of the instance (rules R7, R141). -/
def pulse (N : Num) (p : Params) (t a : Val) : Val :=
  match p.pulse with
  | .raisedCosine => pulseRaisedCosine N p.singEps t a
  | .root => pulseRoot N p.singEps t a
  | .other k => Config.otherPulse k t a

/-- `w[i]` of the root-raised-cosine (rule R137). -/
def rrcWeights (N : Num) (p : Params) (n : Nat) (a sps : Val) : List Val :=
  taps n fun i => pulse N p (.div (.ofInt (fromCentre n i)) sps) a

/-- `rrc(N, α, sps)` (rule R137). -/
def rrc (N : Num) (p : Params) (n : Nat) (a sps : Val) : List Val × Bool :=
  let w := rrcWeights N p n a sps
  normalise N p.normEps (sumVal w) w

/-- A cut-off register that FDGEN accepts: a value `v` with `0 < v < 1/2` (rule R134). -/
def cutoffValid (N : Num) (b : U32) : Bool :=
  match dec32 b with
  | none => false
  | some v => N.lt .zero v && N.lt v .half

/-- A roll-off register that FDGEN accepts: a value `v` with `0 ≤ v ≤ 1` (rule R134). -/
def unitValid (N : Num) (b : U32) : Bool :=
  match dec32 b with
  | none => false
  | some v => N.le .zero v && N.le v .one

/-- A samples-per-symbol register that FDGEN accepts: a value above 0 (rule R134). -/
def positiveValid (N : Num) (b : U32) : Bool :=
  match dec32 b with
  | none => false
  | some v => N.lt .zero v

/-- A window register that FDGEN accepts (rule R134). -/
def windowValid (b : U32) : Bool := b == 0#32 || b == 1#32

/-- `specValid(b)` (rule R134). -/
def specValid (N : Num) (f : FilterSpec) : Bool :=
  if f.kind = 0#32 then cutoffValid N f.f1 && windowValid f.window
  else if f.kind = 1#32 then cutoffValid N f.f1 && cutoffValid N f.f2 && windowValid f.window
  else if f.kind = 2#32 then unitValid N f.rolloff && positiveValid N f.sps
  else false

/-- The filter a valid specification asks for, of `n` taps (rule R133). -/
def designFilter (N : Num) (p : Params) (f : FilterSpec) (n : Nat) : List Val × Bool :=
  if f.kind = 0#32 then lowpass N p.normEps (valOf f.f1) n f.window
  else if f.kind = 1#32 then bandpass N p.normEps (valOf f.f1) (valOf f.f2) n f.window
  else rrc N p n (valOf f.rolloff) (valOf f.sps)

/-- `writeBank(b, N, h)` (rule R143): the filter, zeros above it, and the length. -/
def State.writeBank (s : State) (b : Ix) (n : Nat) (h : List Val) : State :=
  { s with
    mem := { s.mem with
      coef := s.mem.coef.set b
        ((List.range s.params.maxTaps).map fun i => if i < n then h.getD i .zero else .zero) }
    cfg := { s.cfg with coefLen := s.cfg.coefLen.set b (BitVec.ofNat 32 n) } }

/-- FDGEN after its checks (rule R133). -/
def State.generate (s : State) (b : Ix) : Result :=
  let spec := s.cfg.spec.get b
  let (n, clamp) := normTaps s.params.maxTaps spec.taps
  let (h, degen) := designFilter s.num s.params spec n
  (s.writeBank b n h).respond (warningFlags clamp degen) (auxOf n) 0#32

/-- FDGEN (rule R133). -/
def execFdgen (sel : U8) (s : State) : Result :=
  s.inMode .config <|
    match bankOf sel with
    | none => s.raise .errSel
    | some b => s.check (specValid s.num (s.cfg.spec.get b)) .errCfgSpec (s.generate b)

/-- COEFWR (rule R139). -/
def execCoefwr (sel : U8) (idx : U16) (data : U32) (s : State) : Result :=
  s.inMode .config <|
    match bankOf sel with
    | none => s.raise .errSel
    | some b =>
      s.check (decide (idx.toNat < s.params.maxTaps)) .errIndex <|
        match dec32 data with
        | none => s.raise .errOperand
        | some v =>
          State.respond { s with mem := s.mem.setCoef b idx.toNat v } 0#8 0#16 0#32

/-- COEFRD (rule R140). -/
def execCoefrd (sel : U8) (idx : U16) (s : State) : Result :=
  match bankOf sel with
  | none => s.raise .errSel
  | some b =>
    s.check (decide (idx.toNat < s.params.maxTaps)) .errIndex <|
      s.respond 0#8 0#16 (s.num.enc32 (s.mem.coefAt b idx.toNat))

end Sys2Proof.Machine
end

