-- ==== Sys2Proof/Machine/Control.lean ====
section
/-!
DEFINITION. Control and configuration: RESET, START, CFGWR, CFGRD (rules R240 to R245).
-/

namespace Sys2Proof.Machine

/-- RESET (rule R240): every state element at its reset value. The instance's parameters are constants
(rule R46), and the commands the host has already presented are its own (rule R13). -/
def execReset (s : State) : Result :=
  State.respond { State.resetOf s.params with cmds := s.cmds } 0#8 0#16 0#32

/-- A frequency or rate that START refuses: 0, or not below half the sample rate (rule R241). -/
def rateBad (v fs : U32) : Bool := v.toNat == 0 || decide (fs.toNat ≤ 2 * v.toNat)

/-- An AGC coefficient that START refuses: not a value, or not from 0 to 1 (rules R25, R241). -/
def agcBad (N : Num) (b : U32) : Bool :=
  match dec32 b with
  | none => true
  | some v => !(N.le .zero v && N.le v .one)

/-- The first of the nine lines of rule R241 that fails, as its status. -/
def startError (N : Num) (maxFrame : Nat) (c : Cfg) : Option Status :=
  if c.sampleRate.toNat = 0 then some .errCfgRate
  else if rateBad c.symbolRate c.sampleRate then some .errCfgRate
  else if rateBad c.markFreq c.sampleRate || rateBad c.spaceFreq c.sampleRate then some .errCfgTone
  else if c.profile ≠ 0#32 ∧ c.profile ≠ 1#32 then some .errCfgProfile
  else if c.profile = 1#32 ∧ c.markFreq = c.spaceFreq then some .errCfgTone
  else if (c.preEnabled = true ∧ c.tapCount .i0 = 0) ∨ c.tapCount .i1 = 0 then some .errCfgFilter
  else if c.profile = 0#32 ∧ (agcBad N c.agcAttack || agcBad N c.agcDecay) then some .errCfgRange
  else if 65536 < c.pllLockedInertia.toNat ∨ 65536 < c.pllSearchInertia.toNat then
    some .errCfgRange
  else if ¬(1 ≤ c.frameMin.toNat ∧ c.frameMin.toNat ≤ c.frameMax.toNat ∧
      c.frameMax.toNat ≤ maxFrame) then some .errCfgFrame
  else none

/-- `round_half_up(2^32 · f / fs)` (rule R242). -/
def increment (f fs : U32) : U32 := BitVec.ofNat 32 (roundHalfUp (2 ^ 32 * f.toNat) fs.toNat)

/-- `round_half_up(2^31 · (mark + space) / fs)`, the increment of the mid-point (rule R242). -/
def centreIncrement (mark space fs : U32) : U32 :=
  BitVec.ofNat 32 (roundHalfUp (2 ^ 31 * (mark.toNat + space.toNat)) fs.toNat)

/-- `1 / ((1/2) · |mark − space| · 2 · π / fs)` (rules R168, R242). -/
def discScaleOf (mark space fs : U32) : Val :=
  let deviation : Nat := ((mark.toNat : Int) - (space.toNat : Int)).natAbs
  .div .one
    (.div (.mul (.mul (.mul .half (.ofInt deviation)) .two) .pi) (.ofInt fs.toNat))

/-- The derived constants of a successful START (rule R242). -/
def deriveConstants (c : Cfg) : Derived :=
  if c.profile = 0#32 then
    { pllStep := increment c.symbolRate c.sampleRate
      oscInc := ⟨increment c.markFreq c.sampleRate, increment c.spaceFreq c.sampleRate⟩
      discScale := .zero }
  else
    { pllStep := increment c.symbolRate c.sampleRate
      oscInc := ⟨centreIncrement c.markFreq c.spaceFreq c.sampleRate, 0#32⟩
      discScale := discScaleOf c.markFreq c.spaceFreq c.sampleRate }

/-- START (rules R241, R242). -/
def execStart (s : State) : Result :=
  s.inMode .config <|
    match startError s.num s.params.maxFrame s.cfg with
    | some e => s.raise e
    | none =>
      State.respond { s with derived := deriveConstants s.cfg, mode := .run } 0#8 0#16 0#32

/-- CFGWR (rule R243). -/
def execCfgwr (sel : U8) (data : U32) (s : State) : Result :=
  s.inMode .config <|
    match writableOf sel with
    | none => s.raise .errSel
    | some (.coefLen b) =>
      let (n, clamp) := normTaps s.params.maxTaps data
      State.respond { s with cfg := s.cfg.set (.coefLen b) (BitVec.ofNat 32 n) }
        (bit0Flag clamp) (auxOf n) 0#32
    | some r => State.respond { s with cfg := s.cfg.set r data } 0#8 0#16 0#32

/-- CFGRD (rule R244). -/
def execCfgrd (sel : U8) (s : State) : Result :=
  match regOf sel with
  | none => s.raise .errSel
  | some r => s.respond 0#8 0#16 (s.readReg r)

end Sys2Proof.Machine
end

