-- ==== Sys2Proof/Machine/Deframer.lean ====
section
/-!
DEFINITION. The frame deframer: the deframer step, BITIN, FRAMERD (rules R210 to R223).
-/

namespace Sys2Proof.Machine

/-- The reserved flag pattern `01111110` (rule R213). -/
def flagPattern : Octet := 0x7E#8

/-- Shift right by one and insert a bit at bit 7 (rules R212, R215). -/
def shiftIn (r : Octet) (d : Bool) : Octet := (r >>> 1) ||| (if d then 0x80#8 else 0#8)

/-- NRZI decode (rule R211): 1 where the raw bit equals the previous one. -/
def nrzi (bit prev : Bool) : Bool := bit == prev

/-- The flag pattern was recognised (rule R213). -/
def Deframer.atFlag (d : Deframer) : Deframer :=
  { d with octetAcc := 0#8, bitsInOctet := 0#3, frameLen := 0, overflow := false
           dfState := .filling }

/-- An octet is complete while the frame has its maximum length: it is dropped and the slot is
invalidated (rule R217). -/
def State.dropOctet (s : State) : State :=
  { s with df := { s.df with overflow := true, slotValid := false, slotLen := 0 } }

/-- The octet appended to the frame (rule R216). -/
def State.appendOctet (s : State) (o : Octet) : State :=
  { s with
    mem := { s.mem with frameBuf := s.mem.frameBuf.set s.df.frameLen o }
    df := { s.df with frameLen := s.df.frameLen + 1 } }

/-- The frame so far copied into the slot; octets of the slot above its length stay (rule R216). -/
def State.writeSlot (s : State) : State :=
  { s with
    mem := { s.mem with
      slotBuf := s.mem.frameBuf.take s.df.frameLen ++ s.mem.slotBuf.drop s.df.frameLen }
    df := { s.df with slotLen := s.df.frameLen, slotValid := true } }

/-- What follows a completed octet (rules R216, R217). `d` is the decoded bit. -/
def octetDone (d : Bool) (s : State) : State × DfEvent :=
  if s.df.frameLen < s.cfg.frameMax.toNat then
    let s := s.appendOctet s.df.octetAcc
    if s.cfg.frameMin.toNat ≤ s.df.frameLen then
      (s.writeSlot, { db := d, flg := false, fe := true, ovf := false })
    else (s, { db := d, flg := false, fe := false, ovf := false })
  else (s.dropOctet, { db := d, flg := false, fe := false, ovf := true })

/-- Octet accumulation in state Filling (rule R215). -/
def accumulate (d : Bool) (s : State) : State × DfEvent :=
  let acc := shiftIn s.df.octetAcc d
  if s.df.bitsInOctet.toNat < 7 then
    ({ s with df := { s.df with octetAcc := acc, bitsInOctet := s.df.bitsInOctet + 1#3 } },
      { db := d, flg := false, fe := false, ovf := false })
  else octetDone d { s with df := { s.df with octetAcc := acc, bitsInOctet := 0#3 } }

/-- The NRZI decode and the pattern detector, which every step does first (rules R211, R212). -/
def State.detect (s : State) (bit : Bool) : State :=
  { s with df := { s.df with
    prevRaw := bit, shiftReg := shiftIn s.df.shiftReg (nrzi bit s.df.prevRaw) } }

/-- `dfStep(bit)` (rule R210). -/
def dfStep (bit : Bool) (s : State) : State × DfEvent :=
  let d := nrzi bit s.df.prevRaw
  let s := s.detect bit
  if s.df.shiftReg = flagPattern then
    ({ s with df := s.df.atFlag }, { db := d, flg := true, fe := false, ovf := false })
  else
    match s.df.dfState with
    | .hunting => (s, { db := d, flg := false, fe := false, ovf := false })
    | .filling => accumulate d s

/-- The response of a data-path command (rules R112, R169). -/
def State.respondData (s : State) (ev : DataEvent) (data : U32) : Result :=
  s.respond (dataFlags ev s.df.slotValid) (auxOf s.df.frameLen) data

/-- BITIN (rule R219). -/
def execBitin (bit : Bool) (s : State) : Result :=
  s.inMode .run <|
    let (s', ev) := dfStep bit s
    s'.respondData { bv := true, b := bit, tr := false, df := ev } 0#32

/-- FRAMERD (rule R220): read and clear. -/
def execFramerd (s : State) : Result :=
  if s.df.slotValid then
    State.respondWith { s with df := { s.df with slotValid := false, slotLen := 0 } }
      (bit0Flag true) (auxOf s.df.slotLen) 0#32 (s.mem.slotBuf.take s.df.slotLen)
  else s.respond 0#8 0#16 0#32

end Sys2Proof.Machine
end

