-- ==== Sys2Proof/Machine/Pll.lean ====
section
/-!
DEFINITION. The clock recovery PLL: the PLL step, DEMODIN, SETDD (rules R190 to R200).
-/

namespace Sys2Proof.Machine

/-- The nudge (rule R194): the accumulator, read as signed, times `K/65536`, truncated toward zero. -/
def nudge (acc k : U32) : U32 := BitVec.ofInt 32 ((acc.toInt * (k.toNat : Int)).tdiv 65536)

/-- The inertia register a transition uses (rules R39, R190). -/
def State.inertia (s : State) : U32 :=
  if s.pll.dataDetect then s.cfg.pllLockedInertia else s.cfg.pllSearchInertia

/-- The bit decision and the sign compared at a transition, `d > 0` (rules R190, R193). -/
def positive (N : Num) (d : Val) : Bool := N.lt .zero d

/-- A step of the accumulator from `prev` to `acc1` passes from non-negative to negative (rule
R192). -/
def wraps (prev acc1 : U32) : Bool := decide (0 ≤ prev.toInt) && decide (acc1.toInt < 0)

/-- `pllStep(d)` for a value whose bit decision is `sign` (rules R190 to R196). -/
def pllStepSign (sign : Bool) (s : State) : State × DataEvent :=
  let acc1 := s.pll.acc + s.derived.pllStep
  let emitted := wraps s.pll.acc acc1
  let tr := sign != s.pll.prevSign
  let acc2 := if tr then nudge acc1 s.inertia else acc1
  let s1 : State := { s with pll :=
    { acc := acc2, prevSign := sign
      dataDetect := lockNext s.params.lockNext s.pll.dataDetect tr acc1.toInt emitted } }
  if emitted then
    let (s2, ev) := dfStep sign s1
    (s2, { bv := true, b := sign, tr := tr, df := ev })
  else (s1, { bv := false, b := false, tr := tr, df := .none })

/-- `pllStep(d)` (rule R190). -/
def pllStep (d : Val) (s : State) : State × DataEvent := pllStepSign (positive s.num d) s

/-- DEMODIN (rule R197). -/
def execDemodin (data : U32) (s : State) : Result :=
  s.inMode .run <|
    match dec32 data with
    | none => s.raise .errOperand
    | some d =>
      let (s', ev) := pllStep d s
      s'.respondData ev data

/-- SETDD (rule R198). -/
def execSetdd (bit : Bool) (s : State) : Result :=
  s.inMode .run <|
    State.respond { s with pll := { s.pll with dataDetect := bit } } 0#8 0#16 0#32

end Sys2Proof.Machine
end

