-- ==== Sys2Proof/Machine/Demodulator.lean ====
section
/-!
DEFINITION. The tone demodulator: SAMPLE (rules R160 to R173).
-/

namespace Sys2Proof.Machine

/-- The pre-filter (rule R162). -/
def prefilter (x : Val) (s : State) : State × Val :=
  if s.cfg.preEnabled then
    let h := push s.mem.rawh (s.cfg.tapCount .i0) x
    ({ s with mem := { s.mem with rawh := h } },
      conv (s.mem.coef.get .i0) h (s.cfg.tapCount .i0))
  else (s, x)

/-- The mixer products pushed into the histories of oscillator `t` (rule R163). -/
def State.pushMix (s : State) (t : Ix) (xf : Val) : State :=
  let p := s.demod.oscPhase.get t
  let n := s.cfg.tapCount .i1
  { s with mem := { s.mem with
    ih := s.mem.ih.set t (push (s.mem.ih.get t) n (.mul xf (.cosPhase p)))
    qh := s.mem.qh.set t (push (s.mem.qh.get t) n (.mul xf (.sinPhase p))) } }

/-- The in-phase component of oscillator `t` (rule R163). -/
def State.inPhase (s : State) (t : Ix) : Val :=
  conv (s.mem.coef.get .i1) (s.mem.ih.get t) (s.cfg.tapCount .i1)

/-- The quadrature component of oscillator `t` (rule R163). -/
def State.quadrature (s : State) (t : Ix) : Val :=
  conv (s.mem.coef.get .i1) (s.mem.qh.get t) (s.cfg.tapCount .i1)

/-- `mix(t, xf)` (rule R163). -/
def mix (t : Ix) (xf : Val) (s : State) : State × Val × Val :=
  let s := s.pushMix t xf
  (s, s.inPhase t, s.quadrature t)

/-- `advance(t)` (rule R164). -/
def State.advance (s : State) (t : Ix) : State :=
  { s with demod := { s.demod with
    oscPhase := s.demod.oscPhase.set t (s.demod.oscPhase.get t + s.derived.oscInc.get t) } }

/-- The Euclidean magnitude of the two components (rule R165). -/
def amplitude (i q : Val) : Val := .sqrt (.add (.mul i i) (.mul q q))

/-- One envelope moved toward the input by a coefficient, `x·c + env·(1 − c)` (rule R170). -/
def envelope (x env c : Val) : Val := .add (.mul x c) (.mul env (.sub .one c))

/-- The peak envelope after the input `x` (rule R170): attack `a` above it, decay `d` otherwise. -/
def nextPeak (N : Num) (a d p x : Val) : Val :=
  if N.lt p x then envelope x p a else envelope x p d

/-- The valley envelope after the input `x` (rule R170): attack `a` below it, decay `d` otherwise. -/
def nextValley (N : Num) (a d v x : Val) : Val :=
  if N.lt x v then envelope x v a else envelope x v d

/-- The input clipped to the envelopes `v` and `p` (rule R170). -/
def clip (N : Num) (x p v : Val) : Val :=
  let c := if N.lt p x then p else x
  if N.lt c v then v else c

/-- The normalised output for the updated envelopes `p` and `v` (rule R170). -/
def normalised (N : Num) (x p v : Val) : Val :=
  if N.lt v p then .div (.sub (clip N x p v) (.div (.add p v) .two)) (.sub p v) else .zero

/-- `agc(t, x)` (rule R170). -/
def agc (t : Ix) (x : Val) (s : State) : State × Val :=
  let a := valOf s.cfg.agcAttack
  let d := valOf s.cfg.agcDecay
  let p := nextPeak s.num a d (s.demod.agcPeak.get t) x
  let v := nextValley s.num a d (s.demod.agcValley.get t) x
  ({ s with demod := { s.demod with
    agcPeak := s.demod.agcPeak.set t p, agcValley := s.demod.agcValley.set t v } },
    normalised s.num x p v)

/-- `amplitudeProfile(xf)` (rule R165): oscillator 0 is mark, oscillator 1 is space. -/
def amplitudeProfile (xf : Val) (s : State) : State × Val :=
  let (s, i0, q0) := mix .i0 xf s
  let (s, i1, q1) := mix .i1 xf s
  let s := (s.advance .i0).advance .i1
  let (s, m) := agc .i0 (amplitude i0 q0) s
  let (s, sp) := agc .i1 (amplitude i1 q1) s
  (s, .sub m sp)

/-- `unwrap(r)` (rule R167). -/
def unwrap (N : Num) (r : Val) : Val :=
  if N.lt .pi r then .sub r (.mul .two .pi)
  else if N.le r (.neg .pi) then .add r (.mul .two .pi)
  else r

/-- `discriminatorProfile(xf)` (rules R166, R168). -/
def discriminatorProfile (xf : Val) (s : State) : State × Val :=
  let (s, i, q) := mix .i0 xf s
  let s := s.advance .i0
  let ph : Val := .atan2 q i
  let rate := unwrap s.num (.sub ph s.demod.prevPhase)
  ({ s with demod := { s.demod with prevPhase := ph } }, .mul rate s.derived.discScale)

/-- The demodulator stage of SAMPLE (rule R160): the demodulated output of the sample `x`. -/
def demodulate (x : Val) (s : State) : State × Val :=
  let (s, xf) := prefilter x s
  if s.cfg.profile = 0#32 then amplitudeProfile xf s else discriminatorProfile xf s

/-- SAMPLE (rules R160, R169). -/
def execSample (data : U32) (s : State) : Result :=
  s.inMode .run <|
    match dec32 data with
    | none => s.raise .errOperand
    | some x =>
      let (s1, d) := demodulate x s
      let (s2, ev) := pllStep d s1
      s2.respondData ev (s.num.enc32 d)

end Sys2Proof.Machine
end

