-- ==== Sys2Proof/Machine/Dispatch.lean ====
section
/-!
DEFINITION. The dispatch: one arm per command, one meaning per arm.
-/

namespace Sys2Proof.Machine

-- What a command does after decode steps 1 and 2 (rules R13, R103, R105).
def exec (i : Instr) (s : State) : Host.Outcome State Fault Refusal :=
  match i with
  | .reset => Sys2Proof.Machine.execReset s
  | .start => Sys2Proof.Machine.execStart s
  | .cfgwr sel data => Sys2Proof.Machine.execCfgwr sel data s
  | .cfgrd sel => Sys2Proof.Machine.execCfgrd sel s
  | .coefwr sel idx data => Sys2Proof.Machine.execCoefwr sel idx data s
  | .coefrd sel idx => Sys2Proof.Machine.execCoefrd sel idx s
  | .fdgen sel => Sys2Proof.Machine.execFdgen sel s
  | .sample data => Sys2Proof.Machine.execSample data s
  | .demodin data => Sys2Proof.Machine.execDemodin data s
  | .bitin bit => Sys2Proof.Machine.execBitin bit s
  | .setdd bit => Sys2Proof.Machine.execSetdd bit s
  | .framerd => Sys2Proof.Machine.execFramerd s

end Sys2Proof.Machine
end

