-- ==== Sys2Proof/Machine/Step.lean ====
section
/-!
DEFINITION. One step: the core takes the next command word the host has presented, decodes it, and runs
it or refuses it (rules R13, R22, R105).
-/

namespace Sys2Proof.Machine

/-- One command executed, or, with none presented, nothing: between commands the core is idle and holds
its state (rules R13, R22, R277). -/
def step (s : State) : Host.Outcome State Fault Refusal :=
  match s.cmds with
  | [] => .next s
  | w :: rest =>
    match decode w with
    | .ok i => exec i { s with cmds := rest }
    | .illegalOp => State.raise { s with cmds := rest } .errIllegalOp
    | .reservedField => State.raise { s with cmds := rest } .errReservedField

/-- The state with a command word presented as the next one. -/
def State.withFetchWord (s : State) (nbits w : Nat) : State :=
  { s with cmds := tableWord nbits w :: s.cmds }

end Sys2Proof.Machine
end

