-- ==== Sys2Proof/Safety.lean ====
section
/-!
DEFINITION. What a statement about the machine speaks of: responses and runs, the spec's tables as it
writes them, its formulas over the real numbers, the bits on the line, and the invariant (rule R48).
-/

namespace Sys2Proof.Machine

/-! ## Responses and runs -/

/-- The response of `respond(fl, aux, data)` (rule R11). -/
def okResponse (fl : U8) (aux : U16) (data : U32) : Response :=
  { status := .ok, fl := fl, aux := aux, data := data, payload := [] }

/-- The outcome of a refused command: the state with the error response, and nothing else changed (rules
R11, R261). -/
def refusal (s : State) (st : Status) : Result :=
  .next { s with resp := some { status := st, fl := 0#8, aux := 0#16, data := 0#32, payload := [] } }

/-- The state after the outcome, where it is a next state. -/
def nextOf (o : Result) : Option State :=
  match o with
  | .next t => some t
  | .fault _ => none
  | .refused _ => none

/-- The status of the response to the latest command. -/
def State.status (s : State) : Option Status := s.resp.map (·.status)

/-- Commands run one after another on the state, each on the state the one before left (rule R79). -/
def runAll : List Instr → State → Option State
  | [], s => some s
  | i :: l, s => (nextOf (exec i s)).bind (runAll l)

/-- Commands run one after another, with the responses, the first one first. -/
def runLog : List Instr → State → Option (State × List Response)
  | [], s => some (s, [])
  | i :: l, s =>
    match nextOf (exec i s) with
    | none => none
    | some t => (runLog l t).map fun p => (p.1, t.resp.toList ++ p.2)

/-- The status codes (rule R260). -/
def statusTable : List (Status × U8) :=
  [(.ok, 0x00#8), (.errIllegalOp, 0x01#8), (.errReservedField, 0x02#8), (.errMode, 0x03#8),
   (.errSel, 0x04#8), (.errIndex, 0x05#8), (.errOperand, 0x06#8), (.errCfgRate, 0x10#8),
   (.errCfgTone, 0x11#8), (.errCfgProfile, 0x12#8), (.errCfgFilter, 0x13#8),
   (.errCfgRange, 0x14#8), (.errCfgFrame, 0x15#8), (.errCfgSpec, 0x16#8)]

/-- The modes in which a command is accepted (rules R103, R245). -/
def allowedIn (i : Instr) (m : Mode) : Bool :=
  match i with
  | .reset => true
  | .start => m == .config
  | .cfgwr _ _ => m == .config
  | .cfgrd _ => true
  | .coefwr _ _ _ => m == .config
  | .coefrd _ _ => true
  | .fdgen _ => m == .config
  | .sample _ => m == .run
  | .demodin _ => m == .run
  | .bitin _ => m == .run
  | .setdd _ => m == .run
  | .framerd => true

/-! ## Command words (rules R101, R106) -/

/-- The reserved operation codes (rule R106). -/
def ReservedOpcode (op : Nat) : Prop :=
  op = 0x00 ∨ (0x03 ≤ op ∧ op ≤ 0x0F) ∨ (0x15 ≤ op ∧ op ≤ 0x1F) ∨ (0x24 ≤ op ∧ op ≤ 0x2F) ∨
    (0x31 ≤ op ∧ op ≤ 0xFF)

/-- A field that the format of the operation code does not use is not zero (rule R101). -/
def UnusedFieldSet (op sel idx data : Nat) : Prop :=
  ((op = 0x01 ∨ op = 0x02 ∨ op = 0x30) ∧ (sel ≠ 0 ∨ idx ≠ 0 ∨ data ≠ 0)) ∨
  (op = 0x10 ∧ idx ≠ 0) ∨
  ((op = 0x11 ∨ op = 0x14) ∧ (idx ≠ 0 ∨ data ≠ 0)) ∨
  (op = 0x13 ∧ data ≠ 0) ∨
  ((op = 0x20 ∨ op = 0x21) ∧ (sel ≠ 0 ∨ idx ≠ 0)) ∨
  ((op = 0x22 ∨ op = 0x23) ∧ (sel ≠ 0 ∨ idx ≠ 0 ∨ 2 ≤ data))

/-! ## Registers (rules R24 to R29, R45, R47) -/

/-- The numbers of the configuration registers other than `COEF_LEN` (rules R24 to R28). -/
def configTable : List (U8 × CfgReg) :=
  [(0x00#8, .sampleRate), (0x01#8, .symbolRate), (0x02#8, .markFreq), (0x03#8, .spaceFreq),
   (0x04#8, .profile), (0x05#8, .demodCtrl), (0x06#8, .agcAttack), (0x07#8, .agcDecay),
   (0x08#8, .pllLockedInertia), (0x09#8, .pllSearchInertia), (0x0A#8, .frameMin),
   (0x0B#8, .frameMax),
   (0x10#8, .fsKind .i0), (0x11#8, .fsTaps .i0), (0x12#8, .fsF1 .i0), (0x13#8, .fsF2 .i0),
   (0x14#8, .fsWindow .i0), (0x15#8, .fsRolloff .i0), (0x16#8, .fsSps .i0),
   (0x18#8, .fsKind .i1), (0x19#8, .fsTaps .i1), (0x1A#8, .fsF1 .i1), (0x1B#8, .fsF2 .i1),
   (0x1C#8, .fsWindow .i1), (0x1D#8, .fsRolloff .i1), (0x1E#8, .fsSps .i1)]

/-- The numbers of the coefficient length registers (rule R29). -/
def lengthTable : List (U8 × Ix) := [(0x20#8, .i0), (0x21#8, .i1)]

/-- The numbers of the banks (rule R105, step 4). -/
def bankTable : List (U8 × Ix) := [(0x00#8, .i0), (0x01#8, .i1)]

/-- A bit as a number. -/
def bitNat (b : Bool) : Nat := if b then 1 else 0

/-- The read-only registers with the value a CFGRD of each returns (rules R40, R44, R45). -/
def readOnlyTable (s : State) : List (U8 × U32) :=
  [(0x80#8, if s.mode = .run then 1#32 else 0#32),
   (0x81#8, BitVec.ofNat 32 (bitNat s.df.slotValid + 2 * bitNat (decide (s.df.dfState = .filling)) +
      4 * bitNat s.df.overflow + 8 * bitNat s.pll.dataDetect + 16 * bitNat s.pll.prevSign +
      32 * bitNat s.df.prevRaw)),
   (0x82#8, s.demod.oscPhase.at0), (0x83#8, s.demod.oscPhase.at1),
   (0x84#8, s.derived.oscInc.at0), (0x85#8, s.derived.oscInc.at1),
   (0x86#8, s.pll.acc), (0x87#8, s.derived.pllStep),
   (0x88#8, BitVec.ofNat 32 (s.df.shiftReg.toNat + 2 ^ 8 * s.df.octetAcc.toNat +
      2 ^ 16 * s.df.bitsInOctet.toNat)),
   (0x89#8, BitVec.ofNat 32 s.df.frameLen), (0x8A#8, BitVec.ofNat 32 s.df.slotLen),
   (0x8B#8, s.num.enc32 s.derived.discScale),
   (0x8C#8, s.num.enc32 s.demod.agcPeak.at0), (0x8D#8, s.num.enc32 s.demod.agcValley.at0),
   (0x8E#8, s.num.enc32 s.demod.agcPeak.at1), (0x8F#8, s.num.enc32 s.demod.agcValley.at1),
   (0x90#8, s.num.enc32 s.demod.prevPhase),
   (0xF0#8, 0x41465258#32), (0xF1#8, BitVec.ofNat 32 s.params.maxTaps),
   (0xF2#8, BitVec.ofNat 32 s.params.maxFrame)]

/-- The unimplemented register numbers (rule R47). -/
def Unimplemented (sel : Nat) : Prop :=
  (0x0C ≤ sel ∧ sel ≤ 0x0F) ∨ sel = 0x17 ∨ sel = 0x1F ∨ (0x22 ≤ sel ∧ sel ≤ 0x7F) ∨
    (0x91 ≤ sel ∧ sel ≤ 0xEF) ∨ (0xF3 ≤ sel ∧ sel ≤ 0xFF)

/-! ## START and FDGEN (rules R134, R241, R242) -/

/-- A binary32 register that holds a value from 0 to 1 (rules R25, R28). -/
def UnitRegister (b : U32) : Prop := isValue b = true ∧ 0 ≤ decRat b ∧ decRat b ≤ 1

/-- A binary32 register that holds a cut-off fraction (rule R28). -/
def CutoffRegister (b : U32) : Prop := isValue b = true ∧ 0 < decRat b ∧ decRat b < 1 / 2

/-- A filter specification that FDGEN accepts (rule R134). -/
def SpecLegal (f : FilterSpec) : Prop :=
  (f.kind = 0#32 ∧ CutoffRegister f.f1 ∧ (f.window = 0#32 ∨ f.window = 1#32)) ∨
  (f.kind = 1#32 ∧ CutoffRegister f.f1 ∧ CutoffRegister f.f2 ∧
    (f.window = 0#32 ∨ f.window = 1#32)) ∨
  (f.kind = 2#32 ∧ UnitRegister f.rolloff ∧ isValue f.sps = true ∧ 0 < decRat f.sps)

/-- The nine lines of rule R241 in order: the condition that fails, and its status. -/
def startLines (s : State) : List (Prop × Status) :=
  let fs := s.cfg.sampleRate.toNat
  let baud := s.cfg.symbolRate.toNat
  let mark := s.cfg.markFreq.toNat
  let space := s.cfg.spaceFreq.toNat
  [(fs = 0, .errCfgRate),
   (baud = 0 ∨ fs ≤ 2 * baud, .errCfgRate),
   (mark = 0 ∨ fs ≤ 2 * mark ∨ space = 0 ∨ fs ≤ 2 * space, .errCfgTone),
   (¬(s.cfg.profile = 0#32 ∨ s.cfg.profile = 1#32), .errCfgProfile),
   (s.cfg.profile = 1#32 ∧ mark = space, .errCfgTone),
   ((s.cfg.demodCtrl.getLsbD 0 = true ∧ s.cfg.coefLen.at0 = 0#32) ∨ s.cfg.coefLen.at1 = 0#32,
     .errCfgFilter),
   (s.cfg.profile = 0#32 ∧ ¬(UnitRegister s.cfg.agcAttack ∧ UnitRegister s.cfg.agcDecay),
     .errCfgRange),
   (65536 < s.cfg.pllLockedInertia.toNat ∨ 65536 < s.cfg.pllSearchInertia.toNat, .errCfgRange),
   (¬(1 ≤ s.cfg.frameMin.toNat ∧ s.cfg.frameMin.toNat ≤ s.cfg.frameMax.toNat ∧
     s.cfg.frameMax.toNat ≤ s.params.maxFrame), .errCfgFrame)]

/-- No line of rule R241 fails. -/
def StartAccepts (s : State) : Prop := ∀ e ∈ startLines s, ¬e.1

/-- `round_half_up(q) = floor(q + 1/2)` as a `u32` (rule R8). -/
def roundHalfUpRat (q : Rat) : U32 := BitVec.ofInt 32 ⌊q + 1 / 2⌋

/-! ## The PLL step (rules R190 to R196) -/

/-- The accumulator goes from non-negative to negative: the sample is a symbol centre (rules R190, R192).
-/
def State.emits (s : State) : Bool :=
  decide (0 ≤ s.pll.acc.toInt ∧ (s.pll.acc + s.derived.pllStep).toInt < 0)

/-- `PLL_ACC`, `PREV_SIGN` and `DATA_DETECT` after a PLL step whose bit decision is `sign` (rules R190,
R193, R194, R196). -/
def State.pllRegisters (s : State) (sign : Bool) : Pll :=
  let acc1 := s.pll.acc + s.derived.pllStep
  let tr := decide (sign ≠ s.pll.prevSign)
  let k := if s.pll.dataDetect then s.cfg.pllLockedInertia else s.cfg.pllSearchInertia
  { acc := if tr then BitVec.ofInt 32 ((acc1.toInt * k.toNat).tdiv 65536) else acc1
    prevSign := sign
    dataDetect := lockNext s.params.lockNext s.pll.dataDetect tr acc1.toInt s.emits }

/-- The response of SAMPLE and DEMODIN for the bit decision `sign`, with `t` the state after the command:
the bit and the deframer's events where a bit was handed to it, the transition, and `data` (rules R112,
R169, R197). -/
def State.dataResponse (s t : State) (sign : Bool) (data : U32) : Response :=
  let tr := decide (sign ≠ s.pll.prevSign)
  let e := (dfStep sign s).2
  okResponse
    (if s.emits then BitVec.ofNat 8 (1 + 2 * bitNat sign + 4 * bitNat e.db + 8 * bitNat e.flg +
      16 * bitNat e.fe + 32 * bitNat t.df.slotValid + 64 * bitNat tr + 128 * bitNat e.ovf)
    else BitVec.ofNat 8 (32 * bitNat t.df.slotValid + 64 * bitNat tr))
    (BitVec.ofNat 16 t.df.frameLen) data

/-! ## Real numbers (rules R132, R135 to R137, R141) -/

/-- The distance of tap `i` from the centre tap of a filter of `n` taps. -/
def tapOffset (n i : Nat) : Int := (i : Int) - ((n : Int) - 1) / 2

/-- `window(kind, size, index)` as a real number (rule R132). -/
noncomputable def windowReal (kind : U32) (n i : Nat) : ℝ :=
  if kind = 0#32 then 1 else Real.cos (Real.pi * tapOffset n i / n)

/-- The un-normalised low-pass kernel (rule R135). -/
noncomputable def kernelReal (fc : ℝ) (k : Int) : ℝ :=
  if k = 0 then 2 * fc else Real.sin (2 * Real.pi * fc * k) / (Real.pi * k)

/-- The default pulse (rule R141). -/
noncomputable def pulseReal (eps t a : ℝ) : ℝ :=
  if |t| ≤ eps then 1
  else if |(|2 * a * t| - 1)| ≤ eps then Real.sin (Real.pi * t) / (Real.pi * t) * (Real.pi / 4)
  else Real.sin (Real.pi * t) / (Real.pi * t) * Real.cos (Real.pi * a * t) /
    (1 - 2 * a * t * (2 * a * t))

/-- The textbook root pulse `PULSE_ROOT` (rule R141). -/
noncomputable def pulseRootReal (eps t a : ℝ) : ℝ :=
  if t = 0 then 1 - a + 4 * a / Real.pi
  else if 0 < a ∧ |(|4 * a * t| - 1)| ≤ eps then
    a / Real.sqrt 2 * ((1 + 2 / Real.pi) * Real.sin (Real.pi / (4 * a)) +
      (1 - 2 / Real.pi) * Real.cos (Real.pi / (4 * a)))
  else (Real.sin (Real.pi * t * (1 - a)) + 4 * a * t * Real.cos (Real.pi * t * (1 + a))) /
    (Real.pi * t * (1 - 4 * a * t * (4 * a * t)))

/-- The result of a filter design: the weights divided by the divisor, or zeros where the divisor is
within `eps` of 0, with the warning (rules R135 to R138). -/
def DesignIs (r : List Val × Bool) (n : Nat) (w : Nat → ℝ) (divisor eps : ℝ) : Prop :=
  (r.2 = true ↔ |divisor| ≤ eps) ∧
    r.1.map Val.toReal = (List.range n).map fun i => if |divisor| ≤ eps then 0 else w i / divisor

/-- The low-pass of cut-off `fc` and window `wk`: the windowed kernel divided by its sum (rule R135). -/
def LowpassIs (r : List Val × Bool) (n : Nat) (fc : ℝ) (wk : U32) (eps : ℝ) : Prop :=
  let w : Nat → ℝ := fun i => kernelReal fc (tapOffset n i) * windowReal wk n i
  DesignIs r n w (∑ i ∈ Finset.range n, w i) eps

/-- The band-pass from `f1` to `f2` with window `wk`: the windowed difference of the kernels divided by
the response at the band's centre (rule R136). -/
def BandpassIs (r : List Val × Bool) (n : Nat) (f1 f2 : ℝ) (wk : U32) (eps : ℝ) : Prop :=
  let w : Nat → ℝ := fun i =>
    (kernelReal f2 (tapOffset n i) - kernelReal f1 (tapOffset n i)) * windowReal wk n i
  DesignIs r n w
    (∑ i ∈ Finset.range n, w i * Real.cos (2 * Real.pi * ((f1 + f2) / 2) * tapOffset n i)) eps

/-- The root-raised-cosine of roll-off `a` and `sps` samples per symbol, for the pulse `pulse t a`: the
pulse at the taps' times divided by its sum (rule R137). -/
def RrcIs (r : List Val × Bool) (n : Nat) (pulse : ℝ → ℝ → ℝ) (a sps eps : ℝ) : Prop :=
  let w : Nat → ℝ := fun i => pulse ((tapOffset n i : ℝ) / sps) a
  DesignIs r n w (∑ i ∈ Finset.range n, w i) eps

/-! ## Bits on the line (rules R213, R215, R222) -/

/-- The flag pattern in sending order (rule R213). -/
def flagBits : List Bool := [false, true, true, true, true, true, true, false]

/-- The bits of an octet in sending order, least significant first (rule R215). -/
def octetBits (o : Octet) : List Bool := (List.range 8).map fun k => o.getLsbD k

/-- The NRZI encoder: toggle the level for a 0, keep it for a 1, send the level (rule R222). -/
def nrziSend : Bool → List Bool → List Bool
  | _, [] => []
  | level, b :: l => (if b then level else !level) :: nrziSend (if b then level else !level) l

/-- The flag pattern does not stand in the bits at any offset from `a` to before `b`. -/
def NoFlag (l : List Bool) (a b : Nat) : Prop :=
  ∀ k, a ≤ k → k < b → (l.drop k).take 8 ≠ flagBits

/-- The last eight decoded bits, the oldest first (rule R212). -/
def State.recentBits (s : State) : List Bool := octetBits s.df.shiftReg

/-! ## The invariant (rule R48) -/

/-- The run-time elements of rules R31 and R33 to R43 have their reset values (rule R48(e)). -/
def State.RuntimeReset (s : State) : Prop :=
  s.derived = .reset ∧ s.demod = .reset ∧ s.pll = .reset ∧ s.df = .reset ∧
    s.mem.rawh = List.replicate s.params.maxTaps .zero ∧
    s.mem.ih = .both (List.replicate s.params.maxTaps .zero) ∧
    s.mem.qh = .both (List.replicate s.params.maxTaps .zero) ∧
    s.mem.frameBuf = List.replicate s.params.maxFrame 0#8 ∧
    s.mem.slotBuf = List.replicate s.params.maxFrame 0#8

/-- The deframer's part of rule R48, items (c), (d), (g) and (h). -/
def State.DeframerInv (s : State) : Prop :=
  s.df.frameLen ≤ s.params.maxFrame ∧
  (s.mode = .run → s.df.frameLen ≤ s.cfg.frameMax.toNat ∧
    1 ≤ s.cfg.frameMin.toNat ∧ s.cfg.frameMin.toNat ≤ s.cfg.frameMax.toNat ∧
    s.cfg.frameMax.toNat ≤ s.params.maxFrame) ∧
  (s.df.slotValid = true → s.cfg.frameMin.toNat ≤ s.df.slotLen ∧
    s.df.slotLen ≤ s.cfg.frameMax.toNat) ∧
  (s.df.dfState = .hunting → s.df.frameLen = 0 ∧ s.df.bitsInOctet = 0#3 ∧
    s.df.octetAcc = 0#8 ∧ s.df.overflow = false) ∧
  (s.df.overflow = true → s.df.frameLen = s.cfg.frameMax.toNat ∧ s.df.slotValid = false)

/-- The invariant of rule R48, with the form of the storage spaces and the ranges of the parameters. -/
def State.Inv (s : State) : Prop :=
  s.params.Valid ∧ s.mem.wf s.params.maxTaps s.params.maxFrame ∧
  (∀ b, s.cfg.tapCount b = 0 ∨
    s.cfg.tapCount b % 2 = 1 ∧ s.cfg.tapCount b ≤ s.params.maxTaps) ∧
  (s.mode = .config → s.RuntimeReset) ∧ s.DeframerInv

end Sys2Proof.Machine
end

