-- ==== Sys2Proof/WellFormed.lean ====
section
/-!
DEFINITION. The checks of rule R105 that depend on the command's own fields alone: the register number
or bank of step 4, and the value pattern of step 6. A command that fails one is still decoded and run,
and answers with the status code of that step; a well-formed command can be executed in some state.
-/

namespace Sys2Proof

open Machine

/-- The operands are ones the command accepts in some state (rules R45, R47, R74, R105 steps 4 and
6). -/
def Instr.wellFormed (i : Instr) : Bool :=
  match i with
  | .reset => true
  | .start => true
  | .cfgwr sel _ => (writableOf sel).isSome
  | .cfgrd sel => (regOf sel).isSome
  | .coefwr sel _ data => (bankOf sel).isSome && isValue data
  | .coefrd sel _ => (bankOf sel).isSome
  | .fdgen sel => (bankOf sel).isSome
  | .sample data => isValue data
  | .demodin data => isValue data
  | .bitin _ => true
  | .setdd _ => true
  | .framerd => true

end Sys2Proof
end

