-- ==== Sys2Proof/Certificates/Slice0/Obligations.lean ====
section
/-!
DEFINITION. The statements about this machine. None rests on the parameters that `State.reset` fixes,
but for `ResetStateMeetsInvariant`, which is about that state.
-/

open Sys2Proof Sys2Proof.Machine

/-! ## Encoding and the step -/

/-- Decoding the encoding of a command gives the command, whatever its operands (rules R100, R101,
R103). -/
def Obligations.DecodeEncode : Prop := ∀ i : Instr, decode (encode i) = .ok i

/-- A word that decodes to a command is that command's encoding: every word has one reading, and the
fields a format does not use are zero in it (rules R101, R105). -/
def Obligations.EncodeDecode : Prop := ∀ (w : Word) (i : Instr), decode w = .ok i → encode i = w

/-- The worked encodings of rule R108, and the two refused words. -/
def Obligations.WorkedEncodings : Prop :=
  decode 0x0100000000000000#64 = .ok .reset ∧
  decode 0x0200000000000000#64 = .ok .start ∧
  decode 0x100000000000BB80#64 = .ok (.cfgwr 0x00#8 48000#32) ∧
  decode 0x1004000000000001#64 = .ok (.cfgwr 0x04#8 1#32) ∧
  decode 0x1181000000000000#64 = .ok (.cfgrd 0x81#8) ∧
  decode 0x120100023E800000#64 = .ok (.coefwr 1#8 2#16 0x3E800000#32) ∧
  decode 0x1300000700000000#64 = .ok (.coefrd 0#8 7#16) ∧
  decode 0x1401000000000000#64 = .ok (.fdgen 1#8) ∧
  decode 0x200000003F000000#64 = .ok (.sample 0x3F000000#32) ∧
  decode 0x20000000BF800000#64 = .ok (.sample 0xBF800000#32) ∧
  decode 0x210000003F800000#64 = .ok (.demodin 0x3F800000#32) ∧
  decode 0x2200000000000001#64 = .ok (.bitin true) ∧
  decode 0x2300000000000001#64 = .ok (.setdd true) ∧
  decode 0x3000000000000000#64 = .ok .framerd ∧
  decode 0x0000000000000000#64 = .illegalOp ∧
  decode 0x2200000000000002#64 = .reservedField

/-- When the next presented word decodes to a command, a step takes the word and is that command; with no
word presented a step changes nothing (the command queue is the model's own, log 2). -/
def Obligations.StepRunsDecoded : Prop :=
  (∀ (s : State) (w : Word) (rest : List Word) (i : Instr), s.cmds = w :: rest → decode w = .ok i →
    step s = exec i { s with cmds := rest }) ∧
  (∀ (s : State) (i : Instr), step (s.withFetchWord 64 (encode i).toNat) = exec i s) ∧
  ∀ s : State, s.cmds = [] → step s = .next s

/-- A word with a reserved operation code is refused with `ERR_ILLEGAL_OP`, and nothing else happens; the
all-zero word is one; every other word is not (rule R106). -/
def Obligations.ReservedOpcodeRefused : Prop :=
  (∀ w : Word, decode w = .illegalOp ↔ ReservedOpcode (w.toNat / 2 ^ 56)) ∧
  (∀ (s : State) (w : Word) (rest : List Word), s.cmds = w :: rest →
    ReservedOpcode (w.toNat / 2 ^ 56) → step s = refusal { s with cmds := rest } .errIllegalOp) ∧
  ReservedOpcode ((0#64).toNat / 2 ^ 56)

/-- A word with an assigned operation code and a bit set in a field its format does not use is refused
with `ERR_RESERVED_FIELD`, and nothing else happens; a word with neither fault is a command (rules R101,
R105 steps 1 and 2). -/
def Obligations.UnusedFieldRefused : Prop :=
  (∀ w : Word, decode w = .reservedField ↔
    UnusedFieldSet (w.toNat / 2 ^ 56) (w.toNat / 2 ^ 48 % 2 ^ 8) (w.toNat / 2 ^ 32 % 2 ^ 16)
      (w.toNat % 2 ^ 32)) ∧
  (∀ (s : State) (w : Word) (rest : List Word), s.cmds = w :: rest → decode w = .reservedField →
    step s = refusal { s with cmds := rest } .errReservedField) ∧
  ∀ w : Word, (∃ i, decode w = .ok i) ↔ decode w ≠ .illegalOp ∧ decode w ≠ .reservedField

/-- Every step in every state has a next state, and the next state carries a response when a word was
presented (rules R13, R81). That every command, RESET included, keeps the words the host has presented and
the parameters of the instance is the model's own (logs 2, 11). -/
def Obligations.EveryStepCompletes : Prop :=
  (∀ s : State, ∃ t, step s = .next t ∧ (s.cmds ≠ [] → t.resp.isSome = true)) ∧
  ∀ (i : Instr) (s : State), ∃ t r, exec i s = .next t ∧ t.resp = some r ∧
    t.cmds = s.cmds ∧ t.params = s.params

/-! ## Errors and modes -/

/-- A refused command changes no state but the response, whose other fields are zero: a command that
decodes, and any word the host presents, which is taken from the queue (rule R261). -/
def Obligations.RefusedCommandChangesNothing : Prop :=
  (∀ (i : Instr) (s t : State) (r : Response), exec i s = .next t → t.resp = some r → r.status ≠ .ok →
    exec i s = refusal s r.status) ∧
  ∀ (s t : State) (w : Word) (rest : List Word) (r : Response), s.cmds = w :: rest → step s = .next t →
    t.resp = some r → r.status ≠ .ok → step s = refusal { s with cmds := rest } r.status

/-- The mode table: a command is refused with `ERR_MODE` exactly in the modes in which it is not accepted,
and FRAMERD in CONFIG returns none wherever the slot is empty in CONFIG, which the invariant says (rule
R245). -/
def Obligations.ModeTable : Prop :=
  (∀ (i : Instr) (s : State), exec i s = refusal s .errMode ↔ allowedIn i s.mode = false) ∧
  (∀ (i : Instr) (s t : State), exec i s = .next t →
    (t.status = some .errMode ↔ allowedIn i s.mode = false)) ∧
  ∀ s : State, s.Inv → s.mode = .config →
    exec .framerd s = .next { s with resp := some (okResponse 0#8 0#16 0#32) }

/-! ## Reset and the invariant -/

/-- RESET, in any mode, gives every state element its value of rule R49, and that is the state after
power-on of the instance with the same parameters. That it keeps the parameters, which `ID`, `HW_MAXTAPS`
and `HW_MAXFRAME` show, and the words the host has presented is the model's reading (log 11; the queue of
words is the model's own, log 2). -/
def Obligations.ResetRestoresEverything : Prop :=
  ∀ s : State, ∃ t, exec .reset s = .next t ∧ t.resp = some (okResponse 0#8 0#16 0#32) ∧
    t = { State.resetOf s.params with cmds := s.cmds, resp := t.resp } ∧
    t.mode = .config ∧ (∀ r, t.cfg.get r = 0#32) ∧
    t.derived.oscInc = ⟨0#32, 0#32⟩ ∧ t.derived.pllStep = 0#32 ∧ t.derived.discScale = .lit 0 ∧
    (∀ b, t.mem.coef.get b = List.replicate s.params.maxTaps (.lit 0)) ∧
    t.mem.rawh = List.replicate s.params.maxTaps (.lit 0) ∧
    (∀ k, t.mem.ih.get k = List.replicate s.params.maxTaps (.lit 0) ∧
      t.mem.qh.get k = List.replicate s.params.maxTaps (.lit 0)) ∧
    t.demod.oscPhase = ⟨0#32, 0#32⟩ ∧ t.demod.agcPeak = ⟨.lit 0, .lit 0⟩ ∧
    t.demod.agcValley = ⟨.lit 0, .lit 0⟩ ∧ t.demod.prevPhase = .lit 0 ∧
    t.pll.acc = 0#32 ∧ t.pll.prevSign = false ∧ t.pll.dataDetect = false ∧
    t.df.prevRaw = false ∧ t.df.shiftReg = 0#8 ∧ t.df.octetAcc = 0#8 ∧ t.df.bitsInOctet = 0#3 ∧
    t.df.dfState = .hunting ∧ t.df.overflow = false ∧
    t.df.frameLen = 0 ∧ t.mem.frameBuf = List.replicate s.params.maxFrame 0#8 ∧
    t.df.slotValid = false ∧ t.df.slotLen = 0 ∧
    t.mem.slotBuf = List.replicate s.params.maxFrame 0#8 ∧
    t.params = s.params ∧ t.cmds = s.cmds

/-- The state after reset meets the invariant of rule R48. Its parameters are the model's choice (log 1).
-/
def Obligations.ResetStateMeetsInvariant : Prop := State.reset.Inv

/-- The invariant of rule R48 is kept by every step from every state that meets it, reachable or not, and
a step that stays in RUN leaves the configuration registers and the coefficient banks as they are (item
(f)). -/
def Obligations.StepKeepsInvariant : Prop :=
  ∀ s t : State, s.Inv → step s = .next t →
    t.Inv ∧ (s.mode = .run → t.mode = .run → t.cfg = s.cfg ∧ t.mem.coef = s.mem.coef)

/-- The mode changes only by RESET, to CONFIG, and by an accepted START, to RUN; in RUN no command but RESET
changes a configuration register, a coefficient or a derived constant (rules R21, R31, R82). -/
def Obligations.ModeAndConfigurationChanges : Prop :=
  (∀ (i : Instr) (s t : State), exec i s = .next t → t.mode ≠ s.mode →
    (i = .reset ∧ t.mode = .config) ∨
    (i = .start ∧ t.mode = .run ∧ t.resp = some (okResponse 0#8 0#16 0#32))) ∧
  ∀ (i : Instr) (s t : State), s.mode = .run → i ≠ .reset → exec i s = .next t →
    t.mode = .run ∧ t.cfg = s.cfg ∧ t.mem.coef = s.mem.coef ∧ t.derived = s.derived

/-- `ID`, `HW_MAXTAPS` and `HW_MAXFRAME` read the same constants after every command, RESET included
(rule R46). -/
def Obligations.ConstantRegisters : Prop :=
  ∀ (i : Instr) (s t : State), exec i s = .next t →
    exec (.cfgrd 0xF0#8) t = .next { t with resp := some (okResponse 0#8 0#16 0x41465258#32) } ∧
    exec (.cfgrd 0xF1#8) t =
      .next { t with resp := some (okResponse 0#8 0#16 (BitVec.ofNat 32 s.params.maxTaps)) } ∧
    exec (.cfgrd 0xF2#8) t =
      .next { t with resp := some (okResponse 0#8 0#16 (BitVec.ofNat 32 s.params.maxFrame)) }

/-! ## START -/

/-- START in CONFIG, where no line of rule R241 fails: the derived constants of rule R242 are written, the
mode becomes RUN, and nothing else changes. -/
def Obligations.StartEntersRun : Prop :=
  ∀ s : State, s.mode = .config → StartAccepts s →
    exec .start s = .next { s with
      mode := .run
      derived := {
        pllStep := roundHalfUpRat (2 ^ 32 * s.cfg.symbolRate.toNat / s.cfg.sampleRate.toNat)
        oscInc :=
          if s.cfg.profile = 0#32 then
            ⟨roundHalfUpRat (2 ^ 32 * s.cfg.markFreq.toNat / s.cfg.sampleRate.toNat),
              roundHalfUpRat (2 ^ 32 * s.cfg.spaceFreq.toNat / s.cfg.sampleRate.toNat)⟩
          else
            ⟨roundHalfUpRat (2 ^ 31 * (s.cfg.markFreq.toNat + s.cfg.spaceFreq.toNat) /
              s.cfg.sampleRate.toNat), 0#32⟩
        discScale :=
          if s.cfg.profile = 0#32 then .lit 0
          else .div .one (.div (.mul (.mul (.mul .half
            (.ofInt |(s.cfg.markFreq.toNat : Int) - (s.cfg.spaceFreq.toNat : Int)|)) .two) .pi)
            (.ofInt s.cfg.sampleRate.toNat)) }
      resp := some (okResponse 0#8 0#16 0#32) }

/-- START in CONFIG is refused with the status of the first line of rule R241 that fails, and changes
nothing. -/
def Obligations.StartRefusesFirstFailingLine : Prop :=
  ∀ (s : State) (k : Nat) (p : Prop) (st : Status), s.mode = .config →
    (startLines s)[k]? = some (p, st) → p →
    (∀ (j : Nat) (q : Prop) (c : Status), j < k → (startLines s)[j]? = some (q, c) → ¬q) →
    exec .start s = refusal s st

/-- After an accepted START every increment in use (`PLL_STEP`, `OSC_INC[0]`, and in the
amplitude-comparison profile `OSC_INC[1]`) lies from 1 to below `2^31` and is nearest to the exact quotient
of rule R242, and in the discriminator profile the scale is the positive real number of rule R168 (rules
R168, R191, R242). -/
def Obligations.StartBounds : Prop :=
  ∀ s t : State, s.mode = .config → StartAccepts s → exec .start s = .next t →
    (1 ≤ t.derived.pllStep.toNat ∧ t.derived.pllStep.toNat < 2 ^ 31 ∧
      2 * |(t.derived.pllStep.toNat : Int) * s.cfg.sampleRate.toNat -
        2 ^ 32 * (s.cfg.symbolRate.toNat : Int)| ≤ (s.cfg.sampleRate.toNat : Int)) ∧
    (1 ≤ t.derived.oscInc.at0.toNat ∧ t.derived.oscInc.at0.toNat < 2 ^ 31) ∧
    (s.cfg.profile = 0#32 →
      2 * |(t.derived.oscInc.at0.toNat : Int) * s.cfg.sampleRate.toNat -
        2 ^ 32 * (s.cfg.markFreq.toNat : Int)| ≤ (s.cfg.sampleRate.toNat : Int) ∧
      1 ≤ t.derived.oscInc.at1.toNat ∧ t.derived.oscInc.at1.toNat < 2 ^ 31 ∧
      2 * |(t.derived.oscInc.at1.toNat : Int) * s.cfg.sampleRate.toNat -
        2 ^ 32 * (s.cfg.spaceFreq.toNat : Int)| ≤ (s.cfg.sampleRate.toNat : Int)) ∧
    (s.cfg.profile = 1#32 →
      2 * |(t.derived.oscInc.at0.toNat : Int) * s.cfg.sampleRate.toNat -
        2 ^ 31 * ((s.cfg.markFreq.toNat : Int) + s.cfg.spaceFreq.toNat)| ≤
          (s.cfg.sampleRate.toNat : Int) ∧
      t.derived.oscInc.at1 = 0#32 ∧ 0 < Val.toReal t.derived.discScale ∧
      Val.toReal t.derived.discScale =
        1 / (1 / 2 * |(s.cfg.markFreq.toNat : ℝ) - (s.cfg.spaceFreq.toNat : ℝ)| * (2 * Real.pi) /
          s.cfg.sampleRate.toNat))

/-! ## Configuration registers -/

/-- The registers of rule R30: CFGRD returns the stored bits in any mode; CFGWR in CONFIG stores the
data bits verbatim and leaves every other register, and everything else, alone; CFGWR in RUN is refused
with `ERR_MODE`; the reset value is 0. The second clause is CFGWR's completion. -/
def Obligations.ConfigRegisters : Prop :=
  ∀ (sel : U8) (r : CfgReg),
    ((sel, r) ∈ configTable ∨ ∃ b, (sel, b) ∈ lengthTable ∧ r = .coefLen b) →
    (∀ s : State, exec (.cfgrd sel) s =
      .next { s with resp := some (okResponse 0#8 0#16 (s.cfg.get r)) }) ∧
    (∀ (s : State) (data : U32), s.mode = .config → (sel, r) ∈ configTable →
      ∃ c : Cfg, exec (.cfgwr sel data) s =
          .next { s with cfg := c, resp := some (okResponse 0#8 0#16 0#32) } ∧
        ∀ q, c.get q = if q = r then data else s.cfg.get q) ∧
    (∀ (s : State) (data : U32), s.mode = .run →
      exec (.cfgwr sel data) s = refusal s .errMode) ∧
    ∀ p : Params, (State.resetOf p).cfg.get r = 0#32

/-- A CFGWR to `COEF_LEN[b]` in CONFIG stores and reports the normalised tap count, which is odd and at
most `MAXTAPS`, with the clamp warning, and changes nothing else (rules R29, R113, R243). -/
def Obligations.CoefLenWrite : Prop :=
  ∀ (s : State) (sel : U8) (b : Ix) (data : U32), s.params.Valid → s.mode = .config →
    (sel, b) ∈ lengthTable →
    ∃ n : Nat, n % 2 = 1 ∧ n ≤ s.params.maxTaps ∧ n = (normTaps s.params.maxTaps data).1 ∧
      (data.toNat ≤ s.params.maxTaps → data.toNat % 2 = 1 → n = data.toNat) ∧
      exec (.cfgwr sel data) s = .next { s with
        cfg := { s.cfg with coefLen := s.cfg.coefLen.set b (BitVec.ofNat 32 n) }
        resp := some (okResponse
          (if s.params.maxTaps < data.toNat / 2 * 2 + 1 then 1#8 else 0#8)
          (BitVec.ofNat 16 n) 0#32) } ∧
      (BitVec.ofNat 32 n).toNat = n ∧ (BitVec.ofNat 16 n).toNat = n

/-- `normTaps`: the request with its lowest bit set where that is at most `MAXTAPS`, otherwise the
largest odd number at most `MAXTAPS`, with the warning; always odd and from 1 to `MAXTAPS`; the examples
of rule R131. -/
def Obligations.NormTaps : Prop :=
  (∀ (maxTaps : Nat) (n : U32), 1 ≤ maxTaps → maxTaps ≤ 65535 →
    (n.toNat / 2 * 2 + 1 ≤ maxTaps → normTaps maxTaps n = (n.toNat / 2 * 2 + 1, false)) ∧
    (maxTaps < n.toNat / 2 * 2 + 1 → maxTaps % 2 = 1 → normTaps maxTaps n = (maxTaps, true)) ∧
    (maxTaps < n.toNat / 2 * 2 + 1 → maxTaps % 2 = 0 → normTaps maxTaps n = (maxTaps - 1, true)) ∧
    (normTaps maxTaps n).1 % 2 = 1 ∧ 1 ≤ (normTaps maxTaps n).1 ∧
    (normTaps maxTaps n).1 ≤ maxTaps) ∧
  normTaps 9 0#32 = (1, false) ∧ normTaps 9 4#32 = (5, false) ∧ normTaps 9 9#32 = (9, false) ∧
  normTaps 9 10#32 = (9, true) ∧ normTaps 8 8#32 = (7, true) ∧ normTaps 8 7#32 = (7, false)

/-- A register number is unimplemented exactly where rule R47 lists it; a CFGRD of one in any mode and a
CFGWR of one in CONFIG raise `ERR_SEL`, a CFGWR of one in RUN raises `ERR_MODE`, and nothing changes (rule
R47). -/
def Obligations.UnimplementedRegisters : Prop :=
  ∀ (s : State) (sel : U8),
    (Unimplemented sel.toNat ↔
      sel ∉ configTable.map (·.1) ++ lengthTable.map (·.1) ++ (readOnlyTable s).map (·.1)) ∧
    (Unimplemented sel.toNat →
      exec (.cfgrd sel) s = refusal s .errSel ∧
      ∀ data : U32, (s.mode = .config → exec (.cfgwr sel data) s = refusal s .errSel) ∧
        (s.mode = .run → exec (.cfgwr sel data) s = refusal s .errMode))

/-- The read-only registers: a CFGRD returns the value of rule R45 in any mode and changes nothing, a
CFGWR raises `ERR_SEL` in CONFIG and `ERR_MODE` in RUN (rule R45). -/
def Obligations.ReadOnlyRegisters : Prop :=
  ∀ (s : State) (sel : U8) (v : U32), (sel, v) ∈ readOnlyTable s →
    exec (.cfgrd sel) s = .next { s with resp := some (okResponse 0#8 0#16 v) } ∧
    ∀ data : U32, (s.mode = .config → exec (.cfgwr sel data) s = refusal s .errSel) ∧
      (s.mode = .run → exec (.cfgwr sel data) s = refusal s .errMode)

/-! ## Coefficients and the port codec -/

/-- COEFWR in CONFIG: a bank above 1, an index from `MAXTAPS` on and a pattern that is not a value are
refused in that order; otherwise the one element is written and nothing else changes: every element, read
one by one, is as before but that one (rules R74, R105, R139). -/
def Obligations.CoefwrWritesOneElement : Prop :=
  (∀ (s : State) (sel : U8) (idx : U16) (data : U32), s.mode = .config →
    (2 ≤ sel.toNat → exec (.coefwr sel idx data) s = refusal s .errSel) ∧
    (sel.toNat < 2 → s.params.maxTaps ≤ idx.toNat →
      exec (.coefwr sel idx data) s = refusal s .errIndex) ∧
    (sel.toNat < 2 → idx.toNat < s.params.maxTaps → isValue data = false →
      exec (.coefwr sel idx data) s = refusal s .errOperand)) ∧
  ∀ (s : State) (sel : U8) (b : Ix) (idx : U16) (data : U32), s.mode = .config →
    (sel, b) ∈ bankTable → s.mem.wf s.params.maxTaps s.params.maxFrame →
    idx.toNat < s.params.maxTaps → isValue data = true →
    ∃ c : Two (List Val), exec (.coefwr sel idx data) s = .next { s with
        mem := { s.mem with coef := c }
        resp := some (okResponse 0#8 0#16 0#32) } ∧
      ∀ (a : Ix) (j : Nat), (c.get a)[j]? =
        if a = b ∧ j = idx.toNat then some (.lit (decRat data)) else (s.mem.coef.get a)[j]?

/-- COEFRD in any mode: a bank above 1 and an index from `MAXTAPS` on are refused in that order; otherwise
the response carries the encoding of the element, also of one at or above `COEF_LEN`, and nothing else
changes (rules R74, R140). -/
def Obligations.CoefrdReadsOneElement : Prop :=
  (∀ (s : State) (sel : U8) (idx : U16),
    (2 ≤ sel.toNat → exec (.coefrd sel idx) s = refusal s .errSel) ∧
    (sel.toNat < 2 → s.params.maxTaps ≤ idx.toNat →
      exec (.coefrd sel idx) s = refusal s .errIndex)) ∧
  ∀ (s : State) (sel : U8) (b : Ix) (idx : U16) (v : Val), (sel, b) ∈ bankTable →
    idx.toNat < s.params.maxTaps → (s.mem.coef.get b)[idx.toNat]? = some v →
    exec (.coefrd sel idx) s = .next { s with resp := some (okResponse 0#8 0#16 (s.num.enc32 v)) }

/-- A COEFRD after a COEFWR of the pattern `p` returns `p`, or `+0` for the pattern of `−0`: `enc32` undoes
`dec32` on every value pattern but that one (rules R10, R140). -/
def Obligations.CoefficientRoundTrip : Prop :=
  ∀ (s : State) (sel : U8) (idx : U16) (p : U32), s.mode = .config → sel.toNat < 2 →
    s.mem.wf s.params.maxTaps s.params.maxFrame → idx.toNat < s.params.maxTaps →
    isValue p = true →
    ∃ t u : State, exec (.coefwr sel idx p) s = .next t ∧ exec (.coefrd sel idx) t = .next u ∧
      u.resp = some (okResponse 0#8 0#16 (if p = 0x80000000#32 then 0x00000000#32 else p))

/-- The pattern of a real number below the overflow bound is a value nearest to it, a tie going to the
even fraction; zero encodes as `+0`; from the overflow bound on the pattern is the infinity of the number's
sign (rule R10, over `NUM_REAL`; the sign bit of an underflow to 0 is free, log 7). -/
def Obligations.CodecIsNearest : Prop :=
  ∀ (z : Bool) (x : ℝ),
    (|x| < 2 ^ 128 - 2 ^ 103 → isValue (encReal z x) = true ∧
      ∀ b : U32, isValue b = true →
        |x - (decRat (encReal z x) : ℝ)| ≤ |x - (decRat b : ℝ)| ∧
        (|x - (decRat (encReal z x) : ℝ)| = |x - (decRat b : ℝ)| →
          decRat b ≠ decRat (encReal z x) → (encReal z x).toNat % 2 = 0)) ∧
    (x = 0 → encReal z x = 0x00000000#32) ∧
    (2 ^ 128 - 2 ^ 103 ≤ x → encReal z x = 0x7F800000#32) ∧
    (x ≤ -(2 ^ 128 - 2 ^ 103) → encReal z x = 0xFF800000#32)

/-! ## The numerics record -/

/-- What the evaluator says of a value is true of the real number the value is (rule R9; the evaluator is
the model's own, log 4). -/
def Obligations.EvaluatorIsSound : Prop := ∀ v : Val, (evaluate v).Holds (Val.toReal v)

/-- Under `NUM_REAL` the machine compares any two values as the real numbers they are, and encodes any
value as rule R10 encodes that real number. In every record the order is total, `atan2(0, 0)` is 0, and
two decoded patterns compare as the rational numbers they are (rules R9, R10; the sign bit of an
underflow to 0 is free, log 7; the records other than `NUM_REAL` are uninterpreted, log 3). -/
def Obligations.RealOrderAndEncoding : Prop :=
  (∀ a b : Val, (numOf .real).lt a b = true ↔ Val.toReal a < Val.toReal b) ∧
  (∀ v : Val, (numOf .real).enc32 v = encReal (Config.underflowSign v) (Val.toReal v)) ∧
  ∀ n : NumSel,
    (∀ a b : Val, (numOf n).lt a b = true → (numOf n).lt b a = false) ∧
    (∀ a b c : Val, (numOf n).le a b = true → (numOf n).le b c = true → (numOf n).le a c = true) ∧
    (∀ y x : Val, (numOf n).eq y (.lit 0) = true → (numOf n).eq x (.lit 0) = true →
      (numOf n).eq (.atan2 y x) (.lit 0) = true) ∧
    ∀ p q : U32, isValue p = true → isValue q = true →
      ((numOf n).lt (valOf p) (valOf q) = true ↔ decRat p < decRat q)

/-! ## The filter designer -/

/-- FDGEN in CONFIG: a bank above 1 is refused, then an illegal specification; otherwise the designed
filter of the normalised tap count is written into the bank with zeros above it, the length register is
set, the response reports the count and the warnings, and nothing else changes (rules R133, R134, R143).
-/
def Obligations.FdgenFillsBank : Prop :=
  (∀ (s : State) (sel : U8), s.mode = .config → 2 ≤ sel.toNat →
    exec (.fdgen sel) s = refusal s .errSel) ∧
  ∀ (s : State) (sel : U8) (b : Ix), s.mode = .config → (sel, b) ∈ bankTable →
    (¬SpecLegal (s.cfg.spec.get b) → exec (.fdgen sel) s = refusal s .errCfgSpec) ∧
    (SpecLegal (s.cfg.spec.get b) → s.params.Valid →
      ∃ (n : Nat) (clamp : Bool) (h : List Val) (degen : Bool) (l : List Val),
        normTaps s.params.maxTaps (s.cfg.spec.get b).taps = (n, clamp) ∧
        designFilter s.num s.params (s.cfg.spec.get b) n = (h, degen) ∧
        l.length = s.params.maxTaps ∧ h.length = n ∧
        (∀ i, i < n → l[i]? = h[i]?) ∧
        (∀ i, n ≤ i → i < s.params.maxTaps → l[i]? = some (.lit 0)) ∧
        (degen = true → ∀ i, i < s.params.maxTaps → l[i]? = some (.lit 0)) ∧
        exec (.fdgen sel) s = .next { s with
          mem := { s.mem with coef := s.mem.coef.set b l }
          cfg := { s.cfg with coefLen := s.cfg.coefLen.set b (BitVec.ofNat 32 n) }
          resp := some (okResponse (BitVec.ofNat 8 (bitNat clamp + 2 * bitNat degen))
            (BitVec.ofNat 16 n) 0#32) })

/-- The low-pass design over the real numbers (rules R132, R133, R135, R138): the windowed kernel divided
by its sum, or zeros where the sum is within `NORM_EPS` of 0. A specification of kind 0 asks for it, with
the cut-off of `FS_F1` and the window of `FS_WINDOW`. -/
def Obligations.LowpassDesign : Prop :=
  ∀ N : Machine.Num, N.IsReal →
    (∀ (eps fc : Val) (n : Nat) (wk : U32), n % 2 = 1 →
      LowpassIs (lowpass N eps fc n wk) n (Val.toReal fc) wk (Val.toReal eps)) ∧
    ∀ (p : Params) (f : FilterSpec) (n : Nat), n % 2 = 1 → f.kind = 0#32 → isValue f.f1 = true →
      LowpassIs (designFilter N p f n) n (decRat f.f1) f.window (Val.toReal p.normEps)

/-- The band-pass design over the real numbers (rules R132, R133, R136, R138): the windowed difference of
the kernels divided by the response at the band's centre, or zeros. A specification of kind 1 asks for it,
with the edges of `FS_F1` and `FS_F2` and the window of `FS_WINDOW`. -/
def Obligations.BandpassDesign : Prop :=
  ∀ N : Machine.Num, N.IsReal →
    (∀ (eps f1 f2 : Val) (n : Nat) (wk : U32), n % 2 = 1 →
      BandpassIs (bandpass N eps f1 f2 n wk) n (Val.toReal f1) (Val.toReal f2) wk
        (Val.toReal eps)) ∧
    ∀ (p : Params) (f : FilterSpec) (n : Nat), n % 2 = 1 → f.kind = 1#32 → isValue f.f1 = true →
      isValue f.f2 = true →
      BandpassIs (designFilter N p f n) n (decRat f.f1) (decRat f.f2) f.window
        (Val.toReal p.normEps)

/-- The root-raised-cosine design over the real numbers, with the default pulse and with `PULSE_ROOT`
(rules R133, R137, R138, R141). A specification of kind 2 asks for it, with the roll-off of `FS_ROLLOFF`
and the samples per symbol of `FS_SPS`, and no window. -/
def Obligations.RrcDesign : Prop :=
  ∀ N : Machine.Num, N.IsReal → ∀ (p : Params) (pulse : ℝ → ℝ → ℝ),
    (p.pulse = .raisedCosine ∧ pulse = pulseReal (Val.toReal p.singEps) ∨
      p.pulse = .root ∧ pulse = pulseRootReal (Val.toReal p.singEps)) →
    (∀ (n : Nat) (a sps : Val), n % 2 = 1 →
      RrcIs (rrc N p n a sps) n pulse (Val.toReal a) (Val.toReal sps) (Val.toReal p.normEps)) ∧
    ∀ (f : FilterSpec) (n : Nat), n % 2 = 1 → f.kind = 2#32 → isValue f.rolloff = true →
      isValue f.sps = true →
      RrcIs (designFilter N p f n) n pulse (decRat f.rolloff) (decRat f.sps)
        (Val.toReal p.normEps)

/-- A generated low-pass or root-raised-cosine filter without the degenerate warning sums to exactly 1
over the real numbers, whatever the pulse function (rule R142(b)). -/
def Obligations.UnitSum : Prop :=
  ∀ N : Machine.Num, N.IsReal → ∀ (p : Params) (f : FilterSpec) (n : Nat), 0 ≤ Val.toReal p.normEps →
    f.kind = 0#32 ∨ f.kind = 2#32 → (designFilter N p f n).2 = false →
    ((designFilter N p f n).1.map Val.toReal).sum = 1

/-- A generated band-pass without the degenerate warning has the response 1 at its centre frequency over
the real numbers (rule R142(c)). -/
def Obligations.CentreResponse : Prop :=
  ∀ N : Machine.Num, N.IsReal → ∀ (p : Params) (f : FilterSpec) (n : Nat), 0 ≤ Val.toReal p.normEps →
    f.kind = 1#32 → isValue f.f1 = true → isValue f.f2 = true → n % 2 = 1 →
    (designFilter N p f n).2 = false →
    ∑ i ∈ Finset.range n, Val.toReal ((designFilter N p f n).1.getD i .zero) *
      Real.cos (2 * Real.pi * (((decRat f.f1 : ℝ) + (decRat f.f2 : ℝ)) / 2) * tapOffset n i) = 1

/-- Every generated filter is symmetric over the real numbers, the root-raised-cosine one with either
pulse the spec defines (rule R142(d)). -/
def Obligations.GeneratedFilterSymmetric : Prop :=
  ∀ N : Machine.Num, N.IsReal → ∀ (p : Params) (f : FilterSpec) (n : Nat), n % 2 = 1 →
    f.kind = 0#32 ∨ f.kind = 1#32 ∨ p.pulse = .raisedCosine ∨ p.pulse = .root →
    ((designFilter N p f n).1.map Val.toReal).reverse = (designFilter N p f n).1.map Val.toReal

/-! ## The demodulator -/

/-- SAMPLE in RUN of a value pattern runs the demodulator, then the PLL step on its output, and answers
with the flags, `FRAME_LEN` and the encoded output; a pattern that is not a value is refused with
`ERR_OPERAND` (rules R160, R161, R169). -/
def Obligations.SampleRunsTheStages : Prop :=
  (∀ (s : State) (data : U32), s.mode = .run → isValue data = false →
    exec (.sample data) s = refusal s .errOperand) ∧
  ∀ (s : State) (data : U32), s.mode = .run → isValue data = true →
    let p := demodulate (.lit (decRat data)) s
    let r := pllStep p.2 p.1
    exec (.sample data) s = .next { r.1 with
      resp := some (okResponse (dataFlags r.2 r.1.df.slotValid) (BitVec.ofNat 16 r.1.df.frameLen)
        (s.num.enc32 p.2)) }

/-- SAMPLE in the amplitude-comparison profile: what the pre-filter, the two mixers, the phase advance
and the two AGC stages leave in each register and history, the output, what the PLL step on the output's
sign and the deframer step it may cause leave in their registers, and the response. The phase detector
register, the configuration and the coefficients are as before (rules R162 to R165, R169 to R171, R190 to
R196). -/
def Obligations.SampleAmplitudeProfile : Prop :=
  ∀ (s : State) (data : U32), s.mode = .run → isValue data = true → s.cfg.profile = 0#32 →
    ∃ t : State, exec (.sample data) s = .next t ∧
      let x : Val := .lit (decRat data)
      let raw := if s.cfg.demodCtrl.getLsbD 0 then push s.mem.rawh s.cfg.coefLen.at0.toNat x
        else s.mem.rawh
      let xf := if s.cfg.demodCtrl.getLsbD 0 then conv s.mem.coef.at0 raw s.cfg.coefLen.at0.toNat
        else x
      let n := s.cfg.coefLen.at1.toNat
      let amp : Ix → Val := fun k =>
        let i := conv s.mem.coef.at1 (t.mem.ih.get k) n
        let q := conv s.mem.coef.at1 (t.mem.qh.get k) n
        .sqrt (.add (.mul i i) (.mul q q))
      let a := valOf s.cfg.agcAttack
      let d := valOf s.cfg.agcDecay
      let out : Ix → Val := fun k =>
        normalised s.num (amp k) (t.demod.agcPeak.get k) (t.demod.agcValley.get k)
      t.mem.rawh = raw ∧
      (∀ k, t.mem.ih.get k =
          push (s.mem.ih.get k) n (.mul xf (.cosPhase (s.demod.oscPhase.get k))) ∧
        t.mem.qh.get k =
          push (s.mem.qh.get k) n (.mul xf (.sinPhase (s.demod.oscPhase.get k))) ∧
        t.demod.oscPhase.get k = s.demod.oscPhase.get k + s.derived.oscInc.get k ∧
        t.demod.agcPeak.get k = nextPeak s.num a d (s.demod.agcPeak.get k) (amp k) ∧
        t.demod.agcValley.get k = nextValley s.num a d (s.demod.agcValley.get k) (amp k)) ∧
      t.demod.prevPhase = s.demod.prevPhase ∧
      let y : Val := .sub (out .i0) (out .i1)
      let sign := s.num.lt (.lit 0) y
      let u := if s.emits then (dfStep sign s).1 else s
      t.pll = s.pllRegisters sign ∧ t.df = u.df ∧ t.mem.frameBuf = u.mem.frameBuf ∧
      t.mem.slotBuf = u.mem.slotBuf ∧
      t.resp = some (s.dataResponse t sign (s.num.enc32 y)) ∧
      t.params = s.params ∧ t.mode = .run ∧ t.cfg = s.cfg ∧ t.derived = s.derived ∧
      t.mem.coef = s.mem.coef ∧ t.cmds = s.cmds

/-- SAMPLE in the discriminator profile: the same of its own stages, with the PLL and the deframer;
oscillator 1, its histories and both AGC pairs are as before (rules R162, R163, R164, R166, R169, R171,
R190 to R196). -/
def Obligations.SampleDiscriminatorProfile : Prop :=
  ∀ (s : State) (data : U32), s.mode = .run → isValue data = true → s.cfg.profile = 1#32 →
    ∃ t : State, exec (.sample data) s = .next t ∧
      let x : Val := .lit (decRat data)
      let raw := if s.cfg.demodCtrl.getLsbD 0 then push s.mem.rawh s.cfg.coefLen.at0.toNat x
        else s.mem.rawh
      let xf := if s.cfg.demodCtrl.getLsbD 0 then conv s.mem.coef.at0 raw s.cfg.coefLen.at0.toNat
        else x
      let n := s.cfg.coefLen.at1.toNat
      let ph : Val := .atan2 (conv s.mem.coef.at1 t.mem.qh.at0 n) (conv s.mem.coef.at1 t.mem.ih.at0 n)
      t.mem.rawh = raw ∧
      t.mem.ih = ⟨push s.mem.ih.at0 n (.mul xf (.cosPhase s.demod.oscPhase.at0)), s.mem.ih.at1⟩ ∧
      t.mem.qh = ⟨push s.mem.qh.at0 n (.mul xf (.sinPhase s.demod.oscPhase.at0)), s.mem.qh.at1⟩ ∧
      t.demod = { s.demod with
        oscPhase := ⟨s.demod.oscPhase.at0 + s.derived.oscInc.at0, s.demod.oscPhase.at1⟩
        prevPhase := ph } ∧
      let y : Val := .mul (unwrap s.num (.sub ph s.demod.prevPhase)) s.derived.discScale
      let sign := s.num.lt (.lit 0) y
      let u := if s.emits then (dfStep sign s).1 else s
      t.pll = s.pllRegisters sign ∧ t.df = u.df ∧ t.mem.frameBuf = u.mem.frameBuf ∧
      t.mem.slotBuf = u.mem.slotBuf ∧
      t.resp = some (s.dataResponse t sign (s.num.enc32 y)) ∧
      t.params = s.params ∧ t.mode = .run ∧ t.cfg = s.cfg ∧ t.derived = s.derived ∧
      t.mem.coef = s.mem.coef ∧ t.cmds = s.cmds

/-- Over a run of SAMPLEs of values the phase of oscillator 0 advances by the run's length times its
increment, modulo `2^32`, and so does that of oscillator 1 in the amplitude-comparison profile; in the
discriminator profile it stays (rules R164, R166). -/
def Obligations.PhaseAccumulates : Prop :=
  ∀ (xs : List U32) (s : State), s.mode = .run → (∀ x ∈ xs, isValue x = true) →
    ∃ t : State, runAll (xs.map .sample) s = some t ∧ t.mode = .run ∧ t.derived = s.derived ∧
      t.demod.oscPhase.at0.toNat =
        (s.demod.oscPhase.at0.toNat + xs.length * s.derived.oscInc.at0.toNat) % 2 ^ 32 ∧
      t.demod.oscPhase.at1.toNat =
        if s.cfg.profile = 0#32 then
          (s.demod.oscPhase.at1.toNat + xs.length * s.derived.oscInc.at1.toNat) % 2 ^ 32
        else s.demod.oscPhase.at1.toNat

/-- The history primitive: after any pushes into a history of zeros the convolution pairs `C[j]` with the
value pushed `N − 1 − j` pushes ago, with 0 for the pushes before reset (rules R12, R84). -/
def Obligations.ConvolutionPairsPushes : Prop :=
  ∀ (size n : Nat) (c xs : List Val), 1 ≤ n → n ≤ size → c.length = size →
    Val.toReal (conv c (xs.foldl (fun h x => push h n x) (List.replicate size (.lit 0))) n) =
      ∑ j ∈ Finset.range n,
        Val.toReal (c.getD j (.lit 0)) * Val.toReal (xs.reverse.getD (n - 1 - j) (.lit 0))

/-- The AGC over the real numbers: the envelopes move by the attack coefficient toward an input beyond
them and by the decay coefficient otherwise, never past it where the coefficients lie from 0 to 1; the
normalised output lies from −1/2 to 1/2 and is the clipped input's place between the envelopes, or 0; so
the profile's output, a difference of two, lies from −1 to 1 (rules R165, R170, R172(c)). -/
def Obligations.AgcNormaliser : Prop :=
  ∀ N : Machine.Num, N.IsReal → ∀ a d x e : Val,
    (Val.toReal (nextPeak N a d e x) =
      if Val.toReal e < Val.toReal x
      then Val.toReal x * Val.toReal a + Val.toReal e * (1 - Val.toReal a)
      else Val.toReal x * Val.toReal d + Val.toReal e * (1 - Val.toReal d)) ∧
    (Val.toReal (nextValley N a d e x) =
      if Val.toReal x < Val.toReal e
      then Val.toReal x * Val.toReal a + Val.toReal e * (1 - Val.toReal a)
      else Val.toReal x * Val.toReal d + Val.toReal e * (1 - Val.toReal d)) ∧
    (0 ≤ Val.toReal a → Val.toReal a ≤ 1 → 0 ≤ Val.toReal d → Val.toReal d ≤ 1 →
      min (Val.toReal x) (Val.toReal e) ≤ Val.toReal (nextPeak N a d e x) ∧
      Val.toReal (nextPeak N a d e x) ≤ max (Val.toReal x) (Val.toReal e) ∧
      min (Val.toReal x) (Val.toReal e) ≤ Val.toReal (nextValley N a d e x) ∧
      Val.toReal (nextValley N a d e x) ≤ max (Val.toReal x) (Val.toReal e)) ∧
    ∀ p v : Val,
      Val.toReal (normalised N x p v) =
        (if Val.toReal v < Val.toReal p then
          (max (min (Val.toReal x) (Val.toReal p)) (Val.toReal v) -
            (Val.toReal p + Val.toReal v) / 2) / (Val.toReal p - Val.toReal v)
        else 0) ∧
      |Val.toReal (normalised N x p v)| ≤ 1 / 2 ∧
      ∀ y q u : Val, |Val.toReal (.sub (normalised N x p v) (normalised N y q u))| ≤ 1

/-- `unwrap` over the real numbers brings a phase difference between −2π and 2π into `(−π, π]` by one
turn: above π a turn less, at or below −π a turn more, otherwise as it is; π stays and −π becomes π (rule
R167). -/
def Obligations.UnwrapBringsIntoRange : Prop :=
  ∀ N : Machine.Num, N.IsReal → ∀ r : Val,
    (Real.pi < Val.toReal r → Val.toReal (unwrap N r) = Val.toReal r - 2 * Real.pi) ∧
    (Val.toReal r ≤ -Real.pi → Val.toReal (unwrap N r) = Val.toReal r + 2 * Real.pi) ∧
    (-Real.pi < Val.toReal r → Val.toReal r ≤ Real.pi → Val.toReal (unwrap N r) = Val.toReal r) ∧
    (-(2 * Real.pi) < Val.toReal r → Val.toReal r < 2 * Real.pi →
      -Real.pi < Val.toReal (unwrap N r) ∧ Val.toReal (unwrap N r) ≤ Real.pi) ∧
    (Val.toReal r = Real.pi → Val.toReal (unwrap N r) = Real.pi) ∧
    (Val.toReal r = -Real.pi → Val.toReal (unwrap N r) = Real.pi)

/-- From a state with every history, envelope and the previous phase zero, such as START leaves, a run of
SAMPLEs of either zero pattern answers the output 0 each time, in both profiles and whatever the
coefficients, on the machine under `NUM_REAL` (rule R172(d)). -/
def Obligations.SilenceGivesZero : Prop :=
  ∀ (xs : List U32) (s : State), s.params.num = .real → s.mode = .run →
    (∀ x ∈ xs, x = 0x00000000#32 ∨ x = 0x80000000#32) →
    (∀ v ∈ s.mem.rawh, v = .lit 0) → (∀ k, ∀ v ∈ s.mem.ih.get k, v = .lit 0) →
    (∀ k, ∀ v ∈ s.mem.qh.get k, v = .lit 0) →
    s.demod.agcPeak = ⟨.lit 0, .lit 0⟩ → s.demod.agcValley = ⟨.lit 0, .lit 0⟩ →
    s.demod.prevPhase = .lit 0 →
    ∃ (t : State) (rs : List Response), runLog (xs.map .sample) s = some (t, rs) ∧
      rs.length = xs.length ∧ ∀ r ∈ rs, r.status = .ok ∧ r.data = 0x00000000#32

/-! ## The PLL -/

/-- The PLL step on any demodulated value, whose sign alone it uses: the PLL registers, and the deframer
step where the accumulator goes from non-negative to negative. DEMODIN in RUN of a value pattern is that
step on its value, with the echo of the operand; a pattern that is not a value is refused with
`ERR_OPERAND` (rules R190 to R197). -/
def Obligations.DemodinIsOnePllStep : Prop :=
  (∀ (d : Val) (s : State),
    let sign := s.num.lt (.lit 0) d
    let tr := decide (sign ≠ s.pll.prevSign)
    let s1 : State := { s with pll := s.pllRegisters sign }
    (s.emits = true → pllStep d s = ((dfStep sign s1).1,
      { bv := true, b := sign, tr := tr, df := (dfStep sign s1).2 })) ∧
    (s.emits = false → pllStep d s = (s1, { bv := false, b := false, tr := tr, df := .none }))) ∧
  (∀ (s : State) (data : U32), s.mode = .run → isValue data = false →
    exec (.demodin data) s = refusal s .errOperand) ∧
  ∀ (s : State) (data : U32), s.mode = .run → isValue data = true →
    let sign := decide (0 < decRat data)
    let s1 : State := { s with pll := s.pllRegisters sign }
    let t := if s.emits then (dfStep sign s1).1 else s1
    exec (.demodin data) s = .next { t with resp := some (s.dataResponse t sign data) }

/-- The nudge, for an inertia register START accepts: the signed accumulator times `K/65536`, truncated
toward zero; it is odd (where the accumulator has a negative), it never grows the magnitude, `K = 65536` changes nothing and `K = 0` gives 0; the
examples of rule R194. -/
def Obligations.NudgeProperties : Prop :=
  (∀ a k : U32, k.toNat ≤ 65536 →
    (nudge a k).toInt = (a.toInt * k.toNat).tdiv 65536 ∧ |(nudge a k).toInt| ≤ |a.toInt| ∧
    (a.toInt ≠ -2 ^ 31 → nudge (-a) k = -nudge a k) ∧ nudge a 65536#32 = a ∧ nudge a 0#32 = 0#32) ∧
  nudge (BitVec.ofInt 32 (-5)) 32768#32 = 0xFFFFFFFE#32 ∧
  nudge 0x80000000#32 48497#32 = 0xA1478000#32 ∧ nudge 0x20000000#32 48497#32 = 0x17AE2000#32

/-- For a step below `2^31` the bit decision is taken exactly where bit 31 of the accumulator goes from 0
to 1 (rules R191, R192). -/
def Obligations.WrapDetection : Prop :=
  ∀ prev step : U32, step.toNat < 2 ^ 31 →
    (wraps prev (prev + step) = true ↔
      prev.toNat < 2 ^ 31 ∧ 2 ^ 31 ≤ (prev.toNat + step.toNat) % 2 ^ 32) ∧
    (wraps prev (prev + step) = true ↔
      prev.toNat < 2 ^ 31 ∧ 2 ^ 31 ≤ prev.toNat + step.toNat)

/-- With no transition the accumulator is free-running: after a run of DEMODINs of the present sign it has
advanced by the run's length times `PLL_STEP`, and the responses carry one raw bit for each passage of the
half, which is the run's length times `PLL_STEP / 2^32` to within one (rule R199(a)). -/
def Obligations.FreeRunningPll : Prop :=
  ∀ (xs : List U32) (s : State), s.mode = .run → s.derived.pllStep.toNat < 2 ^ 31 →
    (∀ x ∈ xs, isValue x = true ∧ (0 < decRat x ↔ s.pll.prevSign = true)) →
    ∃ (t : State) (rs : List Response), runLog (xs.map .demodin) s = some (t, rs) ∧
      rs.length = xs.length ∧
      t.pll.acc.toNat = (s.pll.acc.toNat + xs.length * s.derived.pllStep.toNat) % 2 ^ 32 ∧
      (rs.filter fun r => r.fl.getLsbD 0).length + (s.pll.acc.toNat + 2 ^ 31) / 2 ^ 32 =
        (s.pll.acc.toNat + xs.length * s.derived.pllStep.toNat + 2 ^ 31) / 2 ^ 32 ∧
      |((rs.filter fun r => r.fl.getLsbD 0).length : Int) * 2 ^ 32 -
        xs.length * s.derived.pllStep.toNat| < 2 ^ 32

/-- The PLL is insensitive to amplitude: on two values of the same sign, SAMPLE's demodulated outputs
included, the PLL step is the same, and two DEMODINs of the same sign differ in the echoed operand alone
(rule R199(d)). -/
def Obligations.AmplitudeInsensitive : Prop :=
  (∀ (s : State) (d e : Val), s.num.lt (.lit 0) d = s.num.lt (.lit 0) e →
    pllStep d s = pllStep e s) ∧
  ∀ (s : State) (a b : U32), s.mode = .run → isValue a = true → isValue b = true →
    (0 < decRat a ↔ 0 < decRat b) →
    ∃ (t : State) (fl : U8) (aux : U16),
      exec (.demodin a) s = .next { t with resp := some (okResponse fl aux a) } ∧
      exec (.demodin b) s = .next { t with resp := some (okResponse fl aux b) }

/-- SETDD in RUN sets `DATA_DETECT` and nothing else (rule R198). -/
def Obligations.SetddWritesDataDetect : Prop :=
  ∀ (s : State) (bit : Bool), s.mode = .run →
    exec (.setdd bit) s = .next { s with
      pll := { s.pll with dataDetect := bit }
      resp := some (okResponse 0#8 0#16 0#32) }

/-- With the default `LOCKNEXT` no command but RESET and SETDD changes `DATA_DETECT` (rules R39, R196). -/
def Obligations.DataDetectHeld : Prop :=
  ∀ (i : Instr) (s t : State), s.params.lockNext = .hold → exec i s = .next t →
    t.pll.dataDetect ≠ s.pll.dataDetect → i = .reset ∨ ∃ bit, i = .setdd bit

/-! ## The deframer -/

/-- The deframer step, branch by branch: the flag, the Hunting guard, a counted bit, an appended octet
with and without a slot write, a dropped octet (rule R210). -/
def Obligations.DeframerStep : Prop :=
  ∀ (bit : Bool) (s : State),
    let d := decide (bit = s.df.prevRaw)
    let sr : Octet := BitVec.ofNat 8 (s.df.shiftReg.toNat / 2 + 128 * bitNat d)
    let acc : Octet := BitVec.ofNat 8 (s.df.octetAcc.toNat / 2 + 128 * bitNat d)
    let df1 : Deframer := { s.df with prevRaw := bit, shiftReg := sr }
    let buf := s.mem.frameBuf.set s.df.frameLen acc
    (sr = 0x7E#8 → dfStep bit s = ({ s with df := { df1 with
        octetAcc := 0#8, bitsInOctet := 0#3, frameLen := 0, overflow := false
        dfState := .filling } },
      { db := d, flg := true, fe := false, ovf := false })) ∧
    (sr ≠ 0x7E#8 → s.df.dfState = .hunting → dfStep bit s = ({ s with df := df1 },
      { db := d, flg := false, fe := false, ovf := false })) ∧
    (sr ≠ 0x7E#8 → s.df.dfState = .filling → s.df.bitsInOctet.toNat < 7 →
      dfStep bit s = ({ s with df := { df1 with
        octetAcc := acc, bitsInOctet := BitVec.ofNat 3 (s.df.bitsInOctet.toNat + 1) } },
        { db := d, flg := false, fe := false, ovf := false })) ∧
    (sr ≠ 0x7E#8 → s.df.dfState = .filling → s.df.bitsInOctet.toNat = 7 →
      (s.df.frameLen < s.cfg.frameMax.toNat → s.df.frameLen + 1 < s.cfg.frameMin.toNat →
        dfStep bit s = ({ s with
          mem := { s.mem with frameBuf := buf }
          df := { df1 with
            octetAcc := acc, bitsInOctet := 0#3, frameLen := s.df.frameLen + 1 } },
          { db := d, flg := false, fe := false, ovf := false })) ∧
      (s.df.frameLen < s.cfg.frameMax.toNat → s.cfg.frameMin.toNat ≤ s.df.frameLen + 1 →
        dfStep bit s = ({ s with
          mem := { s.mem with
            frameBuf := buf
            slotBuf := buf.take (s.df.frameLen + 1) ++ s.mem.slotBuf.drop (s.df.frameLen + 1) }
          df := { df1 with
            octetAcc := acc, bitsInOctet := 0#3, frameLen := s.df.frameLen + 1
            slotLen := s.df.frameLen + 1, slotValid := true } },
          { db := d, flg := false, fe := true, ovf := false })) ∧
      (s.cfg.frameMax.toNat ≤ s.df.frameLen →
        dfStep bit s = ({ s with df := { df1 with
          octetAcc := acc, bitsInOctet := 0#3, overflow := true, slotValid := false
          slotLen := 0 } },
          { db := d, flg := false, fe := false, ovf := true })))

/-- BITIN in RUN is one deframer step, reported in the flags, with `FRAME_LEN` (rule R219). -/
def Obligations.BitinIsOneDeframerStep : Prop :=
  ∀ (s : State) (bit : Bool), s.mode = .run →
    let r := dfStep bit s
    exec (.bitin bit) s = .next { r.1 with
      resp := some (okResponse
        (BitVec.ofNat 8 (1 + 2 * bitNat bit + 4 * bitNat r.2.db + 8 * bitNat r.2.flg +
          16 * bitNat r.2.fe + 32 * bitNat r.1.df.slotValid + 128 * bitNat r.2.ovf))
        (BitVec.ofNat 16 r.1.df.frameLen) 0#32) }

/-- The flags of the data-path commands: at most one of `FLG`, `FE` and `OVF`; where no bit was handed to
the deframer all five of its flags are 0; `FA` is `SLOT_VALID` and `aux` is `FRAME_LEN` after the step
(rules R112, R218). -/
def Obligations.DataPathFlags : Prop :=
  ∀ (i : Instr) (s t : State) (r : Response),
    (∃ x, i = .sample x ∨ i = .demodin x) ∨ (∃ b, i = .bitin b) →
    exec i s = .next t → t.resp = some r → r.status = .ok →
    (r.fl.getLsbD 3 && r.fl.getLsbD 4) = false ∧ (r.fl.getLsbD 3 && r.fl.getLsbD 7) = false ∧
    (r.fl.getLsbD 4 && r.fl.getLsbD 7) = false ∧
    (r.fl.getLsbD 0 = false → r.fl.getLsbD 1 = false ∧ r.fl.getLsbD 2 = false ∧
      r.fl.getLsbD 3 = false ∧ r.fl.getLsbD 4 = false ∧ r.fl.getLsbD 7 = false) ∧
    r.fl.getLsbD 5 = t.df.slotValid ∧ r.aux = BitVec.ofNat 16 t.df.frameLen ∧
    (∀ b, i = .bitin b → r.fl.getLsbD 0 = true ∧ r.fl.getLsbD 1 = b ∧ r.fl.getLsbD 6 = false)

/-- `frame_avail` is `SLOT_VALID`; it falls only at a FRAMERD, at an overflow and at RESET, and rises only
at a slot write (rule R50). -/
def Obligations.FrameAvailChanges : Prop :=
  (∀ s : State, s.frameAvail = s.df.slotValid) ∧
  (∀ (i : Instr) (s t : State), exec i s = .next t → s.frameAvail = true → t.frameAvail = false →
    i = .framerd ∨ i = .reset ∨
      (t.df.overflow = true ∧ ∃ r, t.resp = some r ∧ r.fl.getLsbD 7 = true)) ∧
  ∀ (i : Instr) (s t : State), exec i s = .next t → s.frameAvail = false → t.frameAvail = true →
    ∃ r, t.resp = some r ∧ r.fl.getLsbD 4 = true

/-- Eight decoded bits in state Filling, from an octet boundary and with no flag among the last eight
bits at any of them, assemble an octet with the first bit as bit 0 and the eighth as bit 7, appended to
the frame where it has room (rules R72, R215, R216). -/
def Obligations.OctetAssembly : Prop :=
  ∀ (s : State) (o : Octet), s.mode = .run → s.df.dfState = .filling → s.df.bitsInOctet = 0#3 →
    NoFlag (s.recentBits ++ octetBits o) 1 9 →
    ∃ t : State, runAll ((nrziSend s.df.prevRaw (octetBits o)).map .bitin) s = some t ∧
      t.mode = .run ∧ t.cfg = s.cfg ∧
      t.df.octetAcc = o ∧ t.df.bitsInOctet = 0#3 ∧ t.df.dfState = .filling ∧ t.df.shiftReg = o ∧
      (s.df.frameLen < s.cfg.frameMax.toNat →
        t.df.frameLen = s.df.frameLen + 1 ∧ t.mem.frameBuf = s.mem.frameBuf.set s.df.frameLen o) ∧
      (s.cfg.frameMax.toNat ≤ s.df.frameLen →
        t.df.frameLen = s.df.frameLen ∧ t.mem.frameBuf = s.mem.frameBuf ∧ t.df.overflow = true ∧
        t.df.slotValid = false)

/-- The deframer round trip: a frame of `FRAME_MIN` to `FRAME_MAX` octets sent between two flags, with no
other flag in the bits, is returned by a FRAMERD after the closing flag, from every RUN state of the
invariant (rule R222(a)). -/
def Obligations.FrameRoundTrip : Prop :=
  ∀ (s : State) (os : List Octet), s.Inv → s.mode = .run →
    s.cfg.frameMin.toNat ≤ os.length → os.length ≤ s.cfg.frameMax.toNat →
    NoFlag (flagBits ++ os.flatMap octetBits ++ flagBits) 1 (8 + 8 * os.length) →
    ∃ t u : State,
      runAll ((nrziSend s.df.prevRaw (flagBits ++ os.flatMap octetBits ++ flagBits)).map .bitin) s =
        some t ∧
      t.frameAvail = true ∧ exec .framerd t = .next u ∧
      u.resp = some { status := .ok, fl := 0x01#8, aux := BitVec.ofNat 16 os.length, data := 0#32
                      payload := os }

/-- A frame of more than `FRAME_MAX` octets between two flags leaves no frame in the slot at its closing
flag, and FRAMERD then returns none (rules R217, R222(c)). -/
def Obligations.OversizeFrameDropped : Prop :=
  ∀ (s : State) (os : List Octet), s.Inv → s.mode = .run → s.cfg.frameMax.toNat < os.length →
    NoFlag (flagBits ++ os.flatMap octetBits ++ flagBits) 1 (8 + 8 * os.length) →
    ∃ t : State,
      runAll ((nrziSend s.df.prevRaw (flagBits ++ os.flatMap octetBits ++ flagBits)).map .bitin) s =
        some t ∧
      t.df.slotValid = false ∧
      exec .framerd t = .next { t with resp := some (okResponse 0#8 0#16 0#32) }

/-- From the deframer's reset state raw bits whose decoding never shows the flag leave the deframer Hunting
and the slot empty; a constant level is such a run (rules R214, R222(d)). -/
def Obligations.SilentDeframer : Prop :=
  (∀ (s : State) (bs : List Bool), s.mode = .run → s.df.dfState = .hunting →
    s.df.slotValid = false → NoFlag (s.recentBits ++ bs) 1 (bs.length + 1) →
    ∃ t : State, runAll ((nrziSend s.df.prevRaw bs).map .bitin) s = some t ∧
      t.df.dfState = .hunting ∧ t.df.slotValid = false ∧ t.df.frameLen = s.df.frameLen) ∧
  ∀ (s : State) (level : Bool) (n : Nat), s.mode = .run → s.df = .reset →
    ∃ t : State, runAll (List.replicate n (.bitin level)) s = some t ∧
      t.df.dfState = .hunting ∧ t.df.slotValid = false ∧ t.df.frameLen = 0

/-- FRAMERD, in any mode: with a frame in the slot it returns its octets and its length and empties the
slot, leaving the frame in progress and the octets alone; with none it returns none; a second FRAMERD
returns none (rules R76, R111, R220). -/
def Obligations.FramerdReadsAndClears : Prop :=
  (∀ s : State, s.df.slotValid = true → s.df.slotLen ≤ s.mem.slotBuf.length →
    exec .framerd s = .next { s with
      df := { s.df with slotValid := false, slotLen := 0 }
      resp := some { status := .ok, fl := 0x01#8, aux := BitVec.ofNat 16 s.df.slotLen, data := 0#32
                     payload := s.mem.slotBuf.take s.df.slotLen } }) ∧
  (∀ s : State, s.df.slotValid = false →
    exec .framerd s = .next { s with resp := some (okResponse 0#8 0#16 0#32) }) ∧
  ∀ s t : State, exec .framerd s = .next t →
    exec .framerd t = .next { t with resp := some (okResponse 0#8 0#16 0#32) }

/-- The words on the port. A response word has the status code in bits 63:56, the flags in 55:48, `aux`
in 47:32 and `data` in 31:0; the codes are those of rule R260, each status has one, and a refused command
answers its code with all else zero and no payload (rules R102, R260). Of a payload, octet `k` stands in
bits `8·(k mod 8) + 7 : 8·(k mod 8)` of payload word `floor(k/8)`, the unused places of the last word are
0, and there are `ceil(L/8)` words (rules R73, R111). -/
def Obligations.ResponseWordAndPayload : Prop :=
  (∀ r : Response, r.word.extractLsb' 56 8 = r.status.code ∧ r.word.extractLsb' 48 8 = r.fl ∧
    r.word.extractLsb' 32 16 = r.aux ∧ r.word.extractLsb' 0 32 = r.data) ∧
  (∀ st : Status, (st, st.code) ∈ statusTable) ∧ (statusTable.map (·.1)).Nodup ∧
  (∀ (s t : State) (r : Response), step s = .next t → s.cmds ≠ [] → t.resp = some r →
    r.status ≠ .ok → r.word.toNat = r.status.code.toNat * 2 ^ 56 ∧ r.payload = []) ∧
  ∀ l : List Octet,
    (payloadWords l).length = (l.length + 7) / 8 ∧
    ∀ k, k < 8 * ((l.length + 7) / 8) →
      ((payloadWords l)[k / 8]?).map (fun w => w.extractLsb' (8 * (k % 8)) 8) =
        some (if k < l.length then l.getD k 0#8 else 0#8)
end

