-- ==== Sys2Proof/Laws/Codec.lean ====
section
/-!
SUPPORT. The port codec: the encoding of a rational number is that of the real number it is.
-/

namespace Sys2Proof.Machine

/-- The rounded quotient of two naturals is the rounded real quotient. -/
theorem roundHalfEven_real (n d : Nat) (hd : 0 < d) :
    realHalfEven ((n : ℝ) / d) = (roundHalfEven n d : Int) := by
  have hdr : (0 : ℝ) < d := by exact_mod_cast hd
  have hfl : ⌊(n : ℝ) / d⌋ = ((n / d : Nat) : Int) := by
    rw [← Nat.floor_div_eq_div (K := ℝ), Int.natCast_floor_eq_floor (by positivity)]
  have hsplit : (n : ℝ) / d - ((n / d : Nat) : ℝ) = ((n % d : Nat) : ℝ) / d := by
    have h : (n : ℝ) = d * ((n / d : Nat) : ℝ) + ((n % d : Nat) : ℝ) := by
      exact_mod_cast (Nat.div_add_mod n d).symm
    rw [eq_div_iff hdr.ne', sub_mul, div_mul_cancel₀ _ hdr.ne']
    linarith
  unfold realHalfEven roundHalfEven
  rw [hfl]
  simp only [Int.cast_natCast]
  rw [hsplit]
  have h1 : ((n % d : Nat) : ℝ) / d < 1 / 2 ↔ 2 * (n % d) < d := by
    rw [div_lt_div_iff₀ hdr two_pos, one_mul]
    constructor
    · intro h; have : (n % d) * 2 < d := by exact_mod_cast h
      omega
    · intro h; have : (n % d) * 2 < d := by omega
      exact_mod_cast this
  have h2 : 1 / 2 < ((n % d : Nat) : ℝ) / d ↔ d < 2 * (n % d) := by
    rw [div_lt_div_iff₀ two_pos hdr, one_mul]
    constructor
    · intro h; have : d < (n % d) * 2 := by exact_mod_cast h
      omega
    · intro h; have : d < (n % d) * 2 := by omega
      exact_mod_cast this
  simp only [h1, h2]
  split_ifs <;> first | rfl | omega

/-- The exponent of a quotient of naturals: `2^E ≤ n/d < 2^(E+1)` (rule R10). -/
theorem binaryExponent_spec {n d : Nat} (hn : 0 < n) (hd : 0 < d) :
    (2 : ℝ) ^ binaryExponent n d ≤ (n : ℝ) / d ∧ (n : ℝ) / d < 2 ^ (binaryExponent n d + 1) := by
  have hdr : (0 : ℝ) < d := by exact_mod_cast hd
  have hnr : (0 : ℝ) < n := by exact_mod_cast hn
  have n1 : (2 : ℝ) ^ n.log2 ≤ n := by exact_mod_cast Nat.log2_self_le hn.ne'
  have n2 : (n : ℝ) < 2 ^ (n.log2 + 1) := by exact_mod_cast Nat.lt_log2_self
  have d1 : (2 : ℝ) ^ d.log2 ≤ d := by exact_mod_cast Nat.log2_self_le hd.ne'
  have d2 : (d : ℝ) < 2 ^ (d.log2 + 1) := by exact_mod_cast Nat.lt_log2_self
  have two : (2 : ℝ) ≠ 0 := two_ne_zero
  set k : Int := (n.log2 : Int) - (d.log2 : Int) with hk
  -- the quotient lies within one binade of `2^k`
  have lower : (2 : ℝ) ^ (k - 1) ≤ (n : ℝ) / d := by
    have : k - 1 = (n.log2 : Int) - ((d.log2 + 1 : Nat) : Int) := by rw [hk]; push_cast; ring
    rw [this, zpow_sub₀ two, zpow_natCast, zpow_natCast]
    exact div_le_div₀ hnr.le n1 hdr d2.le
  have upper : (n : ℝ) / d < 2 ^ (k + 1) := by
    have : k + 1 = ((n.log2 + 1 : Nat) : Int) - (d.log2 : Int) := by rw [hk]; push_cast; ring
    rw [this, zpow_sub₀ two, zpow_natCast, zpow_natCast]
    exact div_lt_div₀ n2 d1 (by positivity) (by positivity)
  have fits : ((if 0 ≤ k then decide (d * 2 ^ k.toNat ≤ n)
      else decide (d ≤ n * 2 ^ (-k).toNat)) = true) ↔ (2 : ℝ) ^ k ≤ (n : ℝ) / d := by
    rw [le_div_iff₀ hdr]
    split
    · next h0 =>
      obtain ⟨m, hm⟩ := Int.eq_ofNat_of_zero_le h0
      rw [hm, Int.toNat_natCast, zpow_natCast, decide_eq_true_iff, mul_comm]
      exact_mod_cast Iff.rfl
    · next h0 =>
      obtain ⟨m, hm⟩ := Int.eq_ofNat_of_zero_le (show 0 ≤ -k by omega)
      have hk' : k = -(m : Int) := by omega
      rw [hm, hk', Int.toNat_natCast, zpow_neg, zpow_natCast, decide_eq_true_iff,
        inv_mul_le_iff₀ (by positivity), mul_comm]
      exact_mod_cast Iff.rfl
  unfold binaryExponent
  simp only [← hk]
  generalize (if 0 ≤ k then decide (d * 2 ^ k.toNat ≤ n)
    else decide (d ≤ n * 2 ^ (-k).toNat)) = b at fits ⊢
  cases b
  · rw [if_neg Bool.false_ne_true, sub_add_cancel]
    exact ⟨lower, lt_of_not_ge fun h => Bool.false_ne_true (fits.mpr h)⟩
  · rw [if_pos rfl]
    exact ⟨fits.mp rfl, upper⟩

/-- The exponent of a quotient of naturals is the exponent of the real quotient. -/
theorem binaryExponent_real {n d : Nat} (hn : 0 < n) (hd : 0 < d) :
    Int.log 2 ((n : ℝ) / d) = binaryExponent n d := by
  obtain ⟨h1, h2⟩ := binaryExponent_spec hn hd
  have hpos : (0 : ℝ) < (n : ℝ) / d := by positivity
  apply le_antisymm
  · have := (Int.lt_zpow_iff_log_lt (R := ℝ) (b := 2) one_lt_two hpos).mp (by exact_mod_cast h2)
    omega
  · exact (Int.zpow_le_iff_le_log (R := ℝ) (b := 2) one_lt_two hpos).mp (by exact_mod_cast h1)

theorem encMagnitude_real {n d : Nat} (hn : 0 < n) (hd : 0 < d) :
    realMagnitude ((n : ℝ) / d) = encMagnitude n d := by
  unfold realMagnitude encMagnitude
  rw [binaryExponent_real hn hd]
  set e : Int := max (binaryExponent n d) (-126) with he
  simp only
  congr 1
  split
  · next h =>
    obtain ⟨m, hm⟩ := Int.eq_ofNat_of_zero_le h
    have : (n : ℝ) / d / 2 ^ (e - 23) = ((n * 2 ^ m : Nat) : ℝ) / d := by
      have h2 : e - 23 = -(m : Int) := by omega
      rw [h2, zpow_neg, zpow_natCast, div_inv_eq_mul]
      push_cast
      ring
    rw [this, roundHalfEven_real _ _ hd, hm, Int.toNat_natCast, Int.toNat_natCast]
  · next h =>
    obtain ⟨m, hm⟩ := Int.eq_ofNat_of_zero_le (show 0 ≤ -(23 - e) by omega)
    have : (n : ℝ) / d / 2 ^ (e - 23) = (n : ℝ) / ((d * 2 ^ m : Nat) : ℝ) := by
      have h2 : e - 23 = (m : Int) := by omega
      rw [h2, zpow_natCast, div_div]
      push_cast
      ring
    rw [this, roundHalfEven_real _ _ (by positivity), hm, Int.toNat_natCast, Int.toNat_natCast]

/-- The encoding of a rational number is the encoding of the real number it is (rule R10). -/
theorem encRat_real (z : Bool) (q : Rat) : encReal z (q : ℝ) = encRat z q := by
  have hden : 0 < q.den := q.den_pos
  have hq : |(q : ℝ)| = (q.num.natAbs : ℝ) / q.den := by
    rw [show ((q.num.natAbs : Nat) : ℝ) = |(q.num : ℝ)| by
      rw [Nat.cast_natAbs, Int.cast_abs], Rat.cast_def, abs_div, Nat.abs_cast]
  have hneg : decide ((q : ℝ) < 0) = decide (q.num < 0) := by
    congr 1
    rw [Rat.cast_lt_zero, ← Rat.num_neg]
  unfold encReal encRat
  by_cases h0 : q.num = 0
  · rw [if_pos (by exact_mod_cast Rat.num_eq_zero.mp h0), if_pos h0]
  · have hne : q ≠ 0 := fun h => h0 (by rw [h]; rfl)
    have hnum : 0 < q.num.natAbs := Int.natAbs_pos.mpr h0
    have hb : ((overflowBound : Nat) : ℝ) = 2 ^ 128 - 2 ^ 103 := by
      unfold overflowBound
      norm_num
    rw [if_neg (by exact_mod_cast hne), if_neg h0, hq, hneg, ← hb]
    have : ((overflowBound : Nat) : ℝ) ≤ (q.num.natAbs : ℝ) / q.den ↔
        overflowBound * q.den ≤ q.num.natAbs := by
      rw [le_div_iff₀ (by exact_mod_cast hden)]
      exact_mod_cast Iff.rfl
    simp only [this, encMagnitude_real hnum hden]

end Sys2Proof.Machine
end

