-- ==== Sys2Proof/Laws/Decode.lean ====
section
/-!
SUPPORT. The fields of a word, and the words that four fields make.
-/

namespace Sys2Proof

theorem append_toNat {m n : Nat} (a : BitVec m) (b : BitVec n) :
    (a ++ b).toNat = a.toNat * 2 ^ n + b.toNat := by
  rw [BitVec.toNat_append, ← Nat.shiftLeft_add_eq_or_of_lt b.isLt, Nat.shiftLeft_eq]

/-- The number a word of four fields is (rule R100). -/
theorem fields_toNat (o : Opcode) (sel : U8) (idx : U16) (data : U32) :
    (fields o sel idx data).toNat =
      o.byte.toNat * 2 ^ 56 + sel.toNat * 2 ^ 48 + idx.toNat * 2 ^ 32 + data.toNat := by
  unfold fields
  rw [append_toNat, append_toNat, append_toNat]
  ring

theorem opField_toNat (w : Word) : (opField w).toNat = w.toNat / 2 ^ 56 := by
  have := w.isLt
  rw [opField, BitVec.extractLsb'_toNat, Nat.shiftRight_eq_div_pow]
  omega

theorem selField_toNat (w : Word) : (selField w).toNat = w.toNat / 2 ^ 48 % 2 ^ 8 := by
  rw [selField, BitVec.extractLsb'_toNat, Nat.shiftRight_eq_div_pow]

theorem idxField_toNat (w : Word) : (idxField w).toNat = w.toNat / 2 ^ 32 % 2 ^ 16 := by
  rw [idxField, BitVec.extractLsb'_toNat, Nat.shiftRight_eq_div_pow]

theorem dataField_toNat (w : Word) : (dataField w).toNat = w.toNat % 2 ^ 32 := by
  rw [dataField, BitVec.extractLsb'_toNat, Nat.shiftRight_zero]

@[simp] theorem opField_fields (o : Opcode) (sel : U8) (idx : U16) (data : U32) :
    opField (fields o sel idx data) = o.byte := by
  have h2 := sel.isLt
  have h3 := idx.isLt
  have h4 := data.isLt
  apply BitVec.eq_of_toNat_eq
  rw [opField_toNat, fields_toNat]
  omega

@[simp] theorem selField_fields (o : Opcode) (sel : U8) (idx : U16) (data : U32) :
    selField (fields o sel idx data) = sel := by
  have h2 := sel.isLt
  have h3 := idx.isLt
  have h4 := data.isLt
  apply BitVec.eq_of_toNat_eq
  rw [selField_toNat, fields_toNat]
  omega

@[simp] theorem idxField_fields (o : Opcode) (sel : U8) (idx : U16) (data : U32) :
    idxField (fields o sel idx data) = idx := by
  have h2 := sel.isLt
  have h3 := idx.isLt
  have h4 := data.isLt
  apply BitVec.eq_of_toNat_eq
  rw [idxField_toNat, fields_toNat]
  omega

@[simp] theorem dataField_fields (o : Opcode) (sel : U8) (idx : U16) (data : U32) :
    dataField (fields o sel idx data) = data := by
  have h2 := sel.isLt
  have h3 := idx.isLt
  have h4 := data.isLt
  apply BitVec.eq_of_toNat_eq
  rw [dataField_toNat, fields_toNat]
  omega

/-- A word is its four fields. -/
theorem word_eq_fields (w : Word) (o : Opcode) (h : opField w = o.byte) :
    w = fields o (selField w) (idxField w) (dataField w) := by
  have hw := w.isLt
  apply BitVec.eq_of_toNat_eq
  rw [fields_toNat, ← h, opField_toNat, selField_toNat, idxField_toNat, dataField_toNat]
  omega

/-- The byte of an operation code names it. -/
theorem Opcode.ofByte_byte (o : Opcode) : Opcode.ofByte o.byte = some o := by cases o <;> decide

theorem Opcode.byte_of_ofByte {b : U8} {o : Opcode} (h : Opcode.ofByte b = some o) : o.byte = b := by
  have := List.find?_some h
  simpa using this

/-- The bits of a word of fields under a mask of fields. -/
theorem fields_and (o : Opcode) (sel : U8) (idx : U16) (data : U32) (a b : U8) (c : U16) (d : U32) :
    fields o sel idx data &&& (a ++ b ++ c ++ d) =
      (o.byte &&& a) ++ (sel &&& b) ++ (idx &&& c) ++ (data &&& d) := by
  unfold fields
  rw [BitVec.and_append, BitVec.and_append, BitVec.and_append]

/-- A word of four fields is 0 when each field is. -/
theorem append_eq_zero_iff (a b : U8) (c : U16) (d : U32) :
    a ++ b ++ c ++ d = 0#64 ↔ a = 0#8 ∧ b = 0#8 ∧ c = 0#16 ∧ d = 0#32 := by
  have e : (a ++ b ++ c ++ d).toNat =
      a.toNat * 2 ^ 56 + b.toNat * 2 ^ 48 + c.toNat * 2 ^ 32 + d.toNat := by
    rw [append_toNat, append_toNat, append_toNat]
    ring
  constructor
  · intro h
    have h0 : (a ++ b ++ c ++ d).toNat = 0 := by rw [h]; rfl
    refine ⟨?_, ?_, ?_, ?_⟩ <;> apply BitVec.eq_of_toNat_eq <;> simp only [BitVec.toNat_ofNat] <;>
      omega
  · rintro ⟨rfl, rfl, rfl, rfl⟩
    rfl

end Sys2Proof
end

