-- ==== Sys2Proof/Laws/Two.lean ====
section
/-!
SUPPORT. Pairs and configuration registers: what is read after a write.
-/

namespace Sys2Proof

@[simp] theorem Two.get_set_self {α : Type} (p : Two α) (k : Ix) (a : α) : (p.set k a).get k = a := by
  cases k <;> rfl

theorem Two.get_set_ne {α : Type} (p : Two α) {k j : Ix} (a : α) (h : j ≠ k) :
    (p.set k a).get j = p.get j := by
  cases k <;> cases j <;> first | rfl | exact absurd rfl h

theorem Two.get_set {α : Type} (p : Two α) (k j : Ix) (a : α) :
    (p.set k a).get j = if j = k then a else p.get j := by
  cases k <;> cases j <;> rfl

@[simp] theorem Two.get_both {α : Type} (a : α) (k : Ix) : (Two.both a).get k = a := by
  cases k <;> rfl

@[simp] theorem Two.get_i0 {α : Type} (p : Two α) : p.get .i0 = p.at0 := rfl

@[simp] theorem Two.get_i1 {α : Type} (p : Two α) : p.get .i1 = p.at1 := rfl

theorem Two.eq_of_get {α : Type} {p q : Two α} (h : ∀ k, p.get k = q.get k) : p = q := by
  obtain ⟨a, b⟩ := p
  obtain ⟨c, d⟩ := q
  have h0 : a = c := h .i0
  have h1 : b = d := h .i1
  rw [h0, h1]

theorem Two.set_get_self {α : Type} (p : Two α) (k : Ix) : p.set k (p.get k) = p := by
  cases k <;> rfl

namespace Machine

@[simp] theorem Cfg.get_set_self (c : Cfg) (r : CfgReg) (v : U32) : (c.set r v).get r = v := by
  cases r <;> simp [Cfg.get, Cfg.set, Cfg.setSpec]

/-- A register keeps its content when another one is written. -/
theorem Cfg.get_set_ne (c : Cfg) {r q : CfgReg} (v : U32) (h : q ≠ r) :
    (c.set r v).get q = c.get q := by
  cases r <;> cases q <;>
    simp_all only [Cfg.get, Cfg.set, Cfg.setSpec, Two.get_set, ne_eq, reduceCtorEq, not_true,
      not_false_eq_true, CfgReg.fsKind.injEq, CfgReg.fsTaps.injEq, CfgReg.fsF1.injEq,
      CfgReg.fsF2.injEq, CfgReg.fsWindow.injEq, CfgReg.fsRolloff.injEq, CfgReg.fsSps.injEq,
      CfgReg.coefLen.injEq, if_false] <;>
    split <;> simp_all

theorem Cfg.get_set (c : Cfg) (r q : CfgReg) (v : U32) :
    (c.set r v).get q = if q = r then v else c.get q := by
  split
  · next h => rw [h, Cfg.get_set_self]
  · next h => exact c.get_set_ne v h

/-- A configuration is its registers. -/
theorem Cfg.eq_of_get {c d : Cfg} (h : ∀ r, c.get r = d.get r) : c = d := by
  have spec : ∀ b, c.spec.get b = d.spec.get b := by
    intro b
    have h1 := h (.fsKind b)
    have h2 := h (.fsTaps b)
    have h3 := h (.fsF1 b)
    have h4 := h (.fsF2 b)
    have h5 := h (.fsWindow b)
    have h6 := h (.fsRolloff b)
    have h7 := h (.fsSps b)
    simp only [Cfg.get] at h1 h2 h3 h4 h5 h6 h7
    cases hc : c.spec.get b
    cases hd : d.spec.get b
    simp_all
  have hs := Two.eq_of_get spec
  have hl : c.coefLen = d.coefLen := Two.eq_of_get fun b => h (.coefLen b)
  have a0 := h .sampleRate
  have a1 := h .symbolRate
  have a2 := h .markFreq
  have a3 := h .spaceFreq
  have a4 := h .profile
  have a5 := h .demodCtrl
  have a6 := h .agcAttack
  have a7 := h .agcDecay
  have a8 := h .pllLockedInertia
  have a9 := h .pllSearchInertia
  have a10 := h .frameMin
  have a11 := h .frameMax
  simp only [Cfg.get] at a0 a1 a2 a3 a4 a5 a6 a7 a8 a9 a10 a11
  cases c
  cases d
  simp_all

end Machine

end Sys2Proof
end

