-- ==== Sys2Proof/Laws/State.lean ====
section
/-!
SUPPORT. What each update of the state leaves in each field.
-/

namespace Sys2Proof.Machine

/-! `State.detect` -/

@[simp] theorem State.detect_params (s : State) (bit : Bool) : (s.detect bit).params = s.params := rfl
@[simp] theorem State.detect_mode (s : State) (bit : Bool) : (s.detect bit).mode = s.mode := rfl
@[simp] theorem State.detect_cfg (s : State) (bit : Bool) : (s.detect bit).cfg = s.cfg := rfl
@[simp] theorem State.detect_derived (s : State) (bit : Bool) : (s.detect bit).derived = s.derived := rfl
@[simp] theorem State.detect_mem (s : State) (bit : Bool) : (s.detect bit).mem = s.mem := rfl
@[simp] theorem State.detect_demod (s : State) (bit : Bool) : (s.detect bit).demod = s.demod := rfl
@[simp] theorem State.detect_pll (s : State) (bit : Bool) : (s.detect bit).pll = s.pll := rfl
@[simp] theorem State.detect_cmds (s : State) (bit : Bool) : (s.detect bit).cmds = s.cmds := rfl
@[simp] theorem State.detect_resp (s : State) (bit : Bool) : (s.detect bit).resp = s.resp := rfl

/-! `State.dropOctet` -/

@[simp] theorem State.dropOctet_params (s : State) : (s.dropOctet).params = s.params := rfl
@[simp] theorem State.dropOctet_mode (s : State) : (s.dropOctet).mode = s.mode := rfl
@[simp] theorem State.dropOctet_cfg (s : State) : (s.dropOctet).cfg = s.cfg := rfl
@[simp] theorem State.dropOctet_derived (s : State) : (s.dropOctet).derived = s.derived := rfl
@[simp] theorem State.dropOctet_mem (s : State) : (s.dropOctet).mem = s.mem := rfl
@[simp] theorem State.dropOctet_demod (s : State) : (s.dropOctet).demod = s.demod := rfl
@[simp] theorem State.dropOctet_pll (s : State) : (s.dropOctet).pll = s.pll := rfl
@[simp] theorem State.dropOctet_cmds (s : State) : (s.dropOctet).cmds = s.cmds := rfl
@[simp] theorem State.dropOctet_resp (s : State) : (s.dropOctet).resp = s.resp := rfl

/-! `State.appendOctet` -/

@[simp] theorem State.appendOctet_params (s : State) (o : Octet) : (s.appendOctet o).params = s.params := rfl
@[simp] theorem State.appendOctet_mode (s : State) (o : Octet) : (s.appendOctet o).mode = s.mode := rfl
@[simp] theorem State.appendOctet_cfg (s : State) (o : Octet) : (s.appendOctet o).cfg = s.cfg := rfl
@[simp] theorem State.appendOctet_derived (s : State) (o : Octet) : (s.appendOctet o).derived = s.derived := rfl
@[simp] theorem State.appendOctet_demod (s : State) (o : Octet) : (s.appendOctet o).demod = s.demod := rfl
@[simp] theorem State.appendOctet_pll (s : State) (o : Octet) : (s.appendOctet o).pll = s.pll := rfl
@[simp] theorem State.appendOctet_cmds (s : State) (o : Octet) : (s.appendOctet o).cmds = s.cmds := rfl
@[simp] theorem State.appendOctet_resp (s : State) (o : Octet) : (s.appendOctet o).resp = s.resp := rfl

/-! `State.writeSlot` -/

@[simp] theorem State.writeSlot_params (s : State) : (s.writeSlot).params = s.params := rfl
@[simp] theorem State.writeSlot_mode (s : State) : (s.writeSlot).mode = s.mode := rfl
@[simp] theorem State.writeSlot_cfg (s : State) : (s.writeSlot).cfg = s.cfg := rfl
@[simp] theorem State.writeSlot_derived (s : State) : (s.writeSlot).derived = s.derived := rfl
@[simp] theorem State.writeSlot_demod (s : State) : (s.writeSlot).demod = s.demod := rfl
@[simp] theorem State.writeSlot_pll (s : State) : (s.writeSlot).pll = s.pll := rfl
@[simp] theorem State.writeSlot_cmds (s : State) : (s.writeSlot).cmds = s.cmds := rfl
@[simp] theorem State.writeSlot_resp (s : State) : (s.writeSlot).resp = s.resp := rfl

/-! `State.pushMix` -/

@[simp] theorem State.pushMix_params (s : State) (t : Ix) (x : Val) : (s.pushMix t x).params = s.params := rfl
@[simp] theorem State.pushMix_mode (s : State) (t : Ix) (x : Val) : (s.pushMix t x).mode = s.mode := rfl
@[simp] theorem State.pushMix_cfg (s : State) (t : Ix) (x : Val) : (s.pushMix t x).cfg = s.cfg := rfl
@[simp] theorem State.pushMix_derived (s : State) (t : Ix) (x : Val) : (s.pushMix t x).derived = s.derived := rfl
@[simp] theorem State.pushMix_demod (s : State) (t : Ix) (x : Val) : (s.pushMix t x).demod = s.demod := rfl
@[simp] theorem State.pushMix_pll (s : State) (t : Ix) (x : Val) : (s.pushMix t x).pll = s.pll := rfl
@[simp] theorem State.pushMix_df (s : State) (t : Ix) (x : Val) : (s.pushMix t x).df = s.df := rfl
@[simp] theorem State.pushMix_cmds (s : State) (t : Ix) (x : Val) : (s.pushMix t x).cmds = s.cmds := rfl
@[simp] theorem State.pushMix_resp (s : State) (t : Ix) (x : Val) : (s.pushMix t x).resp = s.resp := rfl

/-! `State.advance` -/

@[simp] theorem State.advance_params (s : State) (t : Ix) : (s.advance t).params = s.params := rfl
@[simp] theorem State.advance_mode (s : State) (t : Ix) : (s.advance t).mode = s.mode := rfl
@[simp] theorem State.advance_cfg (s : State) (t : Ix) : (s.advance t).cfg = s.cfg := rfl
@[simp] theorem State.advance_derived (s : State) (t : Ix) : (s.advance t).derived = s.derived := rfl
@[simp] theorem State.advance_mem (s : State) (t : Ix) : (s.advance t).mem = s.mem := rfl
@[simp] theorem State.advance_pll (s : State) (t : Ix) : (s.advance t).pll = s.pll := rfl
@[simp] theorem State.advance_df (s : State) (t : Ix) : (s.advance t).df = s.df := rfl
@[simp] theorem State.advance_cmds (s : State) (t : Ix) : (s.advance t).cmds = s.cmds := rfl
@[simp] theorem State.advance_resp (s : State) (t : Ix) : (s.advance t).resp = s.resp := rfl

/-! `State.writeBank` -/

@[simp] theorem State.writeBank_params (s : State) (b : Ix) (n : Nat) (h : List Val) : (s.writeBank b n h).params = s.params := rfl
@[simp] theorem State.writeBank_mode (s : State) (b : Ix) (n : Nat) (h : List Val) : (s.writeBank b n h).mode = s.mode := rfl
@[simp] theorem State.writeBank_derived (s : State) (b : Ix) (n : Nat) (h : List Val) : (s.writeBank b n h).derived = s.derived := rfl
@[simp] theorem State.writeBank_demod (s : State) (b : Ix) (n : Nat) (h : List Val) : (s.writeBank b n h).demod = s.demod := rfl
@[simp] theorem State.writeBank_pll (s : State) (b : Ix) (n : Nat) (h : List Val) : (s.writeBank b n h).pll = s.pll := rfl
@[simp] theorem State.writeBank_df (s : State) (b : Ix) (n : Nat) (h : List Val) : (s.writeBank b n h).df = s.df := rfl
@[simp] theorem State.writeBank_cmds (s : State) (b : Ix) (n : Nat) (h : List Val) : (s.writeBank b n h).cmds = s.cmds := rfl
@[simp] theorem State.writeBank_resp (s : State) (b : Ix) (n : Nat) (h : List Val) : (s.writeBank b n h).resp = s.resp := rfl

/-! `State.withFetchWord` -/

@[simp] theorem State.withFetchWord_params (s : State) (n w : Nat) : (s.withFetchWord n w).params = s.params := rfl
@[simp] theorem State.withFetchWord_mode (s : State) (n w : Nat) : (s.withFetchWord n w).mode = s.mode := rfl
@[simp] theorem State.withFetchWord_cfg (s : State) (n w : Nat) : (s.withFetchWord n w).cfg = s.cfg := rfl
@[simp] theorem State.withFetchWord_derived (s : State) (n w : Nat) : (s.withFetchWord n w).derived = s.derived := rfl
@[simp] theorem State.withFetchWord_mem (s : State) (n w : Nat) : (s.withFetchWord n w).mem = s.mem := rfl
@[simp] theorem State.withFetchWord_demod (s : State) (n w : Nat) : (s.withFetchWord n w).demod = s.demod := rfl
@[simp] theorem State.withFetchWord_pll (s : State) (n w : Nat) : (s.withFetchWord n w).pll = s.pll := rfl
@[simp] theorem State.withFetchWord_df (s : State) (n w : Nat) : (s.withFetchWord n w).df = s.df := rfl
@[simp] theorem State.withFetchWord_resp (s : State) (n w : Nat) : (s.withFetchWord n w).resp = s.resp := rfl

/-! The fields of the parts that change -/

@[simp] theorem State.detect_df_prevRaw (s : State) (bit : Bool) :
    (s.detect bit).df.prevRaw = bit := rfl
@[simp] theorem State.detect_df_shiftReg (s : State) (bit : Bool) :
    (s.detect bit).df.shiftReg = shiftIn s.df.shiftReg (nrzi bit s.df.prevRaw) := rfl
@[simp] theorem State.detect_df_octetAcc (s : State) (bit : Bool) :
    (s.detect bit).df.octetAcc = s.df.octetAcc := rfl
@[simp] theorem State.detect_df_bitsInOctet (s : State) (bit : Bool) :
    (s.detect bit).df.bitsInOctet = s.df.bitsInOctet := rfl
@[simp] theorem State.detect_df_dfState (s : State) (bit : Bool) :
    (s.detect bit).df.dfState = s.df.dfState := rfl
@[simp] theorem State.detect_df_overflow (s : State) (bit : Bool) :
    (s.detect bit).df.overflow = s.df.overflow := rfl
@[simp] theorem State.detect_df_frameLen (s : State) (bit : Bool) :
    (s.detect bit).df.frameLen = s.df.frameLen := rfl
@[simp] theorem State.detect_df_slotLen (s : State) (bit : Bool) :
    (s.detect bit).df.slotLen = s.df.slotLen := rfl
@[simp] theorem State.detect_df_slotValid (s : State) (bit : Bool) :
    (s.detect bit).df.slotValid = s.df.slotValid := rfl
@[simp] theorem State.dropOctet_df_prevRaw (s : State) :
    (s.dropOctet).df.prevRaw = s.df.prevRaw := rfl
@[simp] theorem State.dropOctet_df_shiftReg (s : State) :
    (s.dropOctet).df.shiftReg = s.df.shiftReg := rfl
@[simp] theorem State.dropOctet_df_octetAcc (s : State) :
    (s.dropOctet).df.octetAcc = s.df.octetAcc := rfl
@[simp] theorem State.dropOctet_df_bitsInOctet (s : State) :
    (s.dropOctet).df.bitsInOctet = s.df.bitsInOctet := rfl
@[simp] theorem State.dropOctet_df_dfState (s : State) :
    (s.dropOctet).df.dfState = s.df.dfState := rfl
@[simp] theorem State.dropOctet_df_overflow (s : State) :
    (s.dropOctet).df.overflow = true := rfl
@[simp] theorem State.dropOctet_df_frameLen (s : State) :
    (s.dropOctet).df.frameLen = s.df.frameLen := rfl
@[simp] theorem State.dropOctet_df_slotLen (s : State) :
    (s.dropOctet).df.slotLen = 0 := rfl
@[simp] theorem State.dropOctet_df_slotValid (s : State) :
    (s.dropOctet).df.slotValid = false := rfl
@[simp] theorem State.appendOctet_mem_coef (s : State) (o : Octet) :
    (s.appendOctet o).mem.coef = s.mem.coef := rfl
@[simp] theorem State.appendOctet_mem_rawh (s : State) (o : Octet) :
    (s.appendOctet o).mem.rawh = s.mem.rawh := rfl
@[simp] theorem State.appendOctet_mem_ih (s : State) (o : Octet) :
    (s.appendOctet o).mem.ih = s.mem.ih := rfl
@[simp] theorem State.appendOctet_mem_qh (s : State) (o : Octet) :
    (s.appendOctet o).mem.qh = s.mem.qh := rfl
@[simp] theorem State.appendOctet_mem_frameBuf (s : State) (o : Octet) :
    (s.appendOctet o).mem.frameBuf = s.mem.frameBuf.set s.df.frameLen o := rfl
@[simp] theorem State.appendOctet_mem_slotBuf (s : State) (o : Octet) :
    (s.appendOctet o).mem.slotBuf = s.mem.slotBuf := rfl
@[simp] theorem State.appendOctet_df_prevRaw (s : State) (o : Octet) :
    (s.appendOctet o).df.prevRaw = s.df.prevRaw := rfl
@[simp] theorem State.appendOctet_df_shiftReg (s : State) (o : Octet) :
    (s.appendOctet o).df.shiftReg = s.df.shiftReg := rfl
@[simp] theorem State.appendOctet_df_octetAcc (s : State) (o : Octet) :
    (s.appendOctet o).df.octetAcc = s.df.octetAcc := rfl
@[simp] theorem State.appendOctet_df_bitsInOctet (s : State) (o : Octet) :
    (s.appendOctet o).df.bitsInOctet = s.df.bitsInOctet := rfl
@[simp] theorem State.appendOctet_df_dfState (s : State) (o : Octet) :
    (s.appendOctet o).df.dfState = s.df.dfState := rfl
@[simp] theorem State.appendOctet_df_overflow (s : State) (o : Octet) :
    (s.appendOctet o).df.overflow = s.df.overflow := rfl
@[simp] theorem State.appendOctet_df_frameLen (s : State) (o : Octet) :
    (s.appendOctet o).df.frameLen = s.df.frameLen + 1 := rfl
@[simp] theorem State.appendOctet_df_slotLen (s : State) (o : Octet) :
    (s.appendOctet o).df.slotLen = s.df.slotLen := rfl
@[simp] theorem State.appendOctet_df_slotValid (s : State) (o : Octet) :
    (s.appendOctet o).df.slotValid = s.df.slotValid := rfl
@[simp] theorem State.writeSlot_mem_coef (s : State) :
    (s.writeSlot).mem.coef = s.mem.coef := rfl
@[simp] theorem State.writeSlot_mem_rawh (s : State) :
    (s.writeSlot).mem.rawh = s.mem.rawh := rfl
@[simp] theorem State.writeSlot_mem_ih (s : State) :
    (s.writeSlot).mem.ih = s.mem.ih := rfl
@[simp] theorem State.writeSlot_mem_qh (s : State) :
    (s.writeSlot).mem.qh = s.mem.qh := rfl
@[simp] theorem State.writeSlot_mem_frameBuf (s : State) :
    (s.writeSlot).mem.frameBuf = s.mem.frameBuf := rfl
@[simp] theorem State.writeSlot_mem_slotBuf (s : State) :
    (s.writeSlot).mem.slotBuf = s.mem.frameBuf.take s.df.frameLen ++ s.mem.slotBuf.drop s.df.frameLen := rfl
@[simp] theorem State.writeSlot_df_prevRaw (s : State) :
    (s.writeSlot).df.prevRaw = s.df.prevRaw := rfl
@[simp] theorem State.writeSlot_df_shiftReg (s : State) :
    (s.writeSlot).df.shiftReg = s.df.shiftReg := rfl
@[simp] theorem State.writeSlot_df_octetAcc (s : State) :
    (s.writeSlot).df.octetAcc = s.df.octetAcc := rfl
@[simp] theorem State.writeSlot_df_bitsInOctet (s : State) :
    (s.writeSlot).df.bitsInOctet = s.df.bitsInOctet := rfl
@[simp] theorem State.writeSlot_df_dfState (s : State) :
    (s.writeSlot).df.dfState = s.df.dfState := rfl
@[simp] theorem State.writeSlot_df_overflow (s : State) :
    (s.writeSlot).df.overflow = s.df.overflow := rfl
@[simp] theorem State.writeSlot_df_frameLen (s : State) :
    (s.writeSlot).df.frameLen = s.df.frameLen := rfl
@[simp] theorem State.writeSlot_df_slotLen (s : State) :
    (s.writeSlot).df.slotLen = s.df.frameLen := rfl
@[simp] theorem State.writeSlot_df_slotValid (s : State) :
    (s.writeSlot).df.slotValid = true := rfl
@[simp] theorem State.pushMix_mem_coef (s : State) (t : Ix) (x : Val) :
    (s.pushMix t x).mem.coef = s.mem.coef := rfl
@[simp] theorem State.pushMix_mem_rawh (s : State) (t : Ix) (x : Val) :
    (s.pushMix t x).mem.rawh = s.mem.rawh := rfl
@[simp] theorem State.pushMix_mem_ih (s : State) (t : Ix) (x : Val) :
    (s.pushMix t x).mem.ih = s.mem.ih.set t (push (s.mem.ih.get t) (s.cfg.tapCount .i1)
      (.mul x (.cosPhase (s.demod.oscPhase.get t)))) := rfl
@[simp] theorem State.pushMix_mem_qh (s : State) (t : Ix) (x : Val) :
    (s.pushMix t x).mem.qh = s.mem.qh.set t (push (s.mem.qh.get t) (s.cfg.tapCount .i1)
      (.mul x (.sinPhase (s.demod.oscPhase.get t)))) := rfl
@[simp] theorem State.pushMix_mem_frameBuf (s : State) (t : Ix) (x : Val) :
    (s.pushMix t x).mem.frameBuf = s.mem.frameBuf := rfl
@[simp] theorem State.pushMix_mem_slotBuf (s : State) (t : Ix) (x : Val) :
    (s.pushMix t x).mem.slotBuf = s.mem.slotBuf := rfl
@[simp] theorem State.advance_demod_oscPhase (s : State) (t : Ix) :
    (s.advance t).demod.oscPhase = s.demod.oscPhase.set t (s.demod.oscPhase.get t + s.derived.oscInc.get t) := rfl
@[simp] theorem State.advance_demod_agcPeak (s : State) (t : Ix) :
    (s.advance t).demod.agcPeak = s.demod.agcPeak := rfl
@[simp] theorem State.advance_demod_agcValley (s : State) (t : Ix) :
    (s.advance t).demod.agcValley = s.demod.agcValley := rfl
@[simp] theorem State.advance_demod_prevPhase (s : State) (t : Ix) :
    (s.advance t).demod.prevPhase = s.demod.prevPhase := rfl
@[simp] theorem State.writeBank_mem_coef (s : State) (b : Ix) (n : Nat) (h : List Val) :
    (s.writeBank b n h).mem.coef = s.mem.coef.set b
      ((List.range s.params.maxTaps).map fun i => if i < n then h.getD i .zero else .zero) := rfl
@[simp] theorem State.writeBank_mem_rawh (s : State) (b : Ix) (n : Nat) (h : List Val) :
    (s.writeBank b n h).mem.rawh = s.mem.rawh := rfl
@[simp] theorem State.writeBank_mem_ih (s : State) (b : Ix) (n : Nat) (h : List Val) :
    (s.writeBank b n h).mem.ih = s.mem.ih := rfl
@[simp] theorem State.writeBank_mem_qh (s : State) (b : Ix) (n : Nat) (h : List Val) :
    (s.writeBank b n h).mem.qh = s.mem.qh := rfl
@[simp] theorem State.writeBank_mem_frameBuf (s : State) (b : Ix) (n : Nat) (h : List Val) :
    (s.writeBank b n h).mem.frameBuf = s.mem.frameBuf := rfl
@[simp] theorem State.writeBank_mem_slotBuf (s : State) (b : Ix) (n : Nat) (h : List Val) :
    (s.writeBank b n h).mem.slotBuf = s.mem.slotBuf := rfl
@[simp] theorem State.writeBank_cfg_sampleRate (s : State) (b : Ix) (n : Nat) (h : List Val) :
    (s.writeBank b n h).cfg.sampleRate = s.cfg.sampleRate := rfl
@[simp] theorem State.writeBank_cfg_symbolRate (s : State) (b : Ix) (n : Nat) (h : List Val) :
    (s.writeBank b n h).cfg.symbolRate = s.cfg.symbolRate := rfl
@[simp] theorem State.writeBank_cfg_markFreq (s : State) (b : Ix) (n : Nat) (h : List Val) :
    (s.writeBank b n h).cfg.markFreq = s.cfg.markFreq := rfl
@[simp] theorem State.writeBank_cfg_spaceFreq (s : State) (b : Ix) (n : Nat) (h : List Val) :
    (s.writeBank b n h).cfg.spaceFreq = s.cfg.spaceFreq := rfl
@[simp] theorem State.writeBank_cfg_profile (s : State) (b : Ix) (n : Nat) (h : List Val) :
    (s.writeBank b n h).cfg.profile = s.cfg.profile := rfl
@[simp] theorem State.writeBank_cfg_demodCtrl (s : State) (b : Ix) (n : Nat) (h : List Val) :
    (s.writeBank b n h).cfg.demodCtrl = s.cfg.demodCtrl := rfl
@[simp] theorem State.writeBank_cfg_agcAttack (s : State) (b : Ix) (n : Nat) (h : List Val) :
    (s.writeBank b n h).cfg.agcAttack = s.cfg.agcAttack := rfl
@[simp] theorem State.writeBank_cfg_agcDecay (s : State) (b : Ix) (n : Nat) (h : List Val) :
    (s.writeBank b n h).cfg.agcDecay = s.cfg.agcDecay := rfl
@[simp] theorem State.writeBank_cfg_pllLockedInertia (s : State) (b : Ix) (n : Nat) (h : List Val) :
    (s.writeBank b n h).cfg.pllLockedInertia = s.cfg.pllLockedInertia := rfl
@[simp] theorem State.writeBank_cfg_pllSearchInertia (s : State) (b : Ix) (n : Nat) (h : List Val) :
    (s.writeBank b n h).cfg.pllSearchInertia = s.cfg.pllSearchInertia := rfl
@[simp] theorem State.writeBank_cfg_frameMin (s : State) (b : Ix) (n : Nat) (h : List Val) :
    (s.writeBank b n h).cfg.frameMin = s.cfg.frameMin := rfl
@[simp] theorem State.writeBank_cfg_frameMax (s : State) (b : Ix) (n : Nat) (h : List Val) :
    (s.writeBank b n h).cfg.frameMax = s.cfg.frameMax := rfl
@[simp] theorem State.writeBank_cfg_spec (s : State) (b : Ix) (n : Nat) (h : List Val) :
    (s.writeBank b n h).cfg.spec = s.cfg.spec := rfl
@[simp] theorem State.writeBank_cfg_coefLen (s : State) (b : Ix) (n : Nat) (h : List Val) :
    (s.writeBank b n h).cfg.coefLen = s.cfg.coefLen.set b (BitVec.ofNat 32 n) := rfl

/-! `Deframer.atFlag` -/

@[simp] theorem Deframer.atFlag_prevRaw (d : Deframer) : d.atFlag.prevRaw = d.prevRaw := rfl
@[simp] theorem Deframer.atFlag_shiftReg (d : Deframer) : d.atFlag.shiftReg = d.shiftReg := rfl
@[simp] theorem Deframer.atFlag_octetAcc (d : Deframer) : d.atFlag.octetAcc = 0#8 := rfl
@[simp] theorem Deframer.atFlag_bitsInOctet (d : Deframer) : d.atFlag.bitsInOctet = 0#3 := rfl
@[simp] theorem Deframer.atFlag_dfState (d : Deframer) : d.atFlag.dfState = .filling := rfl
@[simp] theorem Deframer.atFlag_overflow (d : Deframer) : d.atFlag.overflow = false := rfl
@[simp] theorem Deframer.atFlag_frameLen (d : Deframer) : d.atFlag.frameLen = 0 := rfl
@[simp] theorem Deframer.atFlag_slotLen (d : Deframer) : d.atFlag.slotLen = d.slotLen := rfl
@[simp] theorem Deframer.atFlag_slotValid (d : Deframer) : d.atFlag.slotValid = d.slotValid := rfl

/-! `Memory.setCoef` -/

@[simp] theorem Memory.setCoef_coef (m : Memory) (b : Ix) (i : Nat) (v : Val) :
    (m.setCoef b i v).coef = m.coef.set b ((m.coef.get b).set i v) := rfl
@[simp] theorem Memory.setCoef_rawh (m : Memory) (b : Ix) (i : Nat) (v : Val) :
    (m.setCoef b i v).rawh = m.rawh := rfl
@[simp] theorem Memory.setCoef_ih (m : Memory) (b : Ix) (i : Nat) (v : Val) :
    (m.setCoef b i v).ih = m.ih := rfl
@[simp] theorem Memory.setCoef_qh (m : Memory) (b : Ix) (i : Nat) (v : Val) :
    (m.setCoef b i v).qh = m.qh := rfl
@[simp] theorem Memory.setCoef_frameBuf (m : Memory) (b : Ix) (i : Nat) (v : Val) :
    (m.setCoef b i v).frameBuf = m.frameBuf := rfl
@[simp] theorem Memory.setCoef_slotBuf (m : Memory) (b : Ix) (i : Nat) (v : Val) :
    (m.setCoef b i v).slotBuf = m.slotBuf := rfl

end Sys2Proof.Machine
end

