-- ==== Sys2Proof/Laws/Ops.lean ====
section
/-!
SUPPORT. The shared operations: ending a command, the checks, the history primitive, and the form of the
storage spaces, which every memory operation keeps.
-/

namespace Sys2Proof.Machine

/-! Ending a command -/

theorem State.check_true (s : State) {b : Bool} (h : b = true) (st : Status) (go : Result) :
    s.check b st go = go := if_pos h

theorem State.check_false (s : State) {b : Bool} (h : b = false) (st : Status) (go : Result) :
    s.check b st go = s.raise st := if_neg (by rw [h]; exact Bool.false_ne_true)

/-- A check either lets the command go on or ends it with its error. -/
theorem State.check_cases (s : State) (b : Bool) (st : Status) (go : Result) :
    (b = true ∧ s.check b st go = go) ∨ (b = false ∧ s.check b st go = s.raise st) := by
  cases b
  · exact .inr ⟨rfl, rfl⟩
  · exact .inl ⟨rfl, rfl⟩

theorem State.inMode_of_eq (s : State) {m : Mode} (h : s.mode = m) (go : Result) :
    s.inMode m go = go := s.check_true (decide_eq_true h) _ _

theorem State.inMode_of_ne (s : State) {m : Mode} (h : s.mode ≠ m) (go : Result) :
    s.inMode m go = s.raise .errMode := s.check_false (decide_eq_false h) _ _

/-- The mode check lets the command go on in its mode and ends it with `ERR_MODE` in the other. -/
theorem State.inMode_cases (s : State) (m : Mode) (go : Result) :
    (s.mode = m ∧ s.inMode m go = go) ∨ (s.mode ≠ m ∧ s.inMode m go = s.raise .errMode) := by
  by_cases h : s.mode = m
  · exact .inl ⟨h, s.inMode_of_eq h go⟩
  · exact .inr ⟨h, s.inMode_of_ne h go⟩

/-- `raise` changes the response alone. -/
theorem State.raise_next {s t : State} {st : Status} (h : s.raise st = .next t) :
    t = { s with resp := some (.error st) } := by
  cases h
  rfl

/-- `respond` changes the response alone. -/
theorem State.respondWith_next {s t : State} {fl : U8} {aux : U16} {data : U32} {l : List Octet}
    (h : s.respondWith fl aux data l = .next t) :
    t = { s with resp := some { status := .ok, fl := fl, aux := aux, data := data, payload := l } } := by
  cases h
  rfl

/-! The history primitive -/

/-- What each place of a history holds after a push (rule R12). -/
theorem push_getElem? {h : List Val} {n : Nat} (x : Val) (hn : 1 ≤ n) (hl : n ≤ h.length) (j : Nat) :
    (push h n x)[j]? =
      if j + 1 < n then h[j + 1]? else if j + 1 = n then some x else h[j]? := by
  obtain ⟨k, rfl⟩ : ∃ k, n = k + 1 := ⟨n - 1, by omega⟩
  have hlen : ((h.take (k + 1)).drop 1).length = k := by
    rw [List.length_drop, List.length_take]; omega
  unfold push
  split_ifs with h1 h2
  · rw [List.getElem?_append_left (by omega), List.getElem?_drop, List.getElem?_take,
      if_pos (by omega), Nat.add_comm]
  · rw [List.getElem?_append_right (by omega), hlen]
    have : j - k = 0 := by omega
    rw [this, List.getElem?_cons_zero]
  · rw [List.getElem?_append_right (by omega), hlen]
    obtain ⟨m, hm⟩ : ∃ m, j - k = m + 1 := ⟨j - k - 1, by omega⟩
    rw [hm, List.getElem?_cons_succ, List.getElem?_drop]
    congr 1
    omega

/-- A push does not change the size of a history. -/
theorem push_length {h : List Val} {n : Nat} (x : Val) (hl : n ≤ h.length) :
    (push h n x).length = h.length := by
  cases n with
  | zero => rfl
  | succ k =>
    simp only [push, List.length_append, List.length_cons, List.length_drop, List.length_take]
    omega

/-! The form of the storage spaces -/

theorem Memory.wf_reset (maxTaps maxFrame : Nat) :
    (Memory.reset maxTaps maxFrame).wf maxTaps maxFrame := by
  refine ⟨fun b => ?_, ?_, fun t => ?_, fun t => ?_, ?_, ?_⟩ <;> simp [Memory.reset]

theorem Memory.wf.setCoef {m : Memory} {p q : Nat} (h : m.wf p q) (b : Ix) (i : Nat) (v : Val) :
    (m.setCoef b i v).wf p q := by
  refine ⟨fun c => ?_, h.2⟩
  rw [Memory.setCoef_coef, Two.get_set]
  split
  · rw [List.length_set, h.1 b]
  · exact h.1 c

theorem State.writeBank_wf {s : State} {q : Nat} (h : s.mem.wf s.params.maxTaps q) (b : Ix) (n : Nat)
    (l : List Val) : (s.writeBank b n l).mem.wf s.params.maxTaps q := by
  refine ⟨fun c => ?_, h.2⟩
  rw [State.writeBank_mem_coef, Two.get_set]
  split
  · rw [List.length_map, List.length_range]
  · exact h.1 c

theorem State.appendOctet_wf {s : State} {p q : Nat} (h : s.mem.wf p q) (o : Octet) :
    (s.appendOctet o).mem.wf p q := by
  refine ⟨h.1, h.2.1, h.2.2.1, h.2.2.2.1, ?_, h.2.2.2.2.2⟩
  rw [State.appendOctet_mem_frameBuf, List.length_set]
  exact h.2.2.2.2.1

theorem State.writeSlot_wf {s : State} {p q : Nat} (h : s.mem.wf p q) (hl : s.df.frameLen ≤ q) :
    s.writeSlot.mem.wf p q := by
  refine ⟨h.1, h.2.1, h.2.2.1, h.2.2.2.1, h.2.2.2.2.1, ?_⟩
  rw [State.writeSlot_mem_slotBuf, List.length_append, List.length_take, List.length_drop,
    h.2.2.2.2.1, h.2.2.2.2.2]
  omega

theorem State.pushMix_wf {s : State} {p q : Nat} (h : s.mem.wf p q) (hn : s.cfg.tapCount .i1 ≤ p)
    (t : Ix) (x : Val) : (s.pushMix t x).mem.wf p q := by
  refine ⟨h.1, h.2.1, fun c => ?_, fun c => ?_, h.2.2.2.2⟩
  · rw [State.pushMix_mem_ih, Two.get_set]
    split
    · rw [push_length _ (by rw [h.2.2.1]; exact hn), h.2.2.1]
    · exact h.2.2.1 c
  · rw [State.pushMix_mem_qh, Two.get_set]
    split
    · rw [push_length _ (by rw [h.2.2.2.1]; exact hn), h.2.2.2.1]
    · exact h.2.2.2.1 c

/-- The state after reset has its storage spaces in form. -/
theorem State.reset_wf :
    State.reset.mem.wf State.reset.params.maxTaps State.reset.params.maxFrame :=
  Memory.wf_reset _ _

end Sys2Proof.Machine
end

