-- ==== Sys2Proof/Laws/Deframer.lean ====
section
/-!
SUPPORT. The deframer step: everything it can do, and what it leaves alone.
-/

namespace Sys2Proof.Machine

/-- What the deframer never writes: everything but its own registers and the two octet buffers. -/
structure SameButDeframer (s t : State) : Prop where
  params : t.params = s.params
  mode : t.mode = s.mode
  cfg : t.cfg = s.cfg
  derived : t.derived = s.derived
  demod : t.demod = s.demod
  pll : t.pll = s.pll
  cmds : t.cmds = s.cmds
  resp : t.resp = s.resp
  coef : t.mem.coef = s.mem.coef
  rawh : t.mem.rawh = s.mem.rawh
  ih : t.mem.ih = s.mem.ih
  qh : t.mem.qh = s.mem.qh

/-- The three outcomes of a deframer step: the flag, the Hunting guard, octet accumulation. -/
theorem dfStep_cases (bit : Bool) (s : State) :
    ((s.detect bit).df.shiftReg = flagPattern ∧
      dfStep bit s = ({ s.detect bit with df := (s.detect bit).df.atFlag },
        { db := nrzi bit s.df.prevRaw, flg := true, fe := false, ovf := false })) ∨
    ((s.detect bit).df.shiftReg ≠ flagPattern ∧ s.df.dfState = .hunting ∧
      dfStep bit s = (s.detect bit,
        { db := nrzi bit s.df.prevRaw, flg := false, fe := false, ovf := false })) ∨
    ((s.detect bit).df.shiftReg ≠ flagPattern ∧ s.df.dfState = .filling ∧
      dfStep bit s = accumulate (nrzi bit s.df.prevRaw) (s.detect bit)) := by
  unfold dfStep
  by_cases h : (s.detect bit).df.shiftReg = flagPattern
  · exact .inl ⟨h, if_pos h⟩
  · cases hd : s.df.dfState
    · refine .inr (.inl ⟨h, rfl, ?_⟩)
      simp only [if_neg h]
      rw [State.detect_df_dfState, hd]
    · refine .inr (.inr ⟨h, rfl, ?_⟩)
      simp only [if_neg h]
      rw [State.detect_df_dfState, hd]

/-- Octet accumulation either counts a bit or completes an octet. -/
theorem accumulate_cases (d : Bool) (s : State) :
    (s.df.bitsInOctet.toNat < 7 ∧
      accumulate d s = ({ s with df := { s.df with
          octetAcc := shiftIn s.df.octetAcc d, bitsInOctet := s.df.bitsInOctet + 1#3 } },
        { db := d, flg := false, fe := false, ovf := false })) ∨
    (s.df.bitsInOctet.toNat = 7 ∧
      accumulate d s = octetDone d { s with df := { s.df with
        octetAcc := shiftIn s.df.octetAcc d, bitsInOctet := 0#3 } }) := by
  unfold accumulate
  by_cases h : s.df.bitsInOctet.toNat < 7
  · exact .inl ⟨h, if_pos h⟩
  · exact .inr ⟨by omega, if_neg h⟩

/-- A completed octet is appended, appended with a slot write, or dropped. -/
theorem octetDone_cases (d : Bool) (s : State) :
    (s.df.frameLen < s.cfg.frameMax.toNat ∧ s.cfg.frameMin.toNat ≤ s.df.frameLen + 1 ∧
      octetDone d s = ((s.appendOctet s.df.octetAcc).writeSlot,
        { db := d, flg := false, fe := true, ovf := false })) ∨
    (s.df.frameLen < s.cfg.frameMax.toNat ∧ s.df.frameLen + 1 < s.cfg.frameMin.toNat ∧
      octetDone d s = (s.appendOctet s.df.octetAcc,
        { db := d, flg := false, fe := false, ovf := false })) ∨
    (s.cfg.frameMax.toNat ≤ s.df.frameLen ∧
      octetDone d s = (s.dropOctet, { db := d, flg := false, fe := false, ovf := true })) := by
  unfold octetDone
  by_cases h : s.df.frameLen < s.cfg.frameMax.toNat
  · simp only [if_pos h]
    by_cases hm : s.cfg.frameMin.toNat ≤ s.df.frameLen + 1
    · exact .inl ⟨h, hm, if_pos hm⟩
    · exact .inr (.inl ⟨h, by omega, if_neg hm⟩)
  · exact .inr (.inr ⟨by omega, if_neg h⟩)

theorem octetDone_same (d : Bool) (s : State) : SameButDeframer s (octetDone d s).1 := by
  rcases octetDone_cases d s with ⟨_, _, h⟩ | ⟨_, _, h⟩ | ⟨_, h⟩ <;> rw [h] <;>
    constructor <;> simp

theorem accumulate_same (d : Bool) (s : State) : SameButDeframer s (accumulate d s).1 := by
  rcases accumulate_cases d s with ⟨_, h⟩ | ⟨_, h⟩ <;> rw [h]
  · constructor <;> rfl
  · have := octetDone_same d { s with df := { s.df with
      octetAcc := shiftIn s.df.octetAcc d, bitsInOctet := 0#3 } }
    exact ⟨this.params, this.mode, this.cfg, this.derived, this.demod, this.pll, this.cmds,
      this.resp, this.coef, this.rawh, this.ih, this.qh⟩

/-- The frame of the deframer step. -/
theorem dfStep_same (bit : Bool) (s : State) : SameButDeframer s (dfStep bit s).1 := by
  rcases dfStep_cases bit s with ⟨_, h⟩ | ⟨_, _, h⟩ | ⟨_, _, h⟩ <;> rw [h]
  · constructor <;> rfl
  · constructor <;> rfl
  · have := accumulate_same (nrzi bit s.df.prevRaw) (s.detect bit)
    exact ⟨this.params, this.mode, this.cfg, this.derived, this.demod, this.pll, this.cmds,
      this.resp, this.coef, this.rawh, this.ih, this.qh⟩

/-- The deframer step depends on the deframer's registers, the configuration and the two octet buffers
alone. -/
theorem dfStep_congr (bit : Bool) {s t : State} (hd : t.df = s.df) (hc : t.cfg = s.cfg)
    (hf : t.mem.frameBuf = s.mem.frameBuf) (hs : t.mem.slotBuf = s.mem.slotBuf) :
    (dfStep bit t).2 = (dfStep bit s).2 ∧ (dfStep bit t).1.df = (dfStep bit s).1.df ∧
      (dfStep bit t).1.mem.frameBuf = (dfStep bit s).1.mem.frameBuf ∧
      (dfStep bit t).1.mem.slotBuf = (dfStep bit s).1.mem.slotBuf := by
  unfold dfStep accumulate octetDone State.detect State.appendOctet State.writeSlot State.dropOctet
  simp only [hd, hc]
  cases s.df.dfState <;> split_ifs <;> simp only [hf, hs, and_self]

theorem octetDone_wf {s : State} {p q : Nat} (d : Bool) (h : s.mem.wf p q)
    (hm : s.cfg.frameMax.toNat ≤ q) : (octetDone d s).1.mem.wf p q := by
  rcases octetDone_cases d s with ⟨hl, _, e⟩ | ⟨_, _, e⟩ | ⟨_, e⟩ <;> rw [e]
  · refine State.writeSlot_wf (State.appendOctet_wf h _) ?_
    rw [State.appendOctet_df_frameLen]
    omega
  · exact State.appendOctet_wf h _
  · exact h

/-- The deframer step keeps the form of the storage spaces. -/
theorem dfStep_wf {s : State} {p q : Nat} (bit : Bool) (h : s.mem.wf p q)
    (hm : s.cfg.frameMax.toNat ≤ q) : (dfStep bit s).1.mem.wf p q := by
  rcases dfStep_cases bit s with ⟨_, e⟩ | ⟨_, _, e⟩ | ⟨_, _, e⟩ <;> rw [e]
  · exact h
  · exact h
  · rcases accumulate_cases (nrzi bit s.df.prevRaw) (s.detect bit) with ⟨_, e⟩ | ⟨_, e⟩ <;> rw [e]
    · exact h
    · exact octetDone_wf _ h hm

end Sys2Proof.Machine
end

