-- ==== Sys2Proof/Laws/Pll.lean ====
section
/-!
SUPPORT. The PLL step: everything it can do, and what it leaves alone.
-/

namespace Sys2Proof.Machine

/-- What the PLL and the deframer never write. -/
structure SameButReceiver (s t : State) : Prop where
  params : t.params = s.params
  mode : t.mode = s.mode
  cfg : t.cfg = s.cfg
  derived : t.derived = s.derived
  demod : t.demod = s.demod
  cmds : t.cmds = s.cmds
  resp : t.resp = s.resp
  coef : t.mem.coef = s.mem.coef
  rawh : t.mem.rawh = s.mem.rawh
  ih : t.mem.ih = s.mem.ih
  qh : t.mem.qh = s.mem.qh

/-- The accumulator after the nudge of a PLL step (rules R193, R194). -/
def State.nudgedAcc (s : State) (sign : Bool) : U32 :=
  if sign != s.pll.prevSign then nudge (s.pll.acc + s.derived.pllStep) s.inertia
  else s.pll.acc + s.derived.pllStep

/-- The state a PLL step hands to the deframer. -/
def State.afterPll (s : State) (sign : Bool) : State :=
  { s with pll :=
    { acc := s.nudgedAcc sign
      prevSign := sign
      dataDetect := lockNext s.params.lockNext s.pll.dataDetect (sign != s.pll.prevSign)
        (s.pll.acc + s.derived.pllStep).toInt (wraps s.pll.acc (s.pll.acc + s.derived.pllStep)) } }

/-- A PLL step emits a bit to the deframer or emits none. -/
theorem pllStepSign_cases (sign : Bool) (s : State) :
    (wraps s.pll.acc (s.pll.acc + s.derived.pllStep) = true ∧
      pllStepSign sign s = ((dfStep sign (s.afterPll sign)).1,
        { bv := true, b := sign, tr := sign != s.pll.prevSign
          df := (dfStep sign (s.afterPll sign)).2 })) ∨
    (wraps s.pll.acc (s.pll.acc + s.derived.pllStep) = false ∧
      pllStepSign sign s = (s.afterPll sign,
        { bv := false, b := false, tr := sign != s.pll.prevSign, df := .none })) := by
  unfold pllStepSign
  cases h : wraps s.pll.acc (s.pll.acc + s.derived.pllStep)
  · refine .inr ⟨rfl, ?_⟩
    simp only [h, State.afterPll, State.nudgedAcc]
    rfl
  · refine .inl ⟨rfl, ?_⟩
    simp only [h, State.afterPll, State.nudgedAcc]
    rfl

/-- The PLL registers a PLL step leaves are those rules R190 to R196 name. -/
theorem State.afterPll_eq (s : State) (sign : Bool) :
    s.afterPll sign = { s with pll := s.pllRegisters sign } := by
  unfold State.afterPll State.pllRegisters State.nudgedAcc State.emits wraps nudge State.inertia
  cases sign <;> cases s.pll.prevSign <;> simp [Bool.decide_and]

theorem State.wraps_eq_emits (s : State) :
    wraps s.pll.acc (s.pll.acc + s.derived.pllStep) = s.emits := by
  unfold wraps State.emits
  rw [Bool.decide_and]

/-- The frame of the PLL step. -/
theorem pllStepSign_same (sign : Bool) (s : State) : SameButReceiver s (pllStepSign sign s).1 := by
  rcases pllStepSign_cases sign s with ⟨_, h⟩ | ⟨_, h⟩ <;> rw [h]
  · have := dfStep_same sign (s.afterPll sign)
    exact ⟨this.params, this.mode, this.cfg, this.derived, this.demod, this.cmds,
      this.resp, this.coef, this.rawh, this.ih, this.qh⟩
  · constructor <;> rfl

/-- The PLL registers after a PLL step. -/
theorem pllStepSign_pll (sign : Bool) (s : State) :
    (pllStepSign sign s).1.pll = (s.afterPll sign).pll := by
  rcases pllStepSign_cases sign s with ⟨_, h⟩ | ⟨_, h⟩ <;> rw [h]
  exact (dfStep_same sign (s.afterPll sign)).pll

/-- The PLL step keeps the form of the storage spaces. -/
theorem pllStepSign_wf {s : State} {p q : Nat} (sign : Bool) (h : s.mem.wf p q)
    (hm : s.cfg.frameMax.toNat ≤ q) : (pllStepSign sign s).1.mem.wf p q := by
  rcases pllStepSign_cases sign s with ⟨_, e⟩ | ⟨_, e⟩ <;> rw [e]
  · exact dfStep_wf sign (s := s.afterPll sign) h hm
  · exact h

end Sys2Proof.Machine
end

