-- ==== Sys2Proof/Laws/Demodulator.lean ====
section
/-!
SUPPORT. The demodulator stage: what it writes, and what it leaves alone.
-/

namespace Sys2Proof.Machine

/-- What the demodulator stage never writes. -/
structure SameButDemod (s t : State) : Prop where
  params : t.params = s.params
  mode : t.mode = s.mode
  cfg : t.cfg = s.cfg
  derived : t.derived = s.derived
  pll : t.pll = s.pll
  df : t.df = s.df
  cmds : t.cmds = s.cmds
  resp : t.resp = s.resp
  coef : t.mem.coef = s.mem.coef
  frameBuf : t.mem.frameBuf = s.mem.frameBuf
  slotBuf : t.mem.slotBuf = s.mem.slotBuf

theorem SameButDemod.trans {s t u : State} (h : SameButDemod s t) (k : SameButDemod t u) :
    SameButDemod s u :=
  ⟨k.params.trans h.params, k.mode.trans h.mode, k.cfg.trans h.cfg, k.derived.trans h.derived,
    k.pll.trans h.pll, k.df.trans h.df, k.cmds.trans h.cmds, k.resp.trans h.resp,
    k.coef.trans h.coef, k.frameBuf.trans h.frameBuf, k.slotBuf.trans h.slotBuf⟩

theorem prefilter_same (x : Val) (s : State) : SameButDemod s (prefilter x s).1 := by
  unfold prefilter
  split <;> constructor <;> rfl

theorem pushMix_same (s : State) (t : Ix) (x : Val) : SameButDemod s (s.pushMix t x) := by
  constructor <;> rfl

theorem advance_same (s : State) (t : Ix) : SameButDemod s (s.advance t) := by
  constructor <;> rfl

theorem agc_same (t : Ix) (x : Val) (s : State) : SameButDemod s (agc t x s).1 := by
  constructor <;> rfl

theorem amplitudeProfile_same (x : Val) (s : State) : SameButDemod s (amplitudeProfile x s).1 := by
  unfold amplitudeProfile mix
  exact ((((((pushMix_same _ _ _).trans (pushMix_same _ _ _)).trans (advance_same _ _)).trans
    (advance_same _ _)).trans (agc_same _ _ _)).trans (agc_same _ _ _))

theorem discriminatorProfile_same (x : Val) (s : State) :
    SameButDemod s (discriminatorProfile x s).1 := by
  unfold discriminatorProfile mix
  constructor <;> rfl

/-- The storage spaces after the amplitude-comparison profile. -/
theorem amplitudeProfile_mem (x : Val) (s : State) :
    (amplitudeProfile x s).1.mem = ((s.pushMix .i0 x).pushMix .i1 x).mem := rfl

/-- The storage spaces after the discriminator profile. -/
theorem discriminatorProfile_mem (x : Val) (s : State) :
    (discriminatorProfile x s).1.mem = (s.pushMix .i0 x).mem := rfl

/-- The frame of the demodulator stage. -/
theorem demodulate_same (x : Val) (s : State) : SameButDemod s (demodulate x s).1 := by
  unfold demodulate
  simp only
  split
  · exact (prefilter_same x s).trans (amplitudeProfile_same _ _)
  · exact (prefilter_same x s).trans (discriminatorProfile_same _ _)

theorem prefilter_wf {s : State} {p q : Nat} (x : Val) (h : s.mem.wf p q)
    (h0 : s.cfg.tapCount .i0 ≤ p) : (prefilter x s).1.mem.wf p q := by
  unfold prefilter
  split
  · refine ⟨h.1, ?_, h.2.2⟩
    simp only
    rw [push_length _ (by rw [h.2.1]; exact h0), h.2.1]
  · exact h

/-- The demodulator stage keeps the form of the storage spaces. -/
theorem demodulate_wf {s : State} {p q : Nat} (x : Val) (h : s.mem.wf p q)
    (hn : ∀ b, s.cfg.tapCount b ≤ p) : (demodulate x s).1.mem.wf p q := by
  have hp := prefilter_wf x h (hn .i0)
  have hc : (prefilter x s).1.cfg = s.cfg := (prefilter_same x s).cfg
  have h1 : (prefilter x s).1.cfg.tapCount .i1 ≤ p := by rw [hc]; exact hn .i1
  unfold demodulate
  simp only
  split
  · rw [amplitudeProfile_mem]
    refine State.pushMix_wf (State.pushMix_wf hp h1 _ _) ?_ _ _
    rw [State.pushMix_cfg]
    exact h1
  · rw [discriminatorProfile_mem]
    exact State.pushMix_wf hp h1 _ _

end Sys2Proof.Machine
end

