-- ==== Sys2Proof/Laws/Encoding.lean ====
section
/-!
SUPPORT. The port encoding is monotone, so that an interval whose two ends have one pattern has it
throughout.
-/

namespace Sys2Proof.Machine

/-- Rounding takes the floor or the integer above it. -/
theorem realHalfEven_bounds (x : ℝ) : ⌊x⌋ ≤ realHalfEven x ∧ realHalfEven x ≤ ⌊x⌋ + 1 := by
  unfold realHalfEven; split_ifs <;> omega

/-- Rounding is monotone. -/
theorem realHalfEven_mono {x y : ℝ} (h : x ≤ y) : realHalfEven x ≤ realHalfEven y := by
  rcases (Int.floor_mono h).lt_or_eq with hf | hf
  · have := realHalfEven_bounds x
    have := realHalfEven_bounds y
    omega
  · unfold realHalfEven
    rw [hf]
    have : x - ⌊y⌋ ≤ y - ⌊y⌋ := by linarith
    split_ifs <;> first | omega | (exfalso; linarith)

theorem realHalfEven_int (n : Int) : realHalfEven (n : ℝ) = n := by
  unfold realHalfEven; rw [Int.floor_intCast, sub_self, if_pos (by norm_num)]

/-- A greater positive number has no smaller pattern: across a power of two the significand is at most
`2^24` below and at least `2^23` above. -/
theorem realMagnitude_mono {x y : ℝ} (hx : 0 < x) (h : x ≤ y) :
    realMagnitude x ≤ realMagnitude y := by
  have hy : 0 < y := hx.trans_le h
  unfold realMagnitude
  simp only
  set e := max (Int.log 2 x) (-126) with he
  set g := max (Int.log 2 y) (-126) with hg
  have hl : Int.log 2 x ≤ Int.log 2 y := Int.log_mono_right hx h
  have heg : e ≤ g := max_le_max_right _ hl
  rcases heg.lt_or_eq with hlt | heq
  · have hg' : g = Int.log 2 y := by omega
    have h1 : x < 2 ^ (e + 1) := by
      have := Int.lt_zpow_succ_log_self (R := ℝ) (b := 2) one_lt_two x
      refine lt_of_lt_of_le (by exact_mod_cast this) ?_
      exact zpow_le_zpow_right₀ one_le_two (by omega)
    have h2 : (2:ℝ) ^ g ≤ y := by
      rw [hg']; exact_mod_cast Int.zpow_log_le_self (R := ℝ) (b := 2) one_lt_two hy
    have a : realHalfEven (x / 2 ^ (e - 23)) ≤ 2 ^ 24 := by
      have : x / 2 ^ (e - 23) ≤ ((2 ^ 24 : Int) : ℝ) := by
        rw [div_le_iff₀ (by positivity)]
        refine h1.le.trans (le_of_eq ?_)
        rw [show ((2 ^ 24 : Int) : ℝ) = 2 ^ (24 : ℤ) by norm_num, ← zpow_add₀ two_ne_zero]
        congr 1
        ring
      exact (realHalfEven_mono this).trans_eq (realHalfEven_int _)
    have b : 2 ^ 23 ≤ realHalfEven (y / 2 ^ (g - 23)) := by
      have : ((2 ^ 23 : Int) : ℝ) ≤ y / 2 ^ (g - 23) := by
        rw [le_div_iff₀ (by positivity)]
        refine le_trans (le_of_eq ?_) h2
        rw [show ((2 ^ 23 : Int) : ℝ) = 2 ^ (23 : ℤ) by norm_num, ← zpow_add₀ two_ne_zero]
        congr 1
        ring
      exact (realHalfEven_int _).symm.le.trans (realHalfEven_mono this)
    have he126 : -126 ≤ e := le_max_right _ _
    omega
  · rw [heq]
    have : realHalfEven (x / 2 ^ (g - 23)) ≤ realHalfEven (y / 2 ^ (g - 23)) :=
      realHalfEven_mono (by gcongr)
    omega

theorem realMagnitude_le_inf {x : ℝ} (hx : 0 < x) (h : x < 2 ^ 128 - 2 ^ 103) :
    realMagnitude x ≤ infMagnitude := by
  have h1 := realMagnitude_mono hx h.le
  have h2 : ((overflowBound : ℕ) : ℝ) / ((1 : ℕ) : ℝ) = 2 ^ 128 - 2 ^ 103 := by
    unfold overflowBound
    norm_num
  rw [← h2, encMagnitude_real (by decide) (by decide)] at h1
  exact h1.trans (by decide +kernel)

/-- The magnitude of the pattern of a positive number, the infinity from the overflow bound on (rule
R10). -/
noncomputable def clippedMagnitude (x : ℝ) : ℕ :=
  if 2 ^ 128 - 2 ^ 103 ≤ x then infMagnitude else realMagnitude x

theorem clippedMagnitude_mono {x y : ℝ} (hx : 0 < x) (h : x ≤ y) :
    clippedMagnitude x ≤ clippedMagnitude y := by
  unfold clippedMagnitude
  split_ifs with h1 h2 h2
  · exact le_rfl
  · exact absurd (h1.trans h) h2
  · exact realMagnitude_le_inf hx (not_le.1 h1)
  · exact realMagnitude_mono hx h

theorem clippedMagnitude_le {x : ℝ} (hx : 0 < x) : clippedMagnitude x ≤ infMagnitude := by
  unfold clippedMagnitude
  split_ifs with h
  · exact le_rfl
  · exact realMagnitude_le_inf hx (not_le.1 h)

theorem encReal_of_pos (z : Bool) {x : ℝ} (h : 0 < x) :
    encReal z x = packPattern false z (clippedMagnitude x) := by
  unfold encReal clippedMagnitude
  rw [if_neg h.ne', abs_of_pos h, decide_eq_false h.not_gt]
  split_ifs <;> rfl

theorem encReal_of_neg (z : Bool) {x : ℝ} (h : x < 0) :
    encReal z x = packPattern true z (clippedMagnitude (-x)) := by
  unfold encReal clippedMagnitude
  rw [if_neg h.ne, abs_of_neg h, decide_eq_true h]
  split_ifs <;> rfl

/-- A number of at least one fixed point unit does not underflow. -/
theorem clippedMagnitude_pos {x : ℝ} (h : 1 / 2 ^ 80 ≤ x) : 0 < clippedMagnitude x := by
  refine lt_of_lt_of_le ?_ (clippedMagnitude_mono (by positivity) h)
  have e : ((1 : ℕ) : ℝ) / ((2 ^ 80 : ℕ) : ℝ) = 1 / 2 ^ 80 := by norm_num
  unfold clippedMagnitude
  rw [if_neg (by norm_num), ← e, encMagnitude_real (by decide) (by decide)]
  decide +kernel

/-- The pattern of a magnitude that is not 0 does not depend on the underflow sign. -/
theorem packPattern_of_pos (n z : Bool) {m : Nat} (h : 0 < m) :
    packPattern n z m = packPattern n false m := by
  unfold packPattern
  simp [h.ne']

/-- Patterns of nonzero magnitudes and one sign are equal only where the magnitudes are. -/
theorem packPattern_inj {n : Bool} {a b : Nat} (ha : a ≤ infMagnitude) (hb : b ≤ infMagnitude)
    (h0 : 0 < a) (h1 : 0 < b) (h : packPattern n false a = packPattern n false b) : a = b := by
  unfold packPattern infMagnitude at *
  have := congrArg BitVec.toNat h
  simp only [BitVec.toNat_ofNat] at this
  cases n <;> simp [h0.ne', h1.ne'] at this <;> omega

/-- Between two numbers of one pattern every number has it. -/
theorem packPattern_squeeze (n z : Bool) {a x b : ℝ} (h0 : 1 / 2 ^ 80 ≤ a) (ha : a ≤ x) (hb : x ≤ b)
    (h : packPattern n false (clippedMagnitude a) = packPattern n false (clippedMagnitude b)) :
    packPattern n z (clippedMagnitude x) = packPattern n false (clippedMagnitude a) := by
  have pa : 0 < a := lt_of_lt_of_le (by positivity) h0
  have px : 0 < x := pa.trans_le ha
  have pb : 0 < b := px.trans_le hb
  have e := packPattern_inj (clippedMagnitude_le pa) (clippedMagnitude_le pb)
    (clippedMagnitude_pos h0) (clippedMagnitude_pos (h0.trans (ha.trans hb))) h
  have m1 := clippedMagnitude_mono pa ha
  have m2 := clippedMagnitude_mono px hb
  rw [packPattern_of_pos _ _ (clippedMagnitude_pos (h0.trans ha)),
    show clippedMagnitude x = clippedMagnitude a by omega]

/-- The pattern the evaluator finds for an interval is that of every number in it (rule R10). -/
theorem encInterval?_spec {i : Interval} {x : ℝ} {b : U32} (z : Bool) (h : i.Holds x)
    (hb : encInterval? i = some b) : encReal z x = b := by
  have fs : ((fixedScale : ℤ) : ℝ) = 2 ^ 80 := by unfold fixedScale; norm_num
  have c : ∀ k : ℤ, ((mkRat k fixedScale.toNat : ℚ) : ℝ) = k / 2 ^ 80 := by
    intro k
    rw [Rat.mkRat_eq_div, show fixedScale.toNat = 2 ^ 80 by decide]
    push_cast
    ring
  have hl : (i.lo : ℝ) / 2 ^ 80 ≤ x := by rw [div_le_iff₀ (by positivity), ← fs]; exact h.1
  have hh : x ≤ (i.hi : ℝ) / 2 ^ 80 := by rw [le_div_iff₀ (by positivity), ← fs]; exact h.2
  unfold encInterval? at hb
  simp only [← encRat_real, c] at hb
  split_ifs at hb with hs he
  cases hb
  have pos : (0 : ℝ) < 1 / 2 ^ 80 := by positivity
  rcases hs with hs | hs
  · have p0 : 1 / 2 ^ 80 ≤ (i.lo : ℝ) / 2 ^ 80 := by
      gcongr
      exact_mod_cast hs
    rw [encReal_of_pos _ (by linarith), encReal_of_pos _ (by linarith)] at he
    rw [encReal_of_pos _ (by linarith), encReal_of_pos _ (by linarith)]
    exact packPattern_squeeze _ _ p0 hl hh he
  · have p0 : 1 / 2 ^ 80 ≤ -((i.hi : ℝ) / 2 ^ 80) := by
      rw [← neg_div]
      gcongr
      exact_mod_cast (show (1 : ℤ) ≤ -i.hi by omega)
    rw [encReal_of_neg _ (by linarith), encReal_of_neg _ (by linarith)] at he
    rw [encReal_of_neg _ (by linarith), encReal_of_neg _ (by linarith)]
    exact (packPattern_squeeze _ _ p0 (neg_le_neg hh) (neg_le_neg hl) he.symm).trans he.symm

end Sys2Proof.Machine
end

