-- ==== Sys2Proof/Laws/Interval.lean ====
section
/-!
SUPPORT. The fixed point intervals of the evaluator hold the results of the real operations.
-/

namespace Sys2Proof.Machine

theorem fixedScale_pos : (0 : ℝ) < (fixedScale : ℝ) := by norm_num [fixedScale]

theorem fixedScale_pos_int : 0 < fixedScale := by norm_num [fixedScale]

theorem div_le_real (a b : Int) (hb : 0 < b) : ((a / b : Int) : ℝ) ≤ (a : ℝ) / b := by
  have hb' : (0 : ℝ) < (b : ℝ) := by exact_mod_cast hb
  rw [le_div_iff₀ hb']
  exact_mod_cast Int.ediv_mul_le a (ne_of_gt hb)

theorem real_le_ceilDiv (a b : Int) (hb : 0 < b) : (a : ℝ) / b ≤ ((ceilDiv a b : Int) : ℝ) := by
  have h := div_le_real (-a) b hb
  rw [ceilDiv]
  push_cast at h ⊢
  rw [neg_div] at h
  linarith

theorem Interval.holds_ofRat (q : Rat) : (Interval.ofRat q).Holds (q : ℝ) := by
  have hd : (0 : Int) < (q.den : Int) := by exact_mod_cast q.den_pos
  have hq : (q : ℝ) * (fixedScale : ℝ) = ((q.num * fixedScale : Int) : ℝ) / ((q.den : Int) : ℝ) := by
    rw [Rat.cast_def]
    push_cast
    ring
  constructor
  · rw [hq]; exact div_le_real _ _ hd
  · rw [hq]; exact real_le_ceilDiv _ _ hd

theorem Interval.Holds.add {a b : Interval} {x y : ℝ} (ha : a.Holds x) (hb : b.Holds y) :
    (a.add b).Holds (x + y) := by
  obtain ⟨h1, h2⟩ := ha
  obtain ⟨h3, h4⟩ := hb
  constructor <;> simp only [Interval.add] <;> push_cast <;> rw [add_mul] <;> linarith

theorem Interval.Holds.neg {a : Interval} {x : ℝ} (ha : a.Holds x) : a.neg.Holds (-x) := by
  obtain ⟨h1, h2⟩ := ha
  constructor <;> simp only [Interval.neg] <;> push_cast <;> linarith

theorem Interval.Holds.sub {a b : Interval} {x y : ℝ} (ha : a.Holds x) (hb : b.Holds y) :
    (a.sub b).Holds (x - y) := by
  rw [sub_eq_add_neg]
  exact ha.add hb.neg

/-- The product of two numbers of two ranges lies between the least and the greatest product of end
points. -/
theorem mul_mem_corners {a b c d u v : ℝ} (h1 : a ≤ u) (h2 : u ≤ b) (h3 : c ≤ v) (h4 : v ≤ d) :
    min (min (a * c) (a * d)) (min (b * c) (b * d)) ≤ u * v ∧
      u * v ≤ max (max (a * c) (a * d)) (max (b * c) (b * d)) := by
  have hl : ∀ w, c ≤ w → w ≤ d → min (a * w) (b * w) ≤ u * w ∧ u * w ≤ max (a * w) (b * w) := by
    intro w _ _
    rcases le_total 0 w with hw | hw
    · exact ⟨min_le_of_left_le (mul_le_mul_of_nonneg_right h1 hw),
        le_max_of_le_right (mul_le_mul_of_nonneg_right h2 hw)⟩
    · exact ⟨min_le_of_right_le (mul_le_mul_of_nonpos_right h2 hw),
        le_max_of_le_left (mul_le_mul_of_nonpos_right h1 hw)⟩
  have hr : ∀ e : ℝ, min (e * c) (e * d) ≤ e * v ∧ e * v ≤ max (e * c) (e * d) := by
    intro e
    rcases le_total 0 e with he | he
    · exact ⟨min_le_of_left_le (mul_le_mul_of_nonneg_left h3 he),
        le_max_of_le_right (mul_le_mul_of_nonneg_left h4 he)⟩
    · exact ⟨min_le_of_right_le (mul_le_mul_of_nonpos_left h4 he),
        le_max_of_le_left (mul_le_mul_of_nonpos_left h3 he)⟩
  obtain ⟨hv1, hv2⟩ := hl v h3 h4
  constructor
  · exact le_trans (min_le_min (hr a).1 (hr b).1) hv1
  · exact le_trans hv2 (max_le_max (hr a).2 (hr b).2)

theorem Interval.Holds.mul {a b : Interval} {x y : ℝ} (ha : a.Holds x) (hb : b.Holds y) :
    (a.mul b).Holds (x * y) := by
  obtain ⟨h1, h2⟩ := ha
  obtain ⟨h3, h4⟩ := hb
  obtain ⟨hlo, hhi⟩ := mul_mem_corners h1 h2 h3 h4
  have hS := fixedScale_pos
  have hkey : x * y * (fixedScale : ℝ) =
      (x * (fixedScale : ℝ)) * (y * (fixedScale : ℝ)) / (fixedScale : ℝ) := by
    field_simp
  constructor
  · refine le_trans (div_le_real _ _ fixedScale_pos_int) ?_
    rw [hkey]
    refine div_le_div_of_nonneg_right ?_ hS.le
    push_cast
    exact hlo
  · refine le_trans ?_ (real_le_ceilDiv _ _ fixedScale_pos_int)
    rw [hkey]
    refine div_le_div_of_nonneg_right ?_ hS.le
    push_cast
    exact hhi

theorem Interval.Holds.divNat {a : Interval} {x : ℝ} (ha : a.Holds x) (n : Nat) (hn : 0 < n) :
    (a.divNat n).Holds (x / n) := by
  obtain ⟨h1, h2⟩ := ha
  have hn' : (0 : ℝ) < (n : ℝ) := by exact_mod_cast hn
  have hi : (0 : Int) < (n : Int) := by exact_mod_cast hn
  have hkey : x / n * (fixedScale : ℝ) = x * (fixedScale : ℝ) / n := by ring
  constructor
  · refine le_trans (div_le_real _ _ hi) ?_
    rw [hkey]
    push_cast
    exact div_le_div_of_nonneg_right h1 hn'.le
  · refine le_trans ?_ (real_le_ceilDiv _ _ hi)
    rw [hkey]
    push_cast
    exact div_le_div_of_nonneg_right h2 hn'.le

/-- The number of an interval above 0 is positive. -/
theorem Interval.Holds.pos {a : Interval} {x : ℝ} (ha : a.Holds x) (h : 0 < a.lo) : 0 < x := by
  have h' : (0 : ℝ) < (a.lo : ℝ) := by exact_mod_cast h
  exact pos_of_mul_pos_left (lt_of_lt_of_le h' ha.1) fixedScale_pos.le

/-- The number of an interval below 0 is negative. -/
theorem Interval.Holds.negative {a : Interval} {x : ℝ} (ha : a.Holds x) (h : a.hi < 0) : x < 0 := by
  have := ha.neg.pos (by simpa [Interval.neg] using h)
  linarith

theorem Interval.Holds.invPos {a : Interval} {x : ℝ} (ha : a.Holds x) (h : 0 < a.lo) :
    a.invPos.Holds x⁻¹ := by
  have hx := ha.pos h
  obtain ⟨h1, h2⟩ := ha
  have hS := fixedScale_pos
  have hlo : (0 : ℝ) < (a.lo : ℝ) := by exact_mod_cast h
  have hhi : (0 : ℝ) < (a.hi : ℝ) := lt_of_lt_of_le (lt_of_lt_of_le hlo h1) h2
  have hhi' : 0 < a.hi := by exact_mod_cast hhi
  have hkey : x⁻¹ * (fixedScale : ℝ) =
      (fixedScale : ℝ) * (fixedScale : ℝ) / (x * (fixedScale : ℝ)) := by
    field_simp
  constructor
  · refine le_trans (div_le_real _ _ hhi') ?_
    rw [hkey]
    push_cast
    exact div_le_div_of_nonneg_left (by positivity) (by positivity) h2
  · refine le_trans ?_ (real_le_ceilDiv _ _ h)
    rw [hkey]
    push_cast
    exact div_le_div_of_nonneg_left (by positivity) hlo h1

theorem Interval.Holds.div {a b c : Interval} {x y : ℝ} (ha : a.Holds x) (hb : b.Holds y)
    (h : a.div b = some c) : c.Holds (x / y) ∧ y ≠ 0 := by
  unfold Interval.div at h
  split at h
  · next h0 =>
    cases h
    exact ⟨by rw [div_eq_mul_inv]; exact ha.mul (hb.invPos h0), (hb.pos h0).ne'⟩
  · split at h
    · next h0 =>
      cases h
      have hn : 0 < b.neg.lo := by simpa [Interval.neg] using h0
      refine ⟨?_, (hb.negative h0).ne⟩
      have := ha.neg.mul (hb.neg.invPos hn)
      rwa [inv_neg, neg_mul_neg, ← div_eq_mul_inv] at this
    · cases h

theorem Interval.Holds.abs {a : Interval} {x : ℝ} (ha : a.Holds x) : a.abs.Holds |x| := by
  have hS := fixedScale_pos
  have habs : |x| * (fixedScale : ℝ) = |x * (fixedScale : ℝ)| := by
    rw [abs_mul, abs_of_pos hS]
  unfold Interval.abs
  split
  · next h =>
    have h' : (0 : ℝ) ≤ (a.lo : ℝ) := by exact_mod_cast h
    have : 0 ≤ x := nonneg_of_mul_nonneg_left (le_trans h' ha.1) hS
    rwa [abs_of_nonneg this]
  · split
    · next h =>
      have h' : (a.hi : ℝ) ≤ 0 := by exact_mod_cast h
      have : x ≤ 0 := nonpos_of_mul_nonpos_left (le_trans ha.2 h') hS
      rw [abs_of_nonpos this]
      exact ha.neg
    · constructor
      · simp only [Int.cast_zero]
        positivity
      · rw [habs]
        push_cast
        refine abs_le.mpr ⟨?_, ?_⟩
        · have := ha.1
          have h2 := le_max_left (-(a.lo : ℝ)) (a.hi : ℝ)
          linarith
        · exact le_trans ha.2 (le_max_right _ _)

theorem isqrt_spec {n r : Nat} (h : isqrt n = some r) : r * r ≤ n ∧ n < (r + 1) * (r + 1) := by
  unfold isqrt at h
  simp only at h
  split at h
  · next hc => cases h; exact hc
  · cases h

theorem Interval.Holds.sqrt {a c : Interval} {x : ℝ} (ha : a.Holds x) (h : a.sqrt = some c) :
    c.Holds (Real.sqrt x) := by
  obtain ⟨h1, h2⟩ := ha
  have hS := fixedScale_pos
  unfold Interval.sqrt at h
  split at h
  · next l hh hl hhi =>
    cases h
    have kl := isqrt_spec hl
    have kh := isqrt_spec hhi
    have hx0 : Real.sqrt x * (fixedScale : ℝ) = Real.sqrt (x * (fixedScale : ℝ) * (fixedScale : ℝ)) := by
      rw [mul_assoc, Real.sqrt_mul' _ (by positivity), Real.sqrt_mul_self hS.le]
    rw [Interval.Holds, hx0]
    constructor
    · simp only
      rcases le_or_gt a.lo 0 with h0 | h0
      · have : (a.lo * fixedScale).toNat = 0 := by
          apply Int.toNat_of_nonpos
          exact mul_nonpos_of_nonpos_of_nonneg h0 fixedScale_pos_int.le
        rw [this] at kl
        have : l = 0 := by nlinarith [kl.1]
        subst this
        simp only [Nat.cast_zero, Int.cast_zero]
        exact Real.sqrt_nonneg _
      · apply Real.le_sqrt_of_sq_le
        have hnn : 0 ≤ a.lo * fixedScale := by
          exact (mul_pos h0 fixedScale_pos_int).le
        have k1 : ((l * l : Nat) : Int) ≤ a.lo * fixedScale := by
          rw [← Int.toNat_of_nonneg hnn]; exact_mod_cast kl.1
        have k2 : ((l : ℝ) * l) ≤ (a.lo : ℝ) * fixedScale := by exact_mod_cast k1
        have k3 := mul_le_mul_of_nonneg_right h1 hS.le
        rw [sq]
        push_cast
        linarith
    · simp only
      rw [Real.sqrt_le_left (by push_cast; positivity)]
      have k1 : a.hi * fixedScale ≤ (((hh + 1) * (hh + 1) : Nat) : Int) := by
        have := Int.self_le_toNat (a.hi * fixedScale)
        have k := kh.2
        omega
      have k2 : (a.hi : ℝ) * fixedScale ≤ ((hh : ℝ) + 1) * (hh + 1) := by exact_mod_cast k1
      have k3 := mul_le_mul_of_nonneg_right h2 hS.le
      rw [sq]
      push_cast
      linarith
  · cases h

theorem Interval.holds_pi : Interval.pi.Holds Real.pi := by
  have hS := fixedScale_pos
  have h1 := Real.pi_gt_d20
  have h2 := Real.pi_lt_d20
  constructor
  · refine le_trans (div_le_real _ _ (by norm_num)) ?_
    push_cast
    rw [div_le_iff₀ (by norm_num)]
    nlinarith
  · refine le_trans ?_ (real_le_ceilDiv _ _ (by norm_num))
    push_cast
    rw [le_div_iff₀ (by norm_num)]
    nlinarith

theorem Interval.holds_zero : Interval.Holds { lo := 0, hi := 0 } 0 := by
  simp [Interval.Holds]

theorem Interval.Holds.widen {a : Interval} {x y : ℝ} {e : Int} (ha : a.Holds x)
    (h : |y - x| * (fixedScale : ℝ) ≤ e) : (a.widen e).Holds y := by
  obtain ⟨h1, h2⟩ := ha
  have hS := fixedScale_pos
  have habs : |(y - x) * (fixedScale : ℝ)| ≤ e := by rwa [abs_mul, abs_of_pos hS]
  obtain ⟨h3, h4⟩ := abs_le.mp habs
  constructor <;> simp only [Interval.widen] <;> push_cast <;> nlinarith

end Sys2Proof.Machine
end

