-- ==== Sys2Proof/Laws/Sine.lean ====
section
/-!
SUPPORT. The power series of the evaluator hold the sine and the cosine.
-/

namespace Sys2Proof.Machine

/-- The real number that `alternating` encloses. -/
noncomputable def alternatingReal (x2 : ℝ) : Nat → Nat → ℝ → ℝ
  | 0, _, _ => 0
  | fuel + 1, k, t => t - alternatingReal x2 fuel (k + 2) (t * x2 / ((k + 1) * (k + 2) : Nat))

theorem holds_alternating {x2 : Interval} {y : ℝ} (h2 : x2.Holds y) :
    ∀ (fuel k : Nat) {t : Interval} {u : ℝ}, t.Holds u →
      (alternating x2 fuel k t).Holds (alternatingReal y fuel k u)
  | 0, _, _, _, _ => Interval.holds_zero
  | fuel + 1, k, _, _, ht =>
    ht.sub (holds_alternating h2 fuel (k + 2) ((ht.mul h2).divNat _ (by positivity)))

theorem alternatingReal_eq (y : ℝ) : ∀ (fuel k : Nat) (t : ℝ),
    alternatingReal y fuel k t =
      ∑ j ∈ Finset.range fuel, (-1) ^ j * (t * y ^ j * k.factorial / (k + 2 * j).factorial)
  | 0, _, _ => by simp [alternatingReal]
  | fuel + 1, k, t => by
    have hk : (k.factorial : ℝ) ≠ 0 := by exact_mod_cast k.factorial_ne_zero
    rw [alternatingReal, alternatingReal_eq y fuel, Finset.sum_range_succ', sub_eq_add_neg, add_comm,
      ← Finset.sum_neg_distrib]
    congr 1
    · refine Finset.sum_congr rfl fun j _ => ?_
      have e1 : (k + 2).factorial = (k + 2) * ((k + 1) * k.factorial) := by
        rw [Nat.factorial_succ, Nat.factorial_succ]
      have e2 : k + 2 + 2 * j = k + 2 * (j + 1) := by ring
      have hf : ((k + 2 * (j + 1)).factorial : ℝ) ≠ 0 := by
        exact_mod_cast Nat.factorial_ne_zero _
      rw [e1, e2]
      push_cast
      field_simp
      ring
    · simp [hk]

/-- The partial sum of the exponential series at an imaginary number. -/
theorem exp_partial_imaginary (x : ℝ) : ∀ n : Nat,
    ∑ m ∈ Finset.range (2 * n), (x * Complex.I) ^ m / (m.factorial : ℂ) =
      ((∑ j ∈ Finset.range n, (-1) ^ j * (x ^ (2 * j) / (2 * j).factorial) : ℝ) : ℂ) +
      ((∑ j ∈ Finset.range n, (-1) ^ j * (x ^ (2 * j + 1) / (2 * j + 1).factorial) : ℝ) : ℂ)
        * Complex.I
  | 0 => by simp
  | n + 1 => by
    have e : 2 * (n + 1) = 2 * n + 1 + 1 := by ring
    rw [e, Finset.sum_range_succ, Finset.sum_range_succ, exp_partial_imaginary x n,
      Finset.sum_range_succ _ n, Finset.sum_range_succ _ n]
    have p0 : ((x : ℂ) * Complex.I) ^ (2 * n) = (-1) ^ n * (x : ℂ) ^ (2 * n) := by
      rw [mul_pow, pow_mul Complex.I, Complex.I_sq, mul_comm]
    rw [pow_succ ((x : ℂ) * Complex.I) (2 * n), p0]
    push_cast
    ring

theorem series_remainder (x : ℝ) (hx : |x| ≤ 1) :
    |Real.cos x - ∑ j ∈ Finset.range 13, (-1) ^ j * (x ^ (2 * j) / (2 * j).factorial)| ≤ 1 / 2 ^ 80 ∧
    |Real.sin x - ∑ j ∈ Finset.range 13, (-1) ^ j * (x ^ (2 * j + 1) / (2 * j + 1).factorial)|
      ≤ 1 / 2 ^ 80 := by
  have hn : ‖(x : ℂ) * Complex.I‖ = |x| := by simp
  have hb := Complex.exp_bound (x := (x : ℂ) * Complex.I) (by rw [hn]; exact hx) (n := 26)
    (by norm_num)
  rw [show (26 : Nat) = 2 * 13 from rfl, exp_partial_imaginary x 13, hn, Complex.exp_mul_I] at hb
  have hsmall : |x| ^ (2 * 13) * (((2 * 13 : Nat).succ : ℝ) * (((2 * 13 : Nat).factorial : ℝ) *
      ((2 * 13 : Nat) : ℝ))⁻¹) ≤ 1 / 2 ^ 80 := by
    have h1 : |x| ^ (2 * 13) ≤ 1 := pow_le_one₀ (abs_nonneg x) hx
    have h2 : (((2 * 13 : Nat).succ : ℝ) * (((2 * 13 : Nat).factorial : ℝ) *
      ((2 * 13 : Nat) : ℝ))⁻¹) ≤ 1 / 2 ^ 80 := by
      norm_num [Nat.factorial]
    have h3 : (0 : ℝ) ≤ (((2 * 13 : Nat).succ : ℝ) * (((2 * 13 : Nat).factorial : ℝ) *
      ((2 * 13 : Nat) : ℝ))⁻¹) := by positivity
    calc _ ≤ 1 * _ := mul_le_mul_of_nonneg_right h1 h3
      _ ≤ _ := by rw [one_mul]; exact h2
  have hb2 := le_trans hb hsmall
  rw [← Complex.ofReal_cos, ← Complex.ofReal_sin] at hb2
  generalize (∑ j ∈ Finset.range 13, (-1) ^ j * (x ^ (2 * j) / ((2 * j).factorial : ℝ))) = c at *
  generalize (∑ j ∈ Finset.range 13, (-1) ^ j * (x ^ (2 * j + 1) / ((2 * j + 1).factorial : ℝ))) = d at *
  generalize Real.cos x = e at *
  generalize Real.sin x = f at *
  constructor
  · refine le_trans ?_ (le_trans (Complex.abs_re_le_norm _) hb2)
    simp
  · refine le_trans ?_ (le_trans (Complex.abs_im_le_norm _) hb2)
    simp

theorem widen_unit {a x : ℝ} (h : |a - x| ≤ 1 / 2 ^ 80) : |a - x| * (fixedScale : ℝ) ≤ ((1 : Int) : ℝ) := by
  have : (fixedScale : ℝ) = 2 ^ 80 := by norm_num [fixedScale]
  rw [this]
  calc |a - x| * 2 ^ 80 ≤ 1 / 2 ^ 80 * 2 ^ 80 := by gcongr
    _ = ((1 : Int) : ℝ) := by norm_num

/-- `sinTurn` encloses the sine of a rational multiple of `π` up to a quarter turn. -/
theorem holds_sinTurn {r : Rat} (h0 : 0 ≤ r) (h1 : r ≤ 1 / 2) :
    (sinTurn r).Holds (Real.sin ((r : ℝ) * Real.pi)) := by
  have hr0 : (0 : ℝ) ≤ (r : ℝ) := by exact_mod_cast h0
  have hr1 : (r : ℝ) ≤ 1 / 2 := by
    have : ((r : ℚ) : ℝ) ≤ ((1 / 2 : ℚ) : ℝ) := by exact_mod_cast h1
    simpa using this
  have hpi := Real.pi_pos
  have hpi4 := Real.pi_le_four
  unfold sinTurn
  split
  · next hq =>
    have hq' : (r : ℝ) ≤ 1 / 4 := by
      have : ((r : ℚ) : ℝ) ≤ ((1 / 4 : ℚ) : ℝ) := by exact_mod_cast hq
      simpa using this
    set x : ℝ := (r : ℝ) * Real.pi with hx
    have hxa : |x| ≤ 1 := by
      rw [abs_of_nonneg (by positivity)]
      nlinarith
    have hi := (Interval.holds_ofRat r).mul Interval.holds_pi
    refine (holds_alternating (hi.mul hi) 13 1 hi).widen (widen_unit ?_)
    rw [alternatingReal_eq, Finset.sum_congr rfl fun j _ => ?_]
    · exact (series_remainder x hxa).2
    · rw [add_comm 1 (2 * j), Nat.factorial_one, Nat.cast_one, mul_one, ← sq, ← pow_mul, pow_succ]
      ring
  · next hq =>
    have hq' : (1 : ℝ) / 4 < (r : ℝ) := by
      have : ((1 / 4 : ℚ) : ℝ) < ((r : ℚ) : ℝ) := by exact_mod_cast not_le.mp hq
      simpa using this
    have hc : ((1 / 2 - r : ℚ) : ℝ) = 1 / 2 - (r : ℝ) := by push_cast; ring
    set x : ℝ := ((1 / 2 - r : ℚ) : ℝ) * Real.pi with hx
    have hsin : Real.sin ((r : ℝ) * Real.pi) = Real.cos x := by
      rw [hx, hc, ← Real.sin_pi_div_two_sub]
      congr 1
      ring
    have hxa : |x| ≤ 1 := by
      rw [hx, hc, abs_of_nonneg (mul_nonneg (by linarith) hpi.le)]
      nlinarith
    have hi := (Interval.holds_ofRat (1 / 2 - r)).mul Interval.holds_pi
    have h1' := Interval.holds_ofRat 1
    rw [hsin]
    refine (holds_alternating (hi.mul hi) 13 0 h1').widen (widen_unit ?_)
    rw [alternatingReal_eq, Finset.sum_congr rfl fun j _ => ?_]
    · exact (series_remainder x hxa).1
    · rw [zero_add, Nat.factorial_zero, ← sq, ← pow_mul, Rat.cast_one]
      ring

end Sys2Proof.Machine
end

