-- ==== Sys2Proof/Laws/SineSum.lean ====
section
/-!
SUPPORT. The sums of sines of the evaluator: what real number each operation gives, and that the angles
stay in the first quarter turn.
-/

namespace Sys2Proof.Machine

theorem rat_eq_zero_of_num {q : Rat} (h : q.num = 0) : q = 0 := Rat.num_eq_zero.mp h

theorem SineSum.toReal_nil : SineSum.toReal [] = 0 := by simp [SineSum.toReal]

theorem SineSum.toReal_cons (t : Rat × Rat) (l : SineSum) :
    SineSum.toReal (t :: l) =
      (t.2 : ℝ) * Real.sin ((t.1 : ℝ) * Real.pi) + SineSum.toReal l := by
  simp [SineSum.toReal]

theorem SineSum.Proper.nil : SineSum.Proper [] := by simp [SineSum.Proper]

theorem SineSum.proper_cons {t : Rat × Rat} {l : SineSum} :
    SineSum.Proper (t :: l) ↔ (0 ≤ t.1 ∧ t.1 ≤ 1 / 2) ∧ SineSum.Proper l := by
  simp [SineSum.Proper]

theorem SineSum.ofRat_spec (q : Rat) :
    (SineSum.ofRat q).Proper ∧ (SineSum.ofRat q).toReal = (q : ℝ) := by
  unfold SineSum.ofRat
  split
  · next h =>
    refine ⟨.nil, ?_⟩
    rw [SineSum.toReal_nil, rat_eq_zero_of_num h, Rat.cast_zero]
  · refine ⟨?_, ?_⟩
    · rw [SineSum.proper_cons]
      exact ⟨⟨by norm_num, le_refl _⟩, .nil⟩
    · rw [SineSum.toReal_cons, SineSum.toReal_nil, add_zero]
      have : ((1 / 2 : ℚ) : ℝ) * Real.pi = Real.pi / 2 := by push_cast; ring
      simp only
      rw [this, Real.sin_pi_div_two, mul_one]

theorem SineSum.scale_spec (c : Rat) {l : SineSum} (hl : l.Proper) :
    (l.scale c).Proper ∧ (l.scale c).toReal = (c : ℝ) * l.toReal := by
  unfold SineSum.scale
  split
  · next h =>
    refine ⟨.nil, ?_⟩
    rw [SineSum.toReal_nil, rat_eq_zero_of_num h, Rat.cast_zero, zero_mul]
  · induction l with
    | nil => exact ⟨.nil, by simp [SineSum.toReal]⟩
    | cons t l ih =>
      rw [SineSum.proper_cons] at hl
      obtain ⟨h1, h2⟩ := ih hl.2
      refine ⟨SineSum.proper_cons.mpr ⟨hl.1, h1⟩, ?_⟩
      rw [List.map_cons, SineSum.toReal_cons, h2, SineSum.toReal_cons]
      push_cast
      ring

theorem SineSum.insert_spec {t : Rat × Rat} (ht : 0 ≤ t.1 ∧ t.1 ≤ 1 / 2) :
    ∀ {l : SineSum}, l.Proper → (SineSum.insert t l).Proper ∧
      (SineSum.insert t l).toReal = (t.2 : ℝ) * Real.sin ((t.1 : ℝ) * Real.pi) + l.toReal
  | [], _ => ⟨SineSum.proper_cons.mpr ⟨ht, .nil⟩, SineSum.toReal_cons t []⟩
  | u :: l, hl => by
    have hl' := SineSum.proper_cons.mp hl
    unfold SineSum.insert
    split
    · next h =>
      simp only
      split
      · next h0 =>
        refine ⟨hl'.2, ?_⟩
        have hc : ((t.2 : ℚ) : ℝ) + ((u.2 : ℚ) : ℝ) = 0 := by
          exact_mod_cast rat_eq_zero_of_num h0
        rw [SineSum.toReal_cons, ← h, ← add_assoc, ← add_mul, hc, zero_mul, zero_add]
      · refine ⟨SineSum.proper_cons.mpr ⟨ht, hl'.2⟩, ?_⟩
        rw [SineSum.toReal_cons, SineSum.toReal_cons, ← h]
        push_cast
        ring
    · split
      · exact ⟨SineSum.proper_cons.mpr ⟨ht, hl⟩, SineSum.toReal_cons t _⟩
      · obtain ⟨h1, h2⟩ := SineSum.insert_spec ht hl'.2
        refine ⟨SineSum.proper_cons.mpr ⟨hl'.1, h1⟩, ?_⟩
        rw [SineSum.toReal_cons, h2, SineSum.toReal_cons]
        ring

theorem SineSum.add_spec {a b : SineSum} (ha : a.Proper) (hb : b.Proper) :
    (a.add b).Proper ∧ (a.add b).toReal = a.toReal + b.toReal := by
  unfold SineSum.add
  induction a with
  | nil => exact ⟨hb, by rw [SineSum.toReal_nil, zero_add]; rfl⟩
  | cons t a ih =>
    have ha' := SineSum.proper_cons.mp ha
    obtain ⟨h1, h2⟩ := ih ha'.2
    obtain ⟨h3, h4⟩ := SineSum.insert_spec ha'.1 h1
    refine ⟨h3, ?_⟩
    rw [List.foldr_cons, h4, h2, SineSum.toReal_cons]
    ring

theorem SineSum.toRat?_spec {l : SineSum} {q : Rat} (h : l.toRat? = some q) :
    l.toReal = (q : ℝ) := by
  match l, h with
  | [], h =>
    simp only [SineSum.toRat?, Option.some.injEq] at h
    rw [SineSum.toReal_nil, ← h, Rat.cast_zero]
  | [(r, c)], h =>
    simp only [SineSum.toRat?] at h
    split at h
    · next hr =>
      cases h
      rw [SineSum.toReal_cons, SineSum.toReal_nil, hr, add_zero]
      have : ((1 / 2 : ℚ) : ℝ) * Real.pi = Real.pi / 2 := by push_cast; ring
      simp only
      rw [this, Real.sin_pi_div_two, mul_one]
    · cases h

theorem SineSum.sinPi_spec (q : Rat) :
    (SineSum.sinPi q).Proper ∧ (SineSum.sinPi q).toReal = Real.sin ((q : ℝ) * Real.pi) := by
  set f : Int := (q / 2).floor with hf
  set r : Rat := q - 2 * (f : Rat) with hr
  have hf1 : (f : Rat) ≤ q / 2 := by rw [hf]; exact Rat.floor_le _
  have hf2 : q / 2 < (f : Rat) + 1 := by
    have := Rat.lt_floor (x := q / 2)
    rw [← hf] at this
    linarith
  have hr0 : 0 ≤ r := by rw [hr]; linarith
  have hr2 : r < 2 := by rw [hr]; linarith
  have hsin : Real.sin ((q : ℝ) * Real.pi) = Real.sin ((r : ℝ) * Real.pi) := by
    have hq : (q : ℝ) * Real.pi = (r : ℝ) * Real.pi + (f : ℝ) * (2 * Real.pi) := by
      rw [hr]; push_cast; ring
    rw [hq, Real.sin_add_int_mul_two_pi]
  -- the pair chosen stands for the sine, and its angle is in range
  have key : ∀ t : Rat × Rat, (0 ≤ t.1 ∧ t.1 ≤ 1 / 2) →
      (t.2 : ℝ) * Real.sin ((t.1 : ℝ) * Real.pi) = Real.sin ((r : ℝ) * Real.pi) →
      SineSum.Proper (if t.1 = 0 then [] else if t.1 = 1 / 6 then [(1 / 2, t.2 / 2)] else [t]) ∧
      SineSum.toReal (if t.1 = 0 then ([] : SineSum) else if t.1 = 1 / 6 then [(1 / 2, t.2 / 2)]
        else [t]) = Real.sin ((q : ℝ) * Real.pi) := by
    intro t ht hv
    rw [hsin]
    split
    · next h0 =>
      refine ⟨.nil, ?_⟩
      rw [SineSum.toReal_nil, ← hv, h0, Rat.cast_zero, zero_mul, Real.sin_zero, mul_zero]
    · split
      · next h6 =>
        refine ⟨SineSum.proper_cons.mpr ⟨⟨by norm_num, le_refl _⟩, .nil⟩, ?_⟩
        have e1 : ((1 / 2 : ℚ) : ℝ) * Real.pi = Real.pi / 2 := by push_cast; ring
        have e2 : ((1 / 6 : ℚ) : ℝ) * Real.pi = Real.pi / 6 := by push_cast; ring
        rw [SineSum.toReal_cons, SineSum.toReal_nil, ← hv, h6, e2, Real.sin_pi_div_six]
        simp only
        rw [e1, Real.sin_pi_div_two]
        push_cast
        ring
      · refine ⟨SineSum.proper_cons.mpr ⟨ht, .nil⟩, ?_⟩
        rw [SineSum.toReal_cons, SineSum.toReal_nil, add_zero, hv]
  unfold SineSum.sinPi
  rw [← hf, ← hr]
  simp only
  refine key _ ?_ ?_
  · split
    · next h => exact ⟨hr0, h⟩
    · next h =>
      split
      · next h' => constructor <;> simp only <;> linarith
      · next h' =>
        split
        · next h'' => constructor <;> simp only <;> linarith
        · next h'' => constructor <;> simp only <;> linarith
  · split
    · next h => simp
    · next h =>
      split
      · next h' =>
        have : ((1 - r : ℚ) : ℝ) * Real.pi = Real.pi - (r : ℝ) * Real.pi := by push_cast; ring
        simp only
        rw [this, Real.sin_pi_sub]
        simp
      · next h' =>
        split
        · next h'' =>
          have : ((r - 1 : ℚ) : ℝ) * Real.pi = (r : ℝ) * Real.pi - Real.pi := by push_cast; ring
          simp only
          rw [this, Real.sin_sub_pi]
          simp
        · next h'' =>
          have : ((2 - r : ℚ) : ℝ) * Real.pi = 2 * Real.pi - (r : ℝ) * Real.pi := by push_cast; ring
          simp only
          rw [this, Real.sin_two_pi_sub]
          simp

theorem SineSum.cosPi_spec (q : Rat) :
    (SineSum.cosPi q).Proper ∧ (SineSum.cosPi q).toReal = Real.cos ((q : ℝ) * Real.pi) := by
  obtain ⟨h1, h2⟩ := SineSum.sinPi_spec (q + 1 / 2)
  refine ⟨h1, ?_⟩
  have : ((q + 1 / 2 : ℚ) : ℝ) * Real.pi = (q : ℝ) * Real.pi + Real.pi / 2 := by push_cast; ring
  rw [SineSum.cosPi, h2, this, Real.sin_add_pi_div_two]

theorem SineSum.holds_toInterval : ∀ {l : SineSum}, l.Proper → l.toInterval.Holds l.toReal
  | [], _ => by
    rw [SineSum.toReal_nil]
    exact Interval.holds_zero
  | t :: l, hl => by
    have hl' := SineSum.proper_cons.mp hl
    rw [SineSum.toReal_cons]
    exact ((Interval.holds_ofRat t.2).mul (holds_sinTurn hl'.1.1 hl'.1.2)).add
      (SineSum.holds_toInterval hl'.2)

theorem SineSum.cross_spec {y x : SineSum} (t : Rat) :
    (SineSum.cross y x t).Proper ∧ (SineSum.cross y x t).toReal =
      y.toReal * Real.cos ((t : ℝ) * Real.pi) - x.toReal * Real.sin ((t : ℝ) * Real.pi) := by
  have hy : ∀ l : SineSum, (l.foldr (fun u a =>
      (((SineSum.sinPi (u.1 + t)).add (SineSum.sinPi (u.1 - t))).scale (u.2 / 2)).add a) []).Proper ∧
      SineSum.toReal (l.foldr (fun u a =>
      (((SineSum.sinPi (u.1 + t)).add (SineSum.sinPi (u.1 - t))).scale (u.2 / 2)).add a) []) =
      l.toReal * Real.cos ((t : ℝ) * Real.pi) := by
    intro l
    induction l with
    | nil => exact ⟨.nil, by rw [List.foldr_nil, SineSum.toReal_nil, zero_mul]⟩
    | cons u l ih =>
      obtain ⟨a1, a2⟩ := SineSum.sinPi_spec (u.1 + t)
      obtain ⟨b1, b2⟩ := SineSum.sinPi_spec (u.1 - t)
      obtain ⟨c1, c2⟩ := SineSum.add_spec a1 b1
      obtain ⟨d1, d2⟩ := SineSum.scale_spec (u.2 / 2) c1
      obtain ⟨e1, e2⟩ := SineSum.add_spec d1 ih.1
      refine ⟨e1, ?_⟩
      rw [List.foldr_cons, e2, d2, c2, a2, b2, ih.2, SineSum.toReal_cons]
      have p1 : ((u.1 + t : ℚ) : ℝ) * Real.pi = (u.1 : ℝ) * Real.pi + (t : ℝ) * Real.pi := by
        push_cast; ring
      have p2 : ((u.1 - t : ℚ) : ℝ) * Real.pi = (u.1 : ℝ) * Real.pi - (t : ℝ) * Real.pi := by
        push_cast; ring
      rw [p1, p2, Real.sin_add, Real.sin_sub]
      push_cast
      ring
  have hx : ∀ (a : SineSum) (ha : a.Proper) (l : SineSum), (l.foldr (fun u a =>
      (((SineSum.cosPi (u.1 + t)).add ((SineSum.cosPi (u.1 - t)).scale (-1))).scale (u.2 / 2)).add a)
        a).Proper ∧
      SineSum.toReal (l.foldr (fun u a =>
      (((SineSum.cosPi (u.1 + t)).add ((SineSum.cosPi (u.1 - t)).scale (-1))).scale (u.2 / 2)).add a)
        a) = a.toReal - l.toReal * Real.sin ((t : ℝ) * Real.pi) := by
    intro a ha l
    induction l with
    | nil => exact ⟨ha, by rw [List.foldr_nil, SineSum.toReal_nil, zero_mul, sub_zero]⟩
    | cons u l ih =>
      obtain ⟨a1, a2⟩ := SineSum.cosPi_spec (u.1 + t)
      obtain ⟨b1, b2⟩ := SineSum.cosPi_spec (u.1 - t)
      obtain ⟨b3, b4⟩ := SineSum.scale_spec (-1) b1
      obtain ⟨c1, c2⟩ := SineSum.add_spec a1 b3
      obtain ⟨d1, d2⟩ := SineSum.scale_spec (u.2 / 2) c1
      obtain ⟨e1, e2⟩ := SineSum.add_spec d1 ih.1
      refine ⟨e1, ?_⟩
      rw [List.foldr_cons, e2, d2, c2, a2, b4, b2, ih.2, SineSum.toReal_cons]
      have p1 : ((u.1 + t : ℚ) : ℝ) * Real.pi = (u.1 : ℝ) * Real.pi + (t : ℝ) * Real.pi := by
        push_cast; ring
      have p2 : ((u.1 - t : ℚ) : ℝ) * Real.pi = (u.1 : ℝ) * Real.pi - (t : ℝ) * Real.pi := by
        push_cast; ring
      rw [p1, p2, Real.cos_add, Real.cos_sub]
      push_cast
      ring
  obtain ⟨h1, h2⟩ := hy y
  obtain ⟨h3, h4⟩ := hx _ h1 x
  exact ⟨h3, by rw [SineSum.cross, h4, h2]⟩

theorem SineSum.product_spec (a b : SineSum) :
    (a.product b).Proper ∧ (a.product b).toReal = a.toReal * b.toReal := by
  unfold SineSum.product
  induction b with
  | nil => exact ⟨.nil, by rw [List.foldr_nil, SineSum.toReal_nil, mul_zero]⟩
  | cons u l ih =>
    obtain ⟨a1, a2⟩ := SineSum.cross_spec (y := []) (x := a) u.1
    obtain ⟨b1, b2⟩ := SineSum.scale_spec (-u.2) a1
    obtain ⟨c1, c2⟩ := SineSum.add_spec b1 ih.1
    refine ⟨c1, ?_⟩
    rw [List.foldr_cons, c2, b2, a2, ih.2, SineSum.toReal_cons, SineSum.toReal_nil]
    push_cast
    ring

end Sys2Proof.Machine
end

