-- ==== Sys2Proof/Laws/Evaluate.lean ====
section
/-!
SUPPORT. The operations of the evaluator: if what is known of the operands is true, what the operation
says of its result is true.
-/

namespace Sys2Proof.Machine

theorem Enclosure.holds_exact {u d : Nat} {l : SineSum} {x : ℝ} (hl : l.Proper)
    (hx : x = Real.pi ^ u / Real.pi ^ d * l.toReal) : (Enclosure.exact u d l).Holds x := ⟨hl, hx⟩

theorem Enclosure.holds_ofRat (q : Rat) : (Enclosure.ofRat q).Holds (q : ℝ) := by
  obtain ⟨h1, h2⟩ := SineSum.ofRat_spec q
  exact ⟨h1, by rw [h2]; simp⟩

theorem Enclosure.holds_piTimes (q : Rat) :
    (Enclosure.exact 1 0 (.ofRat q)).Holds (q * Real.pi) := by
  obtain ⟨h1, h2⟩ := SineSum.ofRat_spec q
  exact ⟨h1, by rw [h2]; simp [mul_comm]⟩

theorem Enclosure.holds_zero : (Enclosure.exact 0 0 []).Holds 0 :=
  ⟨.nil, by rw [SineSum.toReal_nil, mul_zero]⟩

theorem Interval.holds_powPi : ∀ n : Nat, (Interval.powPi n).Holds (Real.pi ^ n)
  | 0 => by
    rw [pow_zero]
    exact_mod_cast Interval.holds_ofRat 1
  | n + 1 => by
    rw [pow_succ]
    exact (Interval.holds_powPi n).mul Interval.holds_pi

theorem Enclosure.Holds.toInterval {e : Enclosure} {x : ℝ} {i : Interval} (h : e.Holds x)
    (hi : e.toInterval = some i) : i.Holds x := by
  cases e with
  | exact u d l =>
    obtain ⟨h1, h2⟩ := h
    have := ((SineSum.holds_toInterval h1).mul (Interval.holds_powPi u)).div
      (Interval.holds_powPi d) hi
    rw [h2, mul_comm, mul_div_assoc']
    exact this.1
  | within a => cases hi; exact h
  | unknown => cases hi

theorem Enclosure.Holds.ofInterval {o : Option Interval} {x : ℝ}
    (h : ∀ i, o = some i → i.Holds x) : (Enclosure.ofInterval o).Holds x := by
  cases o with
  | none => trivial
  | some i => exact h i rfl

theorem Enclosure.Holds.lift2 {f : Interval → Interval → Option Interval} {a b : Enclosure}
    {x y z : ℝ} (ha : a.Holds x) (hb : b.Holds y)
    (hf : ∀ i j k, i.Holds x → j.Holds y → f i j = some k → k.Holds z) :
    (Enclosure.lift2 f a b).Holds z := by
  unfold Enclosure.lift2
  split
  · next i j hi hj =>
    exact .ofInterval fun k hk => hf i j k (ha.toInterval hi) (hb.toInterval hj) hk
  · trivial

theorem pi_pow_div (u d : Nat) :
    Real.pi ^ (u - d) / Real.pi ^ (d - u) = Real.pi ^ u / Real.pi ^ d := by
  have hp : Real.pi ≠ 0 := Real.pi_ne_zero
  rw [div_eq_div_iff (pow_ne_zero _ hp) (pow_ne_zero _ hp), ← pow_add, ← pow_add]
  congr 1
  omega

theorem Enclosure.holds_mkExact {u d : Nat} {l : SineSum} (hl : l.Proper) :
    (Enclosure.mkExact u d l).Holds (Real.pi ^ u / Real.pi ^ d * l.toReal) := by
  unfold Enclosure.mkExact
  split
  · rw [SineSum.toReal_nil, mul_zero]
    exact Enclosure.holds_zero
  · exact ⟨hl, by rw [pi_pow_div]⟩

theorem Enclosure.Holds.isZero {e : Enclosure} {x : ℝ} (h : e.Holds x) (hz : e.isZero = true) :
    x = 0 := by
  unfold Enclosure.isZero at hz
  split at hz
  · rw [h.2, SineSum.toReal_nil, mul_zero]
  · cases hz

theorem Enclosure.Holds.neg {e : Enclosure} {x : ℝ} (h : e.Holds x) : e.neg.Holds (-x) := by
  cases e with
  | exact u d l =>
    obtain ⟨h1, h2⟩ := SineSum.scale_spec (-1) h.1
    exact ⟨h1, by rw [h2, h.2]; push_cast; ring⟩
  | within a => exact Interval.Holds.neg h
  | unknown => trivial

theorem Enclosure.Holds.add {a b : Enclosure} {x y : ℝ} (ha : a.Holds x) (hb : b.Holds y) :
    (a.add b).Holds (x + y) := by
  have lift : ∀ {a b : Enclosure}, a.Holds x → b.Holds y →
      (Enclosure.lift2 (fun i j => some (i.add j)) a b).Holds (x + y) := fun ha hb =>
    .lift2 ha hb fun i j k hi hj hk => by cases hk; exact hi.add hj
  unfold Enclosure.add
  split
  · next h => rw [ha.isZero h, zero_add]; exact hb
  · split
    · next h => rw [hb.isZero h, add_zero]; exact ha
    · split
      · next u d l u' d' l' _ _ =>
        split
        · next h =>
          obtain ⟨h1, h2⟩ := SineSum.add_spec ha.1 hb.1
          have := Enclosure.holds_mkExact (u := u) (d := d) h1
          rw [h2, mul_add] at this
          rwa [ha.2, hb.2, ← h.1, ← h.2]
        · exact lift ha hb
      · exact lift ha hb

theorem SineSum.mul?_spec {a b c : SineSum} (ha : a.Proper) (hb : b.Proper)
    (h : a.mul? b = some c) : c.Proper ∧ c.toReal = a.toReal * b.toReal := by
  unfold SineSum.mul? at h
  split at h
  · next q hq =>
    cases h
    obtain ⟨h1, h2⟩ := SineSum.scale_spec q hb
    exact ⟨h1, by rw [h2, SineSum.toRat?_spec hq]⟩
  · next q _ hq =>
    cases h
    obtain ⟨h1, h2⟩ := SineSum.scale_spec q ha
    exact ⟨h1, by rw [h2, SineSum.toRat?_spec hq, mul_comm]⟩
  · split_ifs at h
    cases h
    exact SineSum.product_spec a b

theorem Enclosure.Holds.mul {a b : Enclosure} {x y : ℝ} (ha : a.Holds x) (hb : b.Holds y) :
    (a.mul b).Holds (x * y) := by
  have lift : ∀ {a b : Enclosure}, a.Holds x → b.Holds y →
      (Enclosure.lift2 (fun i j => some (i.mul j)) a b).Holds (x * y) := fun ha hb =>
    .lift2 ha hb fun i j k hi hj hk => by cases hk; exact hi.mul hj
  unfold Enclosure.mul
  split
  · next h =>
    have : x * y = 0 := by
      rcases Bool.or_eq_true _ _ |>.mp h with h | h
      · rw [ha.isZero h, zero_mul]
      · rw [hb.isZero h, mul_zero]
    rw [this]
    exact Enclosure.holds_zero
  · split
    · rename_i u d l u' d' l' _
      split
      · next l'' hl =>
        obtain ⟨h1, h2⟩ := SineSum.mul?_spec ha.1 hb.1 hl
        have := Enclosure.holds_mkExact (u := u + u') (d := d + d') h1
        rw [h2] at this
        convert this using 1
        rw [ha.2, hb.2, pow_add, pow_add]
        ring
      · exact lift ha hb
    · exact lift ha hb

theorem Enclosure.Holds.div {a b : Enclosure} {x y : ℝ} (ha : a.Holds x) (hb : b.Holds y) :
    (a.div b).Holds (x / y) := by
  have lift : ∀ {a b : Enclosure}, a.Holds x → b.Holds y →
      (Enclosure.lift2 Interval.div a b).Holds (x / y) := fun ha hb =>
    .lift2 ha hb fun i j k hi hj hk => (hi.div hj hk).1
  unfold Enclosure.div
  split
  · next h =>
    rw [ha.isZero h, zero_div]
    exact Enclosure.holds_zero
  · split
    · next u d l u' d' l' _ =>
      split
      · next q hq =>
        split
        · trivial
        · next hq0 =>
          obtain ⟨h1, h2⟩ := SineSum.scale_spec q⁻¹ ha.1
          have := Enclosure.holds_mkExact (u := u + d') (d := d + u') h1
          rw [h2] at this
          convert this using 1
          have hq' : ((q : ℚ) : ℝ) ≠ 0 := by exact_mod_cast hq0
          have hp : Real.pi ≠ 0 := Real.pi_ne_zero
          rw [ha.2, hb.2, SineSum.toRat?_spec hq, pow_add, pow_add]
          push_cast
          field_simp
      · exact lift ha hb
    · exact lift ha hb

/-- A sum of positive terms is positive or empty. -/
theorem SineSum.toReal_pos {l : SineSum} (hl : l.Proper) (hp : ∀ t ∈ l, 0 < t.1 ∧ 0 < t.2) :
    l = [] ∨ 0 < l.toReal := by
  rcases l with _ | ⟨u, l⟩
  · exact .inl rfl
  · refine .inr (List.sum_pos _ ?_ (by simp))
    intro x hx
    obtain ⟨t, ht, rfl⟩ := List.mem_map.1 hx
    have h1 : (0 : ℝ) < t.1 := by exact_mod_cast (hp t ht).1
    have h2 : (t.1 : ℝ) ≤ 1 / 2 := by
      have := (hl t ht).2
      have h3 : ((t.1 : ℚ) : ℝ) ≤ ((1 / 2 : ℚ) : ℝ) := by exact_mod_cast this
      simpa using h3
    have hc : (0 : ℝ) < t.2 := by exact_mod_cast (hp t ht).2
    refine mul_pos hc (Real.sin_pos_of_pos_of_lt_pi (mul_pos h1 Real.pi_pos) ?_)
    nlinarith [Real.pi_pos]

/-- The sign the coefficients of a sum show is the sign of the sum, where the sum is not empty. -/
theorem SineSum.sign?_spec {l : SineSum} {s : Int} (hl : l.Proper) (hs : l.sign? = some s) :
    l = [] ∨ (s = 1 ∧ 0 < l.toReal) ∨ (s = -1 ∧ l.toReal < 0) := by
  unfold SineSum.sign? at hs
  split at hs
  · next hp =>
    cases hs
    simp only [List.all_eq_true, Bool.and_eq_true, decide_eq_true_eq] at hp
    exact (SineSum.toReal_pos hl hp).imp_right fun h => .inl ⟨rfl, h⟩
  · split at hs
    · next hp =>
      cases hs
      simp only [List.all_eq_true, Bool.and_eq_true, decide_eq_true_eq] at hp
      have hq : ∀ t ∈ l.scale (-1), 0 < t.1 ∧ 0 < t.2 := by
        intro t ht
        rw [SineSum.scale, if_neg (by decide)] at ht
        obtain ⟨u, hu, rfl⟩ := List.mem_map.1 ht
        exact ⟨(hp u hu).1, by have := (hp u hu).2; simp only; linarith⟩
      rcases SineSum.toReal_pos (SineSum.scale_spec (-1) hl).1 hq with h | h
      · refine .inl ?_
        rw [SineSum.scale, if_neg (by decide)] at h
        exact List.map_eq_nil_iff.1 h
      · rw [(SineSum.scale_spec (-1) hl).2] at h
        refine .inr (.inr ⟨rfl, ?_⟩)
        push_cast at h
        linarith
    · cases hs

/-- The sign the evaluator states is the sign of the number. -/
theorem Enclosure.Holds.sign? {e : Enclosure} {x : ℝ} {s : Int} (h : e.Holds x)
    (hs : e.sign? = some s) : (s = 0 ∧ x = 0) ∨ (s = 1 ∧ 0 < x) ∨ (s = -1 ∧ x < 0) := by
  unfold Enclosure.sign? at hs
  split at hs
  · next hz => cases hs; exact .inl ⟨rfl, h.isZero hz⟩
  · next hz =>
    split at hs
    · next g hg =>
      cases hs
      match e, h with
      | .exact u d l, h =>
        have hp : 0 < Real.pi ^ u / Real.pi ^ d := by positivity
        rcases SineSum.sign?_spec h.1 hg with hl | ⟨hl, hx⟩ | ⟨hl, hx⟩
        · subst hl; exact absurd rfl hz
        · exact .inr (.inl ⟨hl, by rw [h.2]; exact mul_pos hp hx⟩)
        · exact .inr (.inr ⟨hl, by rw [h.2]; exact mul_neg_of_pos_of_neg hp hx⟩)
      | .within _, _ => cases hg
      | .unknown, _ => cases hg
    · obtain ⟨i, hi, hs⟩ := Option.bind_eq_some_iff.1 hs
      unfold Interval.sign? at hs
      split at hs
      · next hp => cases hs; exact .inr (.inl ⟨rfl, (h.toInterval hi).pos hp⟩)
      · split at hs
        · next hn => cases hs; exact .inr (.inr ⟨rfl, (h.toInterval hi).negative hn⟩)
        · cases hs

theorem Enclosure.Holds.abs {e : Enclosure} {x : ℝ} (h : e.Holds x) : e.abs.Holds |x| := by
  unfold Enclosure.abs
  split
  · next s hs =>
    rcases h.sign? hs with ⟨rfl, hx⟩ | ⟨rfl, hx⟩ | ⟨rfl, hx⟩
    · rw [if_pos (le_refl _), abs_of_nonneg hx.ge]; exact h
    · rw [if_pos (by decide), abs_of_pos hx]; exact h
    · rw [if_neg (by decide), abs_of_neg hx]; exact h.neg
  · split
    · next i hi => exact (h.toInterval hi).abs
    · trivial

theorem Enclosure.Holds.toRat? {e : Enclosure} {x : ℝ} {q : Rat} (h : e.Holds x)
    (hq : e.toRat? = some q) : x = (q : ℝ) := by
  unfold Enclosure.toRat? at hq
  split at hq
  · rw [h.2, SineSum.toRat?_spec hq]; simp
  · cases hq

theorem ratSqrt?_spec {q r : Rat} (h : ratSqrt? q = some r) : Real.sqrt (q : ℝ) = (r : ℝ) := by
  unfold ratSqrt? at h
  split at h
  · cases h
  · split at h
    · next n d _ _ =>
      simp only at h
      split at h
      · next hr =>
        cases h
        have h0 : (0 : ℝ) ≤ ((mkRat n d : ℚ) : ℝ) := by exact_mod_cast hr.1
        rw [show ((q : ℚ) : ℝ) = ((mkRat n d : ℚ) : ℝ) * ((mkRat n d : ℚ) : ℝ) by
          exact_mod_cast hr.2.symm]
        exact Real.sqrt_mul_self h0
      · cases h
    · cases h

theorem Enclosure.Holds.sqrt {e : Enclosure} {x : ℝ} (h : e.Holds x) :
    e.sqrt.Holds (Real.sqrt x) := by
  unfold Enclosure.sqrt
  split
  · next r hr =>
    obtain ⟨q, hq, hqr⟩ := Option.bind_eq_some_iff.mp hr
    rw [h.toRat? hq, ratSqrt?_spec hqr]
    exact Enclosure.holds_ofRat r
  · split
    · next i hi => exact .ofInterval fun k hk => (h.toInterval hi).sqrt hk
    · trivial

theorem Enclosure.Holds.piMultiple? {e : Enclosure} {x : ℝ} {q : Rat} (h : e.Holds x)
    (hq : e.piMultiple? = some q) : x = (q : ℝ) * Real.pi := by
  unfold Enclosure.piMultiple? at hq
  split at hq
  · cases hq
    rw [h.2, SineSum.toReal_nil]
    simp
  · rw [h.2, SineSum.toRat?_spec hq]
    simp [mul_comm]
  · cases hq

theorem Enclosure.Holds.sin {e : Enclosure} {x : ℝ} (h : e.Holds x) :
    e.sin.Holds (Real.sin x) := by
  unfold Enclosure.sin
  split
  · next q hq =>
    obtain ⟨h1, h2⟩ := SineSum.sinPi_spec q
    exact ⟨h1, by rw [h.piMultiple? hq, h2]; simp⟩
  · trivial

theorem Enclosure.Holds.cos {e : Enclosure} {x : ℝ} (h : e.Holds x) :
    e.cos.Holds (Real.cos x) := by
  unfold Enclosure.cos
  split
  · next q hq =>
    obtain ⟨h1, h2⟩ := SineSum.cosPi_spec q
    exact ⟨h1, by rw [h.piMultiple? hq, h2]; simp⟩
  · trivial

/-- What a side of a direction says of the angle `θ` of a point. -/
def SideHolds (θ : ℝ) (t : Rat) (o : Option Ordering) : Prop :=
  match o with
  | some .gt => (t : ℝ) * Real.pi ≤ θ
  | some .lt => θ ≤ (t : ℝ) * Real.pi
  | some .eq => θ = (t : ℝ) * Real.pi
  | none => True

/-- The bisection keeps the angle between its two directions. -/
theorem bisect_spec {side : Rat → Option Ordering} {θ : ℝ}
    (hs : ∀ t : Rat, |θ - (t : ℝ) * Real.pi| < Real.pi → SideHolds θ t (side t)) :
    ∀ (fuel : Nat) (a b : Rat), a ≤ b → b - a ≤ 1 → (a : ℝ) * Real.pi ≤ θ →
      θ ≤ (b : ℝ) * Real.pi →
      ((bisect side fuel a b).1 : ℝ) * Real.pi ≤ θ ∧ θ ≤ ((bisect side fuel a b).2 : ℝ) * Real.pi
  | 0, a, b, _, _, h1, h2 => ⟨h1, h2⟩
  | fuel + 1, a, b, hab, hb, h1, h2 => by
    have hp := Real.pi_pos
    have hbr : (b : ℝ) - (a : ℝ) ≤ 1 := by exact_mod_cast hb
    have hm : |θ - (((a + b) / 2 : ℚ) : ℝ) * Real.pi| < Real.pi := by
      rw [abs_lt]; push_cast
      constructor <;> nlinarith
    have hm' : |θ - (((2 * a + b) / 3 : ℚ) : ℝ) * Real.pi| < Real.pi := by
      rw [abs_lt]; push_cast
      constructor <;> nlinarith
    have k := hs _ hm
    have k' := hs _ hm'
    unfold bisect
    simp only
    split
    · next h => rw [h] at k; exact bisect_spec hs fuel _ _ (by linarith) (by linarith) k h2
    · next h => rw [h] at k; exact bisect_spec hs fuel _ _ (by linarith) (by linarith) h1 k
    · next h => rw [h] at k; exact ⟨k.ge, k.le⟩
    · split
      · next h => rw [h] at k'; exact bisect_spec hs fuel _ _ (by linarith) (by linarith) k' h2
      · next h => rw [h] at k'; exact bisect_spec hs fuel _ _ (by linarith) (by linarith) h1 k'
      · next h => rw [h] at k'; exact ⟨k'.ge, k'.le⟩
      · exact ⟨h1, h2⟩

theorem Enclosure.holds_ofTurns {t : Rat × Rat} {θ : ℝ} (h1 : (t.1 : ℝ) * Real.pi ≤ θ)
    (h2 : θ ≤ (t.2 : ℝ) * Real.pi) : (Enclosure.ofTurns t).Holds θ := by
  unfold Enclosure.ofTurns
  split
  · next h =>
    rw [← h] at h2
    rw [le_antisymm h2 h1]
    exact Enclosure.holds_piTimes _
  · have a := (Interval.holds_ofRat t.1).mul Interval.holds_pi
    have b := (Interval.holds_ofRat t.2).mul Interval.holds_pi
    exact ⟨a.1.trans (mul_le_mul_of_nonneg_right h1 fixedScale_pos.le),
      (mul_le_mul_of_nonneg_right h2 fixedScale_pos.le).trans b.2⟩

/-- The cross product of a point with a direction, by the angle of the point. -/
theorem cross_polar (x y φ : ℝ) : y * Real.cos φ - x * Real.sin φ =
    ‖(⟨x, y⟩ : ℂ)‖ * Real.sin (Complex.arg ⟨x, y⟩ - φ) := by
  have hx : ‖(⟨x, y⟩ : ℂ)‖ * Real.cos (Complex.arg ⟨x, y⟩) = x := Complex.norm_mul_cos_arg _
  have hy : ‖(⟨x, y⟩ : ℂ)‖ * Real.sin (Complex.arg ⟨x, y⟩) = y := Complex.norm_mul_sin_arg _
  rw [Real.sin_sub, mul_sub, ← mul_assoc, ← mul_assoc, hx, hy]

theorem sideOfPoint_spec {a b : Enclosure} {i j : Interval} {x y : ℝ} (ha : a.Holds y)
    (hb : b.Holds x) (hi : i.Holds y) (hj : j.Holds x) (h0 : (⟨x, y⟩ : ℂ) ≠ 0) (t : Rat)
    (ht : |Complex.arg ⟨x, y⟩ - (t : ℝ) * Real.pi| < Real.pi) :
    SideHolds (Complex.arg ⟨x, y⟩) t (sideOfPoint a b i j t) := by
  set θ := Complex.arg (⟨x, y⟩ : ℂ) with hθ
  have hr : 0 < ‖(⟨x, y⟩ : ℂ)‖ := norm_pos_iff.mpr h0
  have hc := cross_polar x y ((t : ℝ) * Real.pi)
  rw [← hθ] at hc
  obtain ⟨hlo, hhi⟩ := abs_lt.mp ht
  obtain ⟨s1, s2⟩ := SineSum.sinPi_spec t
  obtain ⟨c1, c2⟩ := SineSum.cosPi_spec t
  have hcross : (Interval.sub (i.mul (SineSum.cosPi t).toInterval)
      (j.mul (SineSum.sinPi t).toInterval)).Holds
      (‖(⟨x, y⟩ : ℂ)‖ * Real.sin (θ - (t : ℝ) * Real.pi)) := by
    rw [← hc, ← s2, ← c2]
    exact (hi.mul (SineSum.holds_toInterval c1)).sub (hj.mul (SineSum.holds_toInterval s1))
  unfold sideOfPoint sideOf
  simp only
  split_ifs with h1 h2
  · by_contra hn
    have hn' : θ < (t : ℝ) * Real.pi := not_le.mp hn
    have := Real.sin_neg_of_neg_of_neg_pi_lt (sub_neg.mpr hn') hlo
    nlinarith [hcross.pos h1]
  · by_contra hn
    have hn' : (t : ℝ) * Real.pi < θ := not_le.mp hn
    have := Real.sin_pos_of_pos_of_lt_pi (sub_pos.mpr hn') hhi
    nlinarith [hcross.negative h2]
  · simp only
    split
    · rename_i u d l u' d' l'
      split_ifs with he
      · obtain ⟨k1, k2⟩ := SineSum.cross_spec (y := l) (x := l') t
        have hzero : ‖(⟨x, y⟩ : ℂ)‖ * Real.sin (θ - (t : ℝ) * Real.pi) = 0 := by
          rw [← hc]
          have hz : l.toReal * Real.cos ((t : ℝ) * Real.pi)
              - l'.toReal * Real.sin ((t : ℝ) * Real.pi) = 0 := by
            rw [← k2, he.2.2, SineSum.toReal_nil]
          rw [ha.2, hb.2, he.1, he.2.1]
          linear_combination (Real.pi ^ u' / Real.pi ^ d') * hz
        have hs := (mul_eq_zero.mp hzero).resolve_left hr.ne'
        have := (Real.sin_eq_zero_iff_of_lt_of_lt hlo hhi).mp hs
        exact sub_eq_zero.mp this
      · trivial
    · trivial

theorem Enclosure.Holds.atan2Point {a b : Enclosure} {x y : ℝ} (ha : a.Holds y) (hb : b.Holds x) :
    (atan2Point a b).Holds (Complex.arg ⟨x, y⟩) := by
  have hp := Real.pi_pos
  unfold Sys2Proof.Machine.atan2Point
  split
  · next i j hi hj =>
    have hi' := ha.toInterval hi
    have hj' := hb.toInterval hj
    simp only
    split_ifs with h1 h2 h3
    · have hy := hi'.pos h1
      have h0 : (⟨x, y⟩ : ℂ) ≠ 0 := fun h => hy.ne' (congrArg Complex.im h)
      obtain ⟨r1, r2⟩ := bisect_spec (sideOfPoint_spec ha hb hi' hj' h0) 64 0 1 (by norm_num)
        (by norm_num)
        (by push_cast; rw [zero_mul]; exact Complex.arg_nonneg_iff.mpr hy.le)
        (by push_cast; rw [one_mul]; exact Complex.arg_le_pi _)
      exact Enclosure.holds_ofTurns r1 r2
    · have hy := hi'.negative h2
      have h0 : (⟨x, y⟩ : ℂ) ≠ 0 := fun h => hy.ne (congrArg Complex.im h)
      obtain ⟨r1, r2⟩ := bisect_spec (sideOfPoint_spec ha hb hi' hj' h0) 64 (-1) 0 (by norm_num)
        (by norm_num)
        (by push_cast; rw [neg_one_mul]; exact (Complex.neg_pi_lt_arg _).le)
        (by push_cast; rw [zero_mul]; exact (Complex.arg_neg_iff.mpr hy).le)
      exact Enclosure.holds_ofTurns r1 r2
    · have hx := hj'.pos h3
      have h0 : (⟨x, y⟩ : ℂ) ≠ 0 := fun h => hx.ne' (congrArg Complex.re h)
      have hl : |Complex.arg ⟨x, y⟩| ≤ Real.pi / 2 := Complex.abs_arg_le_pi_div_two_iff.mpr hx.le
      obtain ⟨l1, l2⟩ := abs_le.mp hl
      obtain ⟨r1, r2⟩ := bisect_spec (sideOfPoint_spec ha hb hi' hj' h0) 64 (-1 / 2) (1 / 2)
        (by norm_num) (by norm_num) (by push_cast; linarith) (by push_cast; linarith)
      exact Enclosure.holds_ofTurns r1 r2
    · trivial
  · trivial

theorem Enclosure.Holds.atan2 {a b : Enclosure} {x y : ℝ} (ha : a.Holds y) (hb : b.Holds x) :
    (a.atan2 b).Holds (Complex.arg ⟨x, y⟩) := by
  unfold Enclosure.atan2
  split
  · next s hs0 hs =>
    have hy : y = 0 := by
      rcases ha.sign? hs0 with ⟨_, h⟩ | ⟨h, _⟩ | ⟨h, _⟩
      · exact h
      · cases h
      · cases h
    subst hy
    have hof : (⟨x, 0⟩ : ℂ) = (x : ℂ) := rfl
    rw [hof]
    rcases hb.sign? hs with ⟨rfl, hx⟩ | ⟨rfl, hx⟩ | ⟨rfl, hx⟩
    · rw [if_neg (by decide), Complex.arg_ofReal_of_nonneg hx.ge]; exact Enclosure.holds_zero
    · rw [if_neg (by decide), Complex.arg_ofReal_of_nonneg hx.le]; exact Enclosure.holds_zero
    · rw [if_pos rfl, Complex.arg_ofReal_of_neg hx]
      simpa using Enclosure.holds_piTimes 1
  · next s hne hs hs0 =>
    have hx : x = 0 := by
      rcases hb.sign? hs0 with ⟨_, h⟩ | ⟨h, _⟩ | ⟨h, _⟩
      · exact h
      · cases h
      · cases h
    subst hx
    rcases ha.sign? hs with ⟨rfl, hy⟩ | ⟨rfl, hy⟩ | ⟨rfl, hy⟩
    · exact absurd rfl hne
    · rw [if_pos rfl]
      have : Complex.arg (⟨0, y⟩ : ℂ) = Real.pi / 2 := by
        rw [Complex.arg_eq_pi_div_two_iff]; exact ⟨rfl, hy⟩
      rw [this]
      convert Enclosure.holds_piTimes (1 / 2) using 1
      push_cast; ring
    · rw [if_neg (by decide)]
      have : Complex.arg (⟨0, y⟩ : ℂ) = -(Real.pi / 2) := by
        rw [Complex.arg_eq_neg_pi_div_two_iff]; exact ⟨rfl, hy⟩
      rw [this]
      convert Enclosure.holds_piTimes (-1 / 2) using 1
      push_cast; ring
  · exact ha.atan2Point hb

/-- The quotient that `clipPattern` recognises, where its divisor is not 0. -/
theorem clipPattern_spec {n d a b : Val} {q : Rat} (h : clipPattern n d = some (a, b, q))
    (hd : Val.toReal d ≠ 0) : Val.toReal n / Val.toReal d = (q : ℝ) := by
  unfold clipPattern at h
  split at h
  · next c a' b' two a'' b'' =>
    split_ifs at h with h1 h2 h3
    · obtain ⟨rfl, rfl, rfl⟩ := h1
      cases h
      subst h2
      have hd' : Val.toReal c - Val.toReal b ≠ 0 := hd
      simp only [Val.toReal]
      push_cast
      field_simp
      ring
    · obtain ⟨rfl, rfl, rfl⟩ := h1
      cases h
      subst h3
      have hd' : Val.toReal a - Val.toReal c ≠ 0 := hd
      simp only [Val.toReal]
      push_cast
      field_simp
      ring
  · cases h

theorem halfTurns_spec (p : U32) :
    2 * Real.pi * (p.toNat : ℝ) / 2 ^ 32 = ((halfTurns p : ℚ) : ℝ) * Real.pi := by
  have : ((halfTurns p : ℚ) : ℝ) = (p.toNat : ℝ) / 2 ^ 31 := by
    rw [halfTurns, Rat.mkRat_eq_div]
    push_cast
    norm_num
  rw [this]
  ring

end Sys2Proof.Machine
end

