-- ==== Sys2Proof/Laws/Flags.lean ====
section
/-!
SUPPORT. The bits of the flag bytes.
-/

namespace Sys2Proof.Machine

theorem flagByte_bits (f7 f6 f5 f4 f3 f2 f1 f0 : Bool) :
    (flagByte f7 f6 f5 f4 f3 f2 f1 f0).getLsbD 0 = f0 ∧
    (flagByte f7 f6 f5 f4 f3 f2 f1 f0).getLsbD 1 = f1 ∧
    (flagByte f7 f6 f5 f4 f3 f2 f1 f0).getLsbD 2 = f2 ∧
    (flagByte f7 f6 f5 f4 f3 f2 f1 f0).getLsbD 3 = f3 ∧
    (flagByte f7 f6 f5 f4 f3 f2 f1 f0).getLsbD 4 = f4 ∧
    (flagByte f7 f6 f5 f4 f3 f2 f1 f0).getLsbD 5 = f5 ∧
    (flagByte f7 f6 f5 f4 f3 f2 f1 f0).getLsbD 6 = f6 ∧
    (flagByte f7 f6 f5 f4 f3 f2 f1 f0).getLsbD 7 = f7 := by
  revert f7 f6 f5 f4 f3 f2 f1 f0
  decide

/-- The flags of a data-path response, bit by bit (rule R112). -/
theorem dataFlags_bits (ev : DataEvent) (fa : Bool) :
    (dataFlags ev fa).getLsbD 0 = ev.bv ∧ (dataFlags ev fa).getLsbD 1 = ev.b ∧
    (dataFlags ev fa).getLsbD 2 = ev.df.db ∧ (dataFlags ev fa).getLsbD 3 = ev.df.flg ∧
    (dataFlags ev fa).getLsbD 4 = ev.df.fe ∧ (dataFlags ev fa).getLsbD 5 = fa ∧
    (dataFlags ev fa).getLsbD 6 = ev.tr ∧ (dataFlags ev fa).getLsbD 7 = ev.df.ovf :=
  flagByte_bits _ _ _ _ _ _ _ _

end Sys2Proof.Machine
end

