-- ==== Sys2Proof/Laws/PerInstr.lean ====
section
/-!
SUPPORT. Statements made per instruction: the fields of each instruction's encoding, as numbers.
-/

namespace Sys2Proof.Laws.EncodedFields

open Sys2Proof.Machine

/-- The encoding of the instruction has an assigned operation code, and the fields its format does not
use are zero (rules R101, R106). -/
def Statement (i : Instr) : Prop :=
  ¬ReservedOpcode (opField (encode i)).toNat ∧
    ¬UnusedFieldSet (opField (encode i)).toNat (selField (encode i)).toNat
      (idxField (encode i)).toNat (dataField (encode i)).toNat

theorem bitData_lt (b : Bool) : (bitData b).toNat < 2 := by cases b <;> decide

theorem reset : Statement .reset := by
  simp [Statement, encode, ReservedOpcode, UnusedFieldSet, Opcode.byte]

theorem start : Statement .start := by
  simp [Statement, encode, ReservedOpcode, UnusedFieldSet, Opcode.byte]

theorem cfgwr (sel : U8) (data : U32) : Statement (.cfgwr sel data) := by
  simp [Statement, encode, ReservedOpcode, UnusedFieldSet, Opcode.byte]

theorem cfgrd (sel : U8) : Statement (.cfgrd sel) := by
  simp [Statement, encode, ReservedOpcode, UnusedFieldSet, Opcode.byte]

theorem coefwr (sel : U8) (idx : U16) (data : U32) : Statement (.coefwr sel idx data) := by
  simp [Statement, encode, ReservedOpcode, UnusedFieldSet, Opcode.byte]

theorem coefrd (sel : U8) (idx : U16) : Statement (.coefrd sel idx) := by
  simp [Statement, encode, ReservedOpcode, UnusedFieldSet, Opcode.byte]

theorem fdgen (sel : U8) : Statement (.fdgen sel) := by
  simp [Statement, encode, ReservedOpcode, UnusedFieldSet, Opcode.byte]

theorem sample (data : U32) : Statement (.sample data) := by
  simp [Statement, encode, ReservedOpcode, UnusedFieldSet, Opcode.byte]

theorem demodin (data : U32) : Statement (.demodin data) := by
  simp [Statement, encode, ReservedOpcode, UnusedFieldSet, Opcode.byte]

theorem bitin (bit : Bool) : Statement (.bitin bit) := by
  have := bitData_lt bit
  simp [Statement, encode, ReservedOpcode, UnusedFieldSet, Opcode.byte, this]

theorem setdd (bit : Bool) : Statement (.setdd bit) := by
  have := bitData_lt bit
  simp [Statement, encode, ReservedOpcode, UnusedFieldSet, Opcode.byte, this]

theorem framerd : Statement .framerd := by
  simp [Statement, encode, ReservedOpcode, UnusedFieldSet, Opcode.byte]

end Sys2Proof.Laws.EncodedFields
end

