-- ==== Sys2Proof/Laws/Real.lean ====
section
/-!
SUPPORT. The shared operations over the real numbers: comparisons, sums, the convolution, the
normalisation, and rounding half up.
-/

namespace Sys2Proof.Machine

/-- The comparisons of a record that orders by the real numbers (rule R9). -/
theorem Num.IsReal.lt_iff {N : Machine.Num} (h : N.IsReal) (a b : Val) :
    N.lt a b = true ↔ Val.toReal a < Val.toReal b := h.1 a b

theorem Num.IsReal.le_iff {N : Machine.Num} (h : N.IsReal) (a b : Val) :
    N.le a b = true ↔ Val.toReal a ≤ Val.toReal b := by
  unfold Num.le
  rw [← not_lt, ← h.1 b a]
  simp

theorem Num.IsReal.eq_iff {N : Machine.Num} (h : N.IsReal) (a b : Val) :
    N.eq a b = true ↔ Val.toReal a = Val.toReal b := by
  have h1 := h.le_iff a b
  have h2 := h.le_iff b a
  unfold Num.le at h1 h2
  unfold Num.eq
  rw [Bool.and_eq_true, h1, h2]
  constructor
  · exact fun k => le_antisymm k.2 k.1
  · exact fun k => ⟨k.ge, k.le⟩

theorem half_toReal : ((mkRat 1 2 : ℚ) : ℝ) = 1 / 2 := by
  rw [Rat.mkRat_eq_div]
  norm_num

/-- A register that holds a value pattern, read as a value (rule R11). -/
theorem valOf_toReal {b : U32} (h : isValue b = true) : Val.toReal (valOf b) = decRat b := by
  simp [valOf, dec32, h, Val.toReal]

theorem dec32_of_isValue {b : U32} (h : isValue b = true) : dec32 b = some (.lit (decRat b)) :=
  if_pos h

theorem dec32_eq_none {b : U32} (h : isValue b = false) : dec32 b = none :=
  if_neg (by rw [h]; exact Bool.false_ne_true)

/-- A sum of values is the sum of the real numbers they are. -/
theorem sumVal_toReal (l : List Val) : Val.toReal (sumVal l) = (l.map Val.toReal).sum := by
  have key : ∀ (l : List Val) (a : Val),
      Val.toReal (l.foldl .add a) = Val.toReal a + (l.map Val.toReal).sum := by
    intro l
    induction l with
    | nil => intro a; simp
    | cons x l ih =>
      intro a
      rw [List.foldl_cons, ih, List.map_cons, List.sum_cons, Val.toReal]
      ring
  unfold sumVal
  rw [key]
  simp [Val.toReal, Val.zero]

/-- A convolution is the sum of the products (rule R12). -/
theorem conv_toReal (c h : List Val) (n : Nat) :
    Val.toReal (conv c h n) =
      (((c.zip h).take n).map fun p => Val.toReal p.1 * Val.toReal p.2).sum := by
  have key : ∀ (l : List (Val × Val)) (a : Val),
      Val.toReal (l.foldl (fun acc p => .add acc (.mul p.1 p.2)) a) =
        Val.toReal a + (l.map fun p => Val.toReal p.1 * Val.toReal p.2).sum := by
    intro l
    induction l with
    | nil => intro a; simp
    | cons x l ih =>
      intro a
      rw [List.foldl_cons, ih, List.map_cons, List.sum_cons, Val.toReal, Val.toReal]
      ring
  unfold conv
  rw [key]
  simp [Val.toReal, Val.zero]

/-- A normalisation answers zeros with the warning, or the quotients without it (rule R138). -/
theorem normalise_cases (N : Machine.Num) (eps divisor : Val) (w : List Val) :
    (N.le (.abs divisor) eps = true ∧
      normalise N eps divisor w = (w.map fun _ => .zero, true)) ∨
    (N.le (.abs divisor) eps = false ∧
      normalise N eps divisor w = (w.map fun x => .div x divisor, false)) := by
  unfold normalise
  cases N.le (.abs divisor) eps
  · exact .inr ⟨rfl, rfl⟩
  · exact .inl ⟨rfl, rfl⟩

/-- A designed filter has as many taps as were asked for. -/
theorem normalise_length (N : Machine.Num) (eps divisor : Val) (w : List Val) :
    (normalise N eps divisor w).1.length = w.length := by
  rcases normalise_cases N eps divisor w with ⟨_, h⟩ | ⟨_, h⟩ <;> rw [h] <;> exact List.length_map _

theorem designFilter_length (N : Machine.Num) (p : Params) (f : FilterSpec) (n : Nat) :
    (designFilter N p f n).1.length = n := by
  unfold designFilter
  split_ifs
  · exact (normalise_length _ _ _ _).trans (by simp [lowpassWeights, taps])
  · exact (normalise_length _ _ _ _).trans (by simp [bandpassWeights, taps])
  · exact (normalise_length _ _ _ _).trans (by simp [rrcWeights, taps])

/-- `round_half_up` of a quotient of naturals (rule R8). -/
theorem roundHalfUp_floor (a b : Nat) (hb : 0 < b) :
    (roundHalfUp a b : Int) = ⌊(a / b : ℚ) + 1 / 2⌋ := by
  have hb' : (0 : ℚ) < b := by exact_mod_cast hb
  have h : ((a : ℚ) / b + 1 / 2) = ((2 * a + b : ℕ) : ℚ) / ((2 * b : ℕ) : ℚ) := by
    push_cast
    field_simp
  rw [h, ← Int.natCast_floor_eq_floor (by positivity), Nat.floor_div_eq_div, roundHalfUp]

end Sys2Proof.Machine
end

