-- ==== Sys2Proof/Tests/Slice0.lean ====
section
/-!
SUPPORT. Tests: the form checks with an ill-formed term for each, words written out from the encoding,
one or two single steps per command with results the spec states, and for every statement with hypotheses a
witness that meets them.
-/

namespace Sys2Proof.Tests

open Sys2Proof Sys2Proof.Machine

/-! ## Form checks (rules R45, R47, R74, R105 steps 4 and 6) -/

theorem test_wf_cfgwr_unimplemented : (Instr.cfgwr 0x0C#8 1#32).wellFormed = false := by decide
theorem test_wf_cfgwr_readonly : (Instr.cfgwr 0x80#8 1#32).wellFormed = false := by decide
theorem test_wf_cfgrd_unimplemented : (Instr.cfgrd 0x17#8).wellFormed = false := by decide
theorem test_wf_coefwr_bank : (Instr.coefwr 2#8 0#16 0#32).wellFormed = false := by decide
theorem test_wf_coefwr_nan : (Instr.coefwr 0#8 0#16 0x7FC00000#32).wellFormed = false := by decide
theorem test_wf_coefrd_bank : (Instr.coefrd 2#8 0#16).wellFormed = false := by decide
theorem test_wf_fdgen_bank : (Instr.fdgen 2#8).wellFormed = false := by decide
theorem test_wf_sample_inf : (Instr.sample 0x7F800000#32).wellFormed = false := by decide
theorem test_wf_demodin_nan : (Instr.demodin 0xFFC00001#32).wellFormed = false := by decide
theorem test_wf_ok : (Instr.cfgwr 0x21#8 4#32).wellFormed = true ∧
    (Instr.cfgrd 0xF2#8).wellFormed = true ∧ (Instr.sample 0x7F7FFFFF#32).wellFormed = true := by
  decide

/-! ## Words written out bit by bit from rules R100, R101, R103, R108 -/

theorem test_decode_reset :
    decode (0b00000001#8 ++ 0b00000000#8 ++ 0x0000#16 ++ 0x00000000#32) = .ok .reset := by decide
theorem test_decode_start :
    decode (0b00000010#8 ++ 0b00000000#8 ++ 0x0000#16 ++ 0x00000000#32) = .ok .start := by decide
theorem test_decode_cfgwr : decode (0b00010000#8 ++ 0b00000000#8 ++ 0x0000#16 ++ 0x0000BB80#32) =
    .ok (.cfgwr 0x00#8 48000#32) := by decide
theorem test_decode_cfgrd : decode (0b00010001#8 ++ 0b10000001#8 ++ 0x0000#16 ++ 0x00000000#32) =
    .ok (.cfgrd 0x81#8) := by decide
theorem test_decode_coefwr : decode (0b00010010#8 ++ 0b00000001#8 ++ 0x0002#16 ++ 0x3E800000#32) =
    .ok (.coefwr 1#8 2#16 0x3E800000#32) := by decide
theorem test_decode_coefrd : decode (0b00010011#8 ++ 0b00000000#8 ++ 0x0007#16 ++ 0x00000000#32) =
    .ok (.coefrd 0#8 7#16) := by decide
theorem test_decode_fdgen : decode (0b00010100#8 ++ 0b00000001#8 ++ 0x0000#16 ++ 0x00000000#32) =
    .ok (.fdgen 1#8) := by decide
theorem test_decode_sample : decode (0b00100000#8 ++ 0b00000000#8 ++ 0x0000#16 ++ 0xBF800000#32) =
    .ok (.sample 0xBF800000#32) := by decide
theorem test_decode_demodin : decode (0b00100001#8 ++ 0b00000000#8 ++ 0x0000#16 ++ 0x3F800000#32) =
    .ok (.demodin 0x3F800000#32) := by decide
theorem test_decode_bitin : decode (0b00100010#8 ++ 0b00000000#8 ++ 0x0000#16 ++ 0x00000001#32) =
    .ok (.bitin true) := by decide
theorem test_decode_setdd : decode (0b00100011#8 ++ 0b00000000#8 ++ 0x0000#16 ++ 0x00000000#32) =
    .ok (.setdd false) := by decide
theorem test_decode_framerd :
    decode (0b00110000#8 ++ 0b00000000#8 ++ 0x0000#16 ++ 0x00000000#32) = .ok .framerd := by decide
theorem test_decode_zero_word : decode 0#64 = .illegalOp := by decide
theorem test_decode_reserved_field : decode 0x2200000000000002#64 = .reservedField := by decide
theorem test_decode_table_word : decodeTableWord 64 0x1021000000000004 = some (.cfgwr 0x21#8 4#32) ∧
    decodeTableWord 64 0x3100000000000000 = none := by decide

/-! ## States the tests start from -/

/-- The configuration of rule R241's example, with one tap in bank 1 so that it stays small. -/
def cfg : Cfg :=
  { Cfg.reset with
    sampleRate := 48000#32, symbolRate := 1200#32, markFreq := 1200#32, spaceFreq := 2200#32
    agcAttack := 0x3F000000#32, agcDecay := 0x3E000000#32
    pllLockedInertia := 48497#32, pllSearchInertia := 32768#32
    frameMin := 1#32, frameMax := 2#32, coefLen := ⟨0#32, 1#32⟩ }

/-- A CONFIG state that START accepts. -/
def ready : State := { State.reset with cfg := cfg }

/-- The same for the discriminator profile. -/
def readyDisc : State := { ready with cfg := { cfg with profile := 1#32 } }

/-- A RUN state. -/
def run : State := { ready with mode := .run, derived := deriveConstants cfg }

/-- A RUN state of the discriminator profile with the pre-filter on. -/
def runDisc : State :=
  { run with cfg := { cfg with profile := 1#32, demodCtrl := 1#32, coefLen := ⟨1#32, 1#32⟩ } }

/-- A RUN state with a deframer. -/
def withDf (d : Deframer) : State := { run with df := d }

/-- A RUN state with a PLL and a step. -/
def withPll (acc step : U32) : State :=
  { run with pll := { run.pll with acc := acc }, derived := { run.derived with pllStep := step } }

/-- The response word of a command. -/
def word (i : Instr) (s : State) : Option Word :=
  (nextOf (exec i s)).bind fun t => t.resp.map (·.word)

/-! ## One or two steps per command, with results the spec states -/

-- R240: the response is zero and MODE is CONFIG.
theorem test_reset : word .reset run = some 0#64 ∧
    (nextOf (exec .reset run)).map (·.mode) = some .config := by decide +kernel
-- R242: the constants of 48000, 1200, 1200, 2200.
theorem test_start : word .start ready = some 0#64 ∧
    (nextOf (exec .start ready)).map (·.derived.pllStep) = some 0x06666666#32 ∧
    (nextOf (exec .start ready)).map (·.derived.oscInc) = some ⟨0x06666666#32, 0x0BBBBBBC#32⟩ := by
  decide +kernel
-- R241: START straight after RESET fails at line 1.
theorem test_start_after_reset : word .start State.reset = some 0x1000000000000000#64 := by
  decide +kernel
-- R243: CFGWR COEF_LEN[1], 4 stores 5.
theorem test_cfgwr_length : word (.cfgwr 0x21#8 4#32) ready = some 0x0000000500000000#64 := by
  decide +kernel
-- R243: a CFGWR in RUN raises ERR_MODE whatever the register.
theorem test_cfgwr_run : word (.cfgwr 0xFF#8 4#32) run = some 0x0300000000000000#64 := by
  decide +kernel
-- R244: CFGRD ID.
theorem test_cfgrd_id : word (.cfgrd 0xF0#8) run = some 0x0000000041465258#64 := by decide +kernel
-- R40: DF_REGS packs SHIFT_REG, OCTET_ACC and BITS_IN_OCTET.
theorem test_cfgrd_df_regs : word (.cfgrd 0x88#8) (withDf { Deframer.reset with
    shiftReg := 0x12#8, octetAcc := 0x34#8, bitsInOctet := 5#3 }) = some 0x53412#64 := by
  decide +kernel
-- R139: COEFWR 1, 0, f:0.25.
theorem test_coefwr : word (.coefwr 1#8 0#16 0x3E800000#32) ready = some 0#64 ∧
    (nextOf (exec (.coefwr 1#8 0#16 0x3E800000#32) ready)).map (·.mem.coefAt .i1 0) =
      some (.lit (mkRat 1 4)) := by decide +kernel
-- R133, R140: the filter LOWPASS 1, 3, 0.25, 0, and its middle tap.
theorem test_fdgen_coefrd :
    let s := { ready with cfg := { cfg with spec := ⟨.reset,
      { FilterSpec.reset with taps := 3#32, f1 := 0x3E800000#32 }⟩ } }
    word (.fdgen 1#8) s = some 0x0000000300000000#64 ∧
    (nextOf (exec (.fdgen 1#8) s)).bind (word (.coefrd 1#8 1#16)) = some 0x3EE13AAF#64 := by
  decide +kernel
-- R133: FDGEN with the specification at its reset value.
theorem test_fdgen_refused : word (.fdgen 0#8) ready = some 0x1600000000000000#64 := by
  decide +kernel
/-- A RUN state one PLL step before the wrap of vector TD1, sample 3. -/
def td1 : State := withPll 0x60000000#32 0x20000000#32
-- TD1, sample 3: the first wrap emits the bit 0, which decodes to 1 (flags 0x05); here of the output 0.
theorem test_sample_wrap : word (.sample 0x00000000#32) td1 = some 0x0005000000000000#64 := by
  decide +kernel
-- R163, R165, R170 (worked there): with one tap 1 and the first input 1, a = 1, the envelopes become
-- 0.5 and 0.125 and each normalised output is 1/2, so the output is 0.
theorem test_sample_agc :
    let s := { run with mem := run.mem.setCoef .i1 0 (.lit 1) }
    word (.sample 0x3F800000#32) s = some 0#64 ∧
    (nextOf (exec (.sample 0x3F800000#32) s)).bind (word (.cfgrd 0x8C#8)) =
      some 0x3F000000#64 := by decide +kernel
-- R197: DEMODIN f:1.0 with PLL_STEP 0x40000000 and search inertia 32768.
theorem test_demodin : word (.demodin 0x3F800000#32) (withPll 0#32 0x40000000#32) =
      some 0x004000003F800000#64 ∧
    (nextOf (exec (.demodin 0x3F800000#32) (withPll 0#32 0x40000000#32))).map (·.pll) =
      some ⟨0x20000000#32, true, false⟩ := by decide +kernel
-- R219: BITIN 1 in the state START leaves.
theorem test_bitin : word (.bitin true) run = some 0x0003000000000000#64 ∧
    (nextOf (exec (.bitin true) run)).map (·.df.prevRaw) = some true := by decide +kernel
-- R212, R213: the eighth bit of a flag.
theorem test_bitin_flag : word (.bitin true) (withDf { Deframer.reset with shiftReg := 0xFC#8 }) =
    some 0x000B000000000000#64 := by decide +kernel
-- R198: afterwards STATUS bit 3 reads 1.
theorem test_setdd : (nextOf (exec (.setdd true) run)).bind (word (.cfgrd 0x81#8)) = some 8#64 := by
  decide +kernel

/-- A slot that holds the octets 41 42 43 of rule R220's example. -/
def slotted : State :=
  { withDf { Deframer.reset with slotValid := true, slotLen := 3 } with
    mem := { run.mem with slotBuf := [0x41#8, 0x42#8, 0x43#8] ++ List.replicate 13 0#8 } }
-- R220: FRAMERD of 41 42 43, and its payload word.
theorem test_framerd : word .framerd slotted = some 0x0001000300000000#64 ∧
    ((nextOf (exec .framerd slotted)).bind (·.resp)).map (fun r => payloadWords r.payload) =
      some [0x0000000000434241#64] := by decide +kernel
-- R220: a second FRAMERD.
theorem test_framerd_twice : (nextOf (exec .framerd slotted)).bind (word .framerd) = some 0#64 := by
  decide +kernel
-- R102, R260: the codes of the errors found before a command's own validation.
theorem test_error_words :
    (nextOf (step (State.reset.withFetchWord 64 0))).bind (fun t => t.resp.map (·.word)) =
      some 0x0100000000000000#64 ∧
    (nextOf (step (State.reset.withFetchWord 64 0x2200000000000002))).bind
      (fun t => t.resp.map (·.word)) = some 0x0200000000000000#64 ∧
    word (.cfgrd 0x0C#8) run = some 0x0400000000000000#64 ∧
    word (.coefrd 1#8 9#16) run = some 0x0500000000000000#64 ∧
    word (.demodin 0x7F800000#32) run = some 0x0600000000000000#64 := by decide +kernel

-- R13: the next step runs exactly the word placed.
theorem test_with_fetch_word :
    (nextOf (step (State.reset.withFetchWord 64 0x3000000000000000))).bind (·.resp) =
      some (okResponse 0#8 0#16 0#32) := by decide +kernel

/-! ## Witnesses: the hypotheses of the statements can be met, clause by clause -/

/-- An outcome with a next state is that next state. -/
theorem next_of {o : Result} (h : (nextOf o).isSome = true) : ∃ t, o = .next t := by
  cases o with
  | next t => exact ⟨t, rfl⟩
  | fault f => cases h
  | refused r => cases h

/-- A record that meets `Num.IsReal` by definition. -/
def numReal : Machine.Num := { lt := exactLt, enc32 := exactEnc32 }

theorem numReal_isReal : numReal.IsReal := ⟨exactLt_iff, exactEnc32_eq⟩

theorem witness_EncodeDecode : decode 0x1200000000000000#64 = .ok (.coefwr 0#8 0#16 0#32) := by decide

theorem witness_StepRunsDecoded :
    ({ State.reset with cmds := [0x0200000000000000#64] } : State).cmds =
      0x0200000000000000#64 :: [] ∧
    decode 0x0200000000000000#64 = .ok .start ∧ State.reset.cmds = [] := ⟨rfl, by decide, rfl⟩

theorem witness_ReservedOpcodeRefused :
    ({ State.reset with cmds := [0xFF00000000000000#64] } : State).cmds =
      0xFF00000000000000#64 :: [] ∧
    ∀ op ∈ [0x00, 0x03, 0x0F, 0x15, 0x1F, 0x24, 0x2F, 0x31, 0xFF], ReservedOpcode op := by
  refine ⟨rfl, ?_⟩
  unfold ReservedOpcode
  decide

theorem witness_UnusedFieldRefused :
    ({ State.reset with cmds := [0x0100000000000001#64] } : State).cmds =
      0x0100000000000001#64 :: [] ∧
    ∀ w ∈ [0x0100000000000001#64, 0x1000000100000000#64, 0x1100000000000001#64,
      0x1300000000000001#64, 0x2001000000000000#64, 0x2200000000000002#64],
      decode w = .reservedField := by
  refine ⟨rfl, ?_⟩
  simp only [List.forall_mem_cons, List.not_mem_nil, false_imp_iff, implies_true, and_true]
  decide

theorem witness_EveryStepCompletes : ({ State.reset with cmds := [0#64] } : State).cmds ≠ [] := by decide

theorem witness_RefusedCommandChangesNothing :
    (∃ t r, exec (.sample 0#32) State.reset = .next t ∧ t.resp = some r ∧ r.status ≠ .ok) ∧
    ∃ t r, step { State.reset with cmds := [0#64] } = .next t ∧ t.resp = some r ∧ r.status ≠ .ok :=
  ⟨⟨_, _, rfl, rfl, by decide⟩, _, _, rfl, rfl, by decide⟩

theorem reset_inv : State.reset.Inv := by
  refine ⟨by decide, State.reset_wf, fun b => ?_, fun _ => ?_, ?_⟩
  · cases b <;> exact .inl rfl
  · exact ⟨rfl, rfl, rfl, rfl, rfl, rfl, rfl, rfl, rfl⟩
  · refine ⟨by decide, fun h => ?_, fun h => ?_, fun _ => ⟨rfl, rfl, rfl, rfl⟩, fun h => ?_⟩ <;>
      cases h

theorem run_inv : run.Inv := by
  refine ⟨by decide, State.reset_wf, fun b => ?_, fun h => ?_, ?_⟩
  · cases b
    · exact .inl rfl
    · exact .inr (by decide)
  · cases h
  · refine ⟨by decide, fun _ => by decide, fun h => ?_, fun _ => ⟨rfl, rfl, rfl, rfl⟩, fun h => ?_⟩ <;>
      cases h

theorem witness_ModeTable : (∃ t, exec .start run = .next t) ∧ State.reset.Inv ∧
    State.reset.mode = .config := ⟨⟨_, rfl⟩, reset_inv, rfl⟩

theorem witness_StepKeepsInvariant : run.Inv ∧ (∃ t, step run = .next t ∧ t.mode = .run) ∧
    run.mode = .run := ⟨run_inv, ⟨_, rfl, rfl⟩, rfl⟩

theorem witness_ModeAndConfigurationChanges :
    (nextOf (exec .start ready)).map (·.mode) = some .run ∧ ready.mode = .config ∧
    (nextOf (exec .reset run)).map (·.mode) = some .config ∧
    run.mode = .run ∧ Instr.framerd ≠ .reset ∧ ∃ t, exec .framerd run = .next t :=
  ⟨by decide +kernel, rfl, by decide +kernel, rfl, by decide, _, rfl⟩

theorem witness_ConstantRegisters : ∃ t, exec .reset State.reset = .next t := ⟨_, rfl⟩

/-- The register patterns of the AGC coefficients 1/2 and 1/8 are from 0 to 1. -/
theorem unit_half : UnitRegister 0x3F000000#32 ∧ UnitRegister 0x3E000000#32 ∧
    UnitRegister 0x3F800000#32 ∧ UnitRegister 0x00000000#32 := by
  unfold UnitRegister
  decide +kernel

/-- No line of rule R241 fails. -/
theorem startAccepts_of {s : State} (h0 : s.cfg.sampleRate.toNat ≠ 0)
    (h1 : s.cfg.symbolRate.toNat ≠ 0 ∧ 2 * s.cfg.symbolRate.toNat < s.cfg.sampleRate.toNat)
    (h2 : s.cfg.markFreq.toNat ≠ 0 ∧ 2 * s.cfg.markFreq.toNat < s.cfg.sampleRate.toNat ∧
      s.cfg.spaceFreq.toNat ≠ 0 ∧ 2 * s.cfg.spaceFreq.toNat < s.cfg.sampleRate.toNat)
    (h3 : s.cfg.profile = 0#32 ∨ s.cfg.profile = 1#32)
    (h4 : ¬(s.cfg.profile = 1#32 ∧ s.cfg.markFreq.toNat = s.cfg.spaceFreq.toNat))
    (h5 : ¬((s.cfg.demodCtrl.getLsbD 0 = true ∧ s.cfg.coefLen.at0 = 0#32) ∨
      s.cfg.coefLen.at1 = 0#32))
    (h6 : UnitRegister s.cfg.agcAttack ∧ UnitRegister s.cfg.agcDecay)
    (h7 : s.cfg.pllLockedInertia.toNat ≤ 65536 ∧ s.cfg.pllSearchInertia.toNat ≤ 65536)
    (h8 : 1 ≤ s.cfg.frameMin.toNat ∧ s.cfg.frameMin.toNat ≤ s.cfg.frameMax.toNat ∧
      s.cfg.frameMax.toNat ≤ s.params.maxFrame) : StartAccepts s := by
  unfold StartAccepts startLines
  simp only [List.forall_mem_cons, List.not_mem_nil, false_imp_iff, implies_true, and_true]
  refine ⟨h0, by omega, by omega, not_not.mpr h3, h4, h5, fun k => k.2 h6, by omega,
    not_not.mpr h8⟩

theorem witness_StartEntersRun : ready.mode = .config ∧ StartAccepts ready ∧
    readyDisc.mode = .config ∧ StartAccepts readyDisc ∧ readyDisc.cfg.profile = 1#32 := by
  refine ⟨rfl, startAccepts_of ?_ ?_ ?_ ?_ ?_ ?_ ⟨unit_half.1, unit_half.2.1⟩ ?_ ?_, rfl,
    startAccepts_of ?_ ?_ ?_ ?_ ?_ ?_ ⟨unit_half.1, unit_half.2.1⟩ ?_ ?_, rfl⟩ <;> decide

/-- A CONFIG state with the smallest rates START accepts: rule R191's bounds are near their top. -/
def readySmall : State :=
  { ready with cfg :=
    { cfg with sampleRate := 3#32, symbolRate := 1#32, markFreq := 1#32, spaceFreq := 1#32 } }

theorem witness_StartBounds : readySmall.mode = .config ∧ StartAccepts readySmall ∧
    readySmall.cfg.profile = 0#32 ∧ readyDisc.mode = .config ∧ StartAccepts readyDisc ∧
    readyDisc.cfg.profile = 1#32 ∧
    (∃ t, exec .start readySmall = .next t) ∧ ∃ t, exec .start readyDisc = .next t := by
  refine ⟨rfl, startAccepts_of ?_ ?_ ?_ ?_ ?_ ?_ ⟨unit_half.1, unit_half.2.1⟩ ?_ ?_, rfl, rfl,
    startAccepts_of ?_ ?_ ?_ ?_ ?_ ?_ ⟨unit_half.1, unit_half.2.1⟩ ?_ ?_, rfl,
    next_of (by decide +kernel), next_of (by decide +kernel)⟩ <;> decide

/-- A configuration whose line `k` of rule R241 is the first that fails. -/
def failing (k : Nat) : State :=
  { ready with cfg :=
    match k with
    | 0 => { cfg with sampleRate := 0#32 }
    | 1 => { cfg with symbolRate := 24000#32 }
    | 2 => { cfg with spaceFreq := 24000#32 }
    | 3 => { cfg with profile := 2#32 }
    | 4 => { cfg with profile := 1#32, spaceFreq := 1200#32 }
    | 5 => { cfg with demodCtrl := 1#32 }
    | 6 => { cfg with agcDecay := 0x3F800001#32 }
    | 7 => { cfg with pllSearchInertia := 65537#32 }
    | _ => { cfg with frameMax := 17#32 } }

/-- Each of the nine lines fails first in some state, and START answers its status there. -/
theorem witness_StartRefusesFirstFailingLine : (List.range 9).map (fun k => word .start (failing k)) =
    [some 0x1000000000000000#64, some 0x1000000000000000#64, some 0x1100000000000000#64,
     some 0x1200000000000000#64, some 0x1100000000000000#64, some 0x1300000000000000#64,
     some 0x1400000000000000#64, some 0x1400000000000000#64, some 0x1500000000000000#64] := by
  decide +kernel

/-- The last line's hypotheses, met in full: it fails, and no line before it does. -/
theorem witness_StartRefusesLastLine :
    (startLines (failing 8)).length = 9 ∧ (failing 8).mode = .config ∧
    (startLines (failing 8))[8]? = some (¬(1 ≤ (failing 8).cfg.frameMin.toNat ∧
      (failing 8).cfg.frameMin.toNat ≤ (failing 8).cfg.frameMax.toNat ∧
      (failing 8).cfg.frameMax.toNat ≤ (failing 8).params.maxFrame), .errCfgFrame) ∧
    ¬(1 ≤ (failing 8).cfg.frameMin.toNat ∧
      (failing 8).cfg.frameMin.toNat ≤ (failing 8).cfg.frameMax.toNat ∧
      (failing 8).cfg.frameMax.toNat ≤ (failing 8).params.maxFrame) ∧
    ∀ (j : Nat) (q : Prop) (c : Status), j < 8 → (startLines (failing 8))[j]? = some (q, c) → ¬q := by
  refine ⟨rfl, rfl, rfl, by decide, fun j q c hj h => ?_⟩
  have hu : UnitRegister (failing 8).cfg.agcAttack ∧ UnitRegister (failing 8).cfg.agcDecay :=
    ⟨unit_half.1, unit_half.2.1⟩
  match j, hj with
  | 0, _ => cases h; decide
  | 1, _ => cases h; decide
  | 2, _ => cases h; decide
  | 3, _ => cases h; decide
  | 4, _ => cases h; decide
  | 5, _ => cases h; decide
  | 6, _ => cases h; exact fun k => k.2 hu
  | 7, _ => cases h; decide

theorem witness_ConfigRegisters : (0x1E#8, CfgReg.fsSps .i1) ∈ configTable ∧
    (0x21#8, Ix.i1) ∈ lengthTable ∧ ready.mode = .config ∧ run.mode = .run := by decide

theorem witness_CoefLenWrite : ready.params.Valid ∧ ready.mode = .config ∧
    (0x20#8, Ix.i0) ∈ lengthTable ∧ (9#32).toNat ≤ ready.params.maxTaps ∧ (9#32).toNat % 2 = 1 := by
  decide

theorem witness_NormTaps : (1 ≤ 1 ∧ 1 ≤ 65535 ∧ (1#32).toNat / 2 * 2 + 1 ≤ 1) ∧
    (65535 < (65536#32).toNat / 2 * 2 + 1 ∧ 65535 % 2 = 1) ∧
    (65534 < (65535#32).toNat / 2 * 2 + 1 ∧ 65534 % 2 = 0) := by decide

theorem witness_UnimplementedRegisters :
    (∀ n ∈ [0x0C, 0x0F, 0x17, 0x1F, 0x22, 0x7F, 0x91, 0xEF, 0xF3, 0xFF], Unimplemented n) ∧
    ready.mode = .config ∧ run.mode = .run := by
  unfold Unimplemented
  decide

theorem witness_ReadOnlyRegisters : (0x80#8, 1#32) ∈ readOnlyTable run ∧
    (0xF2#8, 16#32) ∈ readOnlyTable ready ∧ ready.mode = .config ∧ run.mode = .run := by
  refine ⟨.head _, ?_, rfl, rfl⟩
  unfold readOnlyTable
  simp only [List.mem_cons]
  exact Or.inr (by repeat' first | exact Or.inl rfl | apply Or.inr)

theorem witness_CoefwrWritesOneElement : ready.mode = .config ∧ 2 ≤ (2#8).toNat ∧
    (1#8).toNat < 2 ∧ ready.params.maxTaps ≤ (9#16).toNat ∧ (8#16).toNat < ready.params.maxTaps ∧
    isValue 0x7F800000#32 = false ∧ isValue 0x7F7FFFFF#32 = true ∧ (1#8, Ix.i1) ∈ bankTable ∧
    ready.mem.wf ready.params.maxTaps ready.params.maxFrame :=
  ⟨rfl, by decide, by decide, by decide, by decide, by decide, by decide, by decide, State.reset_wf⟩

theorem witness_CoefrdReadsOneElement : 2 ≤ (2#8).toNat ∧ (1#8).toNat < 2 ∧
    run.params.maxTaps ≤ (9#16).toNat ∧ (8#16).toNat < run.params.maxTaps ∧
    (0#8, Ix.i0) ∈ bankTable ∧ (run.mem.coef.get .i0)[(8#16).toNat]? = some (.lit 0) := by
  decide +kernel

theorem witness_CoefficientRoundTrip : ready.mode = .config ∧ (1#8).toNat < 2 ∧
    ready.mem.wf ready.params.maxTaps ready.params.maxFrame ∧
    (8#16).toNat < ready.params.maxTaps ∧ isValue 0x80000000#32 = true ∧
    isValue 0xFF7FFFFF#32 = true ∧ isValue 0x00000001#32 = true :=
  ⟨rfl, by decide, State.reset_wf, by decide, by decide, by decide, by decide⟩

theorem witness_CodecIsNearest : |(1 : ℝ)| < 2 ^ 128 - 2 ^ 103 ∧ isValue 0x00000000#32 = true ∧
    (2 : ℝ) ^ 128 - 2 ^ 103 ≤ 2 ^ 128 - 2 ^ 103 ∧
    -(2 ^ 128 - 2 ^ 103 : ℝ) ≤ -(2 ^ 128 - 2 ^ 103) := by
  refine ⟨?_, by decide, le_refl _, le_refl _⟩
  norm_num

theorem witness_RealOrderAndEncoding : (numOf .real).lt .one .pi = true ∧
    (numOf .real).le .zero .one = true ∧ (numOf .real).le .one .pi = true ∧
    (numOf .real).eq (.lit 0) (.lit 0) = true ∧ (numOf (.other 0)).lt .zero .one = true ∧
    (numOf (.other 0)).le .zero .zero = true ∧ (numOf (.other 0)).le .zero .one = true ∧
    (numOf (.other 0)).eq (.lit 0) (.lit 0) = true ∧
    isValue 0x80000000#32 = true ∧ isValue 0xFF7FFFFF#32 = true := by
  decide +kernel

/-- `π` and the quotient 1/3 encode to the nearest patterns, and the least cut-off pattern makes no
degenerate filter of one tap (rules R10, R135). -/
theorem test_evaluated_values : (numOf .real).enc32 .pi = 0x40490FDB#32 ∧
    (numOf .real).enc32 (.div .one (.ofInt 3)) = 0x3EAAAAAB#32 ∧
    lowpass (numOf .real) .zero (valOf 0x00000001#32) 1 0#32 =
      ([.div (.mul (lowpassRaw (valOf 0x00000001#32) 0) .one)
        (.add .zero (.mul (lowpassRaw (valOf 0x00000001#32) 0) .one))], false) := by
  decide +kernel

/-- Specifications of each kind that FDGEN accepts, at the edges of rule R134's ranges. -/
theorem specs_legal : SpecLegal { FilterSpec.reset with f1 := 0x00000001#32 } ∧
    SpecLegal { FilterSpec.reset with
      kind := 1#32, f1 := 0x3E000000#32, f2 := 0x3EFFFFFF#32, window := 1#32 } ∧
    SpecLegal { FilterSpec.reset with kind := 2#32, rolloff := 0x3F800000#32, sps := 0x00000001#32 } ∧
    ¬SpecLegal { FilterSpec.reset with f1 := 0x3F000000#32 } ∧ ¬SpecLegal FilterSpec.reset ∧
    ¬SpecLegal { FilterSpec.reset with kind := 3#32, f1 := 0x3E800000#32 } := by
  unfold SpecLegal CutoffRegister UnitRegister
  refine ⟨?_, ?_, ?_, ?_, ?_, ?_⟩ <;> decide +kernel

theorem witness_FdgenFillsBank : ready.mode = .config ∧ 2 ≤ (2#8).toNat ∧
    (1#8, Ix.i1) ∈ bankTable ∧ ¬SpecLegal (ready.cfg.spec.get .i1) ∧ ready.params.Valid ∧
    ∃ f : FilterSpec, SpecLegal (({ ready with cfg := { cfg with spec := .both f } } : State).cfg.spec.get
      .i1) :=
  ⟨rfl, by decide, by decide, specs_legal.2.2.2.2.1, by decide,
    { FilterSpec.reset with f1 := 0x00000001#32 }, specs_legal.1⟩

/-- One tap whose weight is not zero is no degenerate filter. -/
theorem not_degenerate {w : Val} {l : List Val} (h : Val.toReal w ≠ 0) :
    (normalise numReal .zero w l).2 = false := by
  rcases normalise_cases numReal .zero w l with ⟨k, _⟩ | ⟨_, k⟩
  · rw [numReal_isReal.le_iff] at k
    exact absurd (abs_nonpos_iff.mp (by simpa [Val.toReal, Val.zero] using k)) h
  · rw [k]

/-- The low-pass of one tap and the band-pass of one tap that the witnesses design. -/
def lowSpec : FilterSpec := { FilterSpec.reset with f1 := 0x3E800000#32 }
def rrcSpec : FilterSpec := { FilterSpec.reset with kind := 2#32, rolloff := 0x3F000000#32, sps := 0x40000000#32 }
def bandSpec : FilterSpec :=
  { FilterSpec.reset with kind := 1#32, f1 := 0x3E000000#32, f2 := 0x3EC00000#32 }

theorem witness_LowpassDesign : numReal.IsReal ∧ 1 % 2 = 1 ∧ 65535 % 2 = 1 ∧ lowSpec.kind = 0#32 ∧
    isValue lowSpec.f1 = true := ⟨numReal_isReal, by decide, by decide, rfl, by decide⟩

theorem witness_BandpassDesign : numReal.IsReal ∧ 1 % 2 = 1 ∧ 65535 % 2 = 1 ∧
    bandSpec.kind = 1#32 ∧ isValue bandSpec.f1 = true ∧ isValue bandSpec.f2 = true :=
  ⟨numReal_isReal, by decide, by decide, rfl, by decide, by decide⟩

theorem witness_RrcDesign : numReal.IsReal ∧ 1 % 2 = 1 ∧ 65535 % 2 = 1 ∧
    Params.default.pulse = .raisedCosine ∧
    ({ Params.default with pulse := .root } : Params).pulse = .root ∧
    rrcSpec.kind = 2#32 ∧ isValue rrcSpec.rolloff = true ∧ isValue rrcSpec.sps = true :=
  ⟨numReal_isReal, by decide, by decide, rfl, rfl, rfl, by decide, by decide⟩

theorem lowSpec_designs : (designFilter numReal Params.default lowSpec 1).2 = false := by
  have hv : valOf lowSpec.f1 = .lit (mkRat 1 4) := by decide +kernel
  unfold designFilter lowpass
  rw [if_pos (by decide), hv]
  apply not_degenerate
  simp [sumVal_toReal, lowpassWeights, taps, lowpassRaw, fromCentre, window, Val.toReal, Val.two, Val.one, Rat.mkRat_eq_div, lowSpec, FilterSpec.reset]

theorem rrcSpec_designs : (designFilter numReal Params.default rrcSpec 1).2 = false := by
  unfold designFilter rrc
  rw [if_neg (by decide), if_neg (by decide)]
  apply not_degenerate
  have h : numReal.le (Val.abs ((Val.ofInt (fromCentre 1 0)).div (valOf rrcSpec.sps))) .zero = true := by
    rw [numReal_isReal.le_iff]
    simp [fromCentre, Val.toReal, Val.zero]
  simp [sumVal_toReal, rrcWeights, taps, pulse, pulseRaisedCosine, Params.default, h, Val.toReal, Val.one]

theorem bandSpec_designs : (designFilter numReal Params.default bandSpec 1).2 = false := by
  have h1 : valOf bandSpec.f1 = .lit (mkRat 1 8) := by decide +kernel
  have h2 : valOf bandSpec.f2 = .lit (mkRat 3 8) := by decide +kernel
  unfold designFilter bandpass
  rw [if_neg (by decide), if_pos (by decide), h1, h2]
  apply not_degenerate
  simp [sumVal_toReal, bandpassGain, bandpassWeights, centreCosine, taps, bandpassRaw, fromCentre,
    window, Val.toReal, Val.two, Val.one, Rat.mkRat_eq_div, bandSpec, FilterSpec.reset]
  norm_num

theorem witness_UnitSum : numReal.IsReal ∧ 0 ≤ Val.toReal Params.default.normEps ∧
    lowSpec.kind = 0#32 ∧ rrcSpec.kind = 2#32 ∧
    (designFilter numReal Params.default lowSpec 1).2 = false ∧
    (designFilter numReal Params.default rrcSpec 1).2 = false :=
  ⟨numReal_isReal, by simp [Params.default, Val.zero, Val.toReal], rfl, rfl, lowSpec_designs, rrcSpec_designs⟩

theorem witness_CentreResponse : numReal.IsReal ∧ 0 ≤ Val.toReal Params.default.normEps ∧
    bandSpec.kind = 1#32 ∧ isValue bandSpec.f1 = true ∧ isValue bandSpec.f2 = true ∧ 1 % 2 = 1 ∧
    (designFilter numReal Params.default bandSpec 1).2 = false :=
  ⟨numReal_isReal, by simp [Params.default, Val.zero, Val.toReal], rfl, by decide, by decide, by decide, bandSpec_designs⟩

theorem witness_GeneratedFilterSymmetric : numReal.IsReal ∧ 9 % 2 = 1 ∧ lowSpec.kind = 0#32 ∧
    bandSpec.kind = 1#32 ∧ Params.default.pulse = .raisedCosine ∧
    ({ Params.default with pulse := .root } : Params).pulse = .root :=
  ⟨numReal_isReal, by decide, rfl, rfl, rfl, rfl⟩

theorem witness_SampleRunsTheStages : run.mode = .run ∧ isValue 0x7F800000#32 = false ∧
    isValue 0xFFC00000#32 = false ∧ isValue 0x7F7FFFFF#32 = true ∧ isValue 0x80000000#32 = true := by
  decide

theorem witness_SampleAmplitudeProfile : run.mode = .run ∧ isValue 0x3F000000#32 = true ∧
    run.cfg.profile = 0#32 ∧ run.cfg.demodCtrl.getLsbD 0 = false := by decide

theorem witness_SampleDiscriminatorProfile : runDisc.mode = .run ∧ isValue 0x3F000000#32 = true ∧
    runDisc.cfg.profile = 1#32 ∧ runDisc.cfg.demodCtrl.getLsbD 0 = true := by decide

theorem witness_PhaseAccumulates : run.mode = .run ∧ runDisc.mode = .run ∧
    (∀ x ∈ [0x3F800000#32, 0xBF800000#32, 0x00000000#32], isValue x = true) ∧
    run.cfg.profile = 0#32 ∧ runDisc.cfg.profile ≠ 0#32 := by
  simp only [List.forall_mem_cons, List.not_mem_nil, false_imp_iff, implies_true, and_true]
  decide

theorem witness_ConvolutionPairsPushes : 1 ≤ 1 ∧ 1 ≤ 1 ∧ [Val.one].length = 1 ∧
    1 ≤ 3 ∧ 3 ≤ 3 ∧ [Val.one, Val.half, Val.two].length = 3 := by decide

theorem witness_AgcNormaliser : numReal.IsReal ∧ 0 ≤ Val.toReal (.lit 0) ∧ Val.toReal (.lit 0) ≤ 1 ∧
    0 ≤ Val.toReal (.lit 1) ∧ Val.toReal (.lit 1) ≤ 1 := by
  refine ⟨numReal_isReal, ?_⟩
  simp [Val.toReal]

/-- A value for each clause: above π, below −π, inside, and the two ends. -/
theorem witness_UnwrapBringsIntoRange : numReal.IsReal ∧
    (Real.pi < Val.toReal (.lit 4) ∧ Val.toReal (.lit 4) < 2 * Real.pi) ∧
    (Val.toReal (.lit (-4)) ≤ -Real.pi ∧ -(2 * Real.pi) < Val.toReal (.lit (-4))) ∧
    (-Real.pi < Val.toReal (.lit 0) ∧ Val.toReal (.lit 0) ≤ Real.pi) ∧
    Val.toReal .pi = Real.pi ∧ Val.toReal (.neg .pi) = -Real.pi := by
  have h3 := Real.pi_gt_three
  have h4 := Real.pi_lt_four
  refine ⟨numReal_isReal, ⟨?_, ?_⟩, ⟨?_, ?_⟩, ⟨?_, ?_⟩, rfl, rfl⟩ <;> norm_num [Val.toReal] <;>
    linarith

/-- The state START leaves meets the hypotheses of silence, in both profiles. -/
theorem witness_SilenceGivesZero : ∀ s ∈ [run, runDisc], s.params.num = .real ∧ s.mode = .run ∧
    (∀ x ∈ [0x00000000#32, 0x80000000#32], x = 0x00000000#32 ∨ x = 0x80000000#32) ∧
    (∀ v ∈ s.mem.rawh, v = .lit 0) ∧ (∀ k, ∀ v ∈ s.mem.ih.get k, v = .lit 0) ∧
    (∀ k, ∀ v ∈ s.mem.qh.get k, v = .lit 0) ∧
    s.demod.agcPeak = ⟨.lit 0, .lit 0⟩ ∧ s.demod.agcValley = ⟨.lit 0, .lit 0⟩ ∧
    s.demod.prevPhase = .lit 0 := by
  have h : ∀ v ∈ List.replicate 9 (Val.lit 0), v = .lit 0 := fun v hv => List.eq_of_mem_replicate hv
  have hk : ∀ k, ∀ v ∈ (Two.both (List.replicate 9 (Val.lit 0))).get k, v = .lit 0 := by
    intro k
    cases k <;> exact h
  intro s hs
  simp only [List.mem_cons, List.not_mem_nil, or_false] at hs
  rcases hs with rfl | rfl <;>
    exact ⟨rfl, rfl, by simp, h, hk, hk, rfl, rfl, rfl⟩

/-- With and without a bit emitted. -/
theorem witness_DemodinIsOnePllStep : run.mode = .run ∧ isValue 0x7F800000#32 = false ∧
    isValue 0x3F800000#32 = true ∧
    (withPll 0x7FFFFFFF#32 1#32).mode = .run ∧ (withPll 0x7FFFFFFF#32 1#32).emits = true ∧
    (withPll 0x7FFFFFFE#32 1#32).emits = false := by decide

theorem witness_NudgeProperties : (65536#32).toNat ≤ 65536 ∧ (0#32).toNat ≤ 65536 ∧
    (0x7FFFFFFF#32).toInt ≠ -2 ^ 31 ∧ (0x80000001#32).toInt ≠ -2 ^ 31 := by decide

theorem witness_WrapDetection : (0x7FFFFFFF#32).toNat < 2 ^ 31 ∧ (1#32).toNat < 2 ^ 31 := by decide

theorem witness_FreeRunningPll : (withPll 0x7FFFFFFF#32 0x7FFFFFFF#32).mode = .run ∧
    (withPll 0x7FFFFFFF#32 0x7FFFFFFF#32).derived.pllStep.toNat < 2 ^ 31 ∧
    ∀ x ∈ [0xBF800000#32, 0x00000000#32, 0x80000000#32], isValue x = true ∧
      (0 < decRat x ↔ (withPll 0x7FFFFFFF#32 0x7FFFFFFF#32).pll.prevSign = true) := by
  simp only [List.forall_mem_cons, List.not_mem_nil, false_imp_iff, implies_true, and_true]
  decide +kernel

theorem witness_AmplitudeInsensitive : run.mode = .run ∧ isValue 0x3F800000#32 = true ∧
    isValue 0x00000001#32 = true ∧ (0 < decRat 0x3F800000#32 ↔ 0 < decRat 0x00000001#32) ∧
    (0 < decRat 0xBF800000#32 ↔ 0 < decRat 0x80000000#32) ∧
    run.num.lt (.lit 0) .pi = run.num.lt (.lit 0) .one := by decide +kernel

theorem witness_SetddWritesDataDetect : run.mode = .run := rfl

theorem witness_DataDetectHeld : run.params.lockNext = .hold ∧
    (nextOf (exec (.setdd true) run)).map (·.pll.dataDetect) = some true ∧
    run.pll.dataDetect = false := by decide +kernel

/-- A deframer in state Filling with a count of bits and of octets. -/
def filling (bits : BitVec 3) (len : Nat) : Deframer :=
  { Deframer.reset with dfState := .filling, bitsInOctet := bits, frameLen := len }

/-- The octet `sr` of rule R210 after the bit 0 in a state whose last raw bit was 0. -/
def nextShift (s : State) (bit : Bool) : Octet :=
  BitVec.ofNat 8 (s.df.shiftReg.toNat / 2 + 128 * bitNat (decide (bit = s.df.prevRaw)))

/-- A state for each branch, the limits `FRAME_MIN = 2` and `FRAME_MAX = 2` from both sides. -/
theorem witness_DeframerStep :
    nextShift (withDf { Deframer.reset with shiftReg := 0xFC#8 }) true = 0x7E#8 ∧
    (nextShift (withDf .reset) false ≠ 0x7E#8 ∧ (withDf .reset).df.dfState = .hunting) ∧
    (∀ b ∈ [0#3, 6#3, 7#3], ∀ n ∈ [0, 1, 2],
      nextShift (withDf (filling b n)) false ≠ 0x7E#8 ∧ (withDf (filling b n)).df.dfState = .filling) ∧
    (withDf (filling 6#3 0)).df.bitsInOctet.toNat < 7 ∧
    (withDf (filling 7#3 0)).df.bitsInOctet.toNat = 7 ∧
    run.cfg.frameMin.toNat = 1 ∧ run.cfg.frameMax.toNat = 2 ∧
    (0 < run.cfg.frameMax.toNat ∧ run.cfg.frameMin.toNat ≤ 0 + 1) ∧
    (1 < run.cfg.frameMax.toNat ∧ run.cfg.frameMin.toNat ≤ 1 + 1) ∧
    run.cfg.frameMax.toNat ≤ 2 ∧
    (0 < (2#32).toNat ∧ 0 + 1 < (2#32).toNat) := by decide

theorem witness_BitinIsOneDeframerStep : run.mode = .run := rfl

theorem witness_DataPathFlags :
    ∀ i ∈ [Instr.sample 0#32, .demodin 0#32, .bitin true],
      ∃ t, exec i run = .next t ∧ (t.resp.map (·.status)) = some .ok := by
  intro i hi
  simp only [List.mem_cons, List.not_mem_nil, or_false] at hi
  rcases hi with rfl | rfl | rfl
  · have h : ((nextOf (exec (.sample 0#32) run)).map fun t => t.resp.map (·.status)) = some (some .ok) := by
      decide +kernel
    obtain ⟨t, ht⟩ := next_of (o := exec (.sample 0#32) run) (by decide +kernel)
    rw [ht] at h
    exact ⟨t, ht, Option.some.inj h⟩
  · exact ⟨_, rfl, rfl⟩
  · exact ⟨_, rfl, rfl⟩

/-- The output falls at a FRAMERD and at an overflow, and rises at a slot write. -/
theorem witness_FrameAvailChanges :
    (slotted.frameAvail = true ∧
      (nextOf (exec .framerd slotted)).map (·.frameAvail) = some false) ∧
    ((withDf { filling 7#3 2 with slotValid := true, slotLen := 2 }).frameAvail = true ∧
      (nextOf (exec (.bitin false) (withDf { filling 7#3 2 with slotValid := true, slotLen := 2 }))).map
        (·.frameAvail) = some false) ∧
    ((withDf (filling 7#3 0)).frameAvail = false ∧
      (nextOf (exec (.bitin false) (withDf (filling 7#3 0)))).map (·.frameAvail) = some true) := by
  decide +kernel

theorem witness_OctetAssembly : ∀ n ∈ [1, 2],
    (withDf (filling 0#3 n)).mode = .run ∧ (withDf (filling 0#3 n)).df.dfState = .filling ∧
    (withDf (filling 0#3 n)).df.bitsInOctet = 0#3 ∧
    (∀ k, 1 ≤ k → k < 9 →
      (((withDf (filling 0#3 n)).recentBits ++ octetBits 0x7F#8).drop k).take 8 ≠ flagBits) ∧
    run.cfg.frameMax.toNat = 2 := by
  have h : ∀ n ∈ [1, 2], ∀ k < 9, 1 ≤ k →
      (((withDf (filling 0#3 n)).recentBits ++ octetBits 0x7F#8).drop k).take 8 ≠ flagBits := by
    decide
  intro n hn
  exact ⟨rfl, rfl, rfl, fun k h1 h2 => h n hn k h2 h1, by decide⟩

/-- Frames of one, two and three octets without a flag inside. -/
theorem frames_noFlag : ∀ os ∈ [[0x41#8], [0x41#8, 0x00#8], [0x41#8, 0x42#8, 0x43#8]],
    NoFlag (flagBits ++ os.flatMap octetBits ++ flagBits) 1 (8 + 8 * os.length) := by
  have h : ∀ os ∈ [[0x41#8], [0x41#8, 0x00#8], [0x41#8, 0x42#8, 0x43#8]],
      ∀ k < 8 + 8 * os.length, 1 ≤ k →
        ((flagBits ++ os.flatMap octetBits ++ flagBits).drop k).take 8 ≠ flagBits := by
    decide +kernel
  exact fun os hos k h1 h2 => h os hos k h2 h1

theorem witness_FrameRoundTrip : run.Inv ∧ run.mode = .run ∧
    (run.cfg.frameMin.toNat ≤ [0x41#8].length ∧ [0x41#8].length ≤ run.cfg.frameMax.toNat) ∧
    (run.cfg.frameMin.toNat ≤ [0x41#8, 0x00#8].length ∧
      [0x41#8, 0x00#8].length ≤ run.cfg.frameMax.toNat) ∧
    NoFlag (flagBits ++ [0x41#8].flatMap octetBits ++ flagBits) 1 (8 + 8 * 1) ∧
    NoFlag (flagBits ++ [0x41#8, 0x00#8].flatMap octetBits ++ flagBits) 1 (8 + 8 * 2) :=
  ⟨run_inv, rfl, by decide, by decide, frames_noFlag [0x41#8] (by decide),
    frames_noFlag [0x41#8, 0x00#8] (by decide)⟩

theorem witness_OversizeFrameDropped : run.Inv ∧ run.mode = .run ∧
    run.cfg.frameMax.toNat < [0x41#8, 0x42#8, 0x43#8].length ∧
    NoFlag (flagBits ++ [0x41#8, 0x42#8, 0x43#8].flatMap octetBits ++ flagBits) 1 (8 + 8 * 3) :=
  ⟨run_inv, rfl, by decide, frames_noFlag [0x41#8, 0x42#8, 0x43#8] (by decide)⟩

theorem witness_SilentDeframer : run.mode = .run ∧ run.df.dfState = .hunting ∧
    run.df.slotValid = false ∧ run.df = .reset ∧
    NoFlag (run.recentBits ++ [true, true, true, true, true, true, true])
      1 ([true, true, true, true, true, true, true].length + 1) := by
  refine ⟨rfl, rfl, rfl, rfl, ?_⟩
  have h : ∀ k < 8, 1 ≤ k →
      ((run.recentBits ++ [true, true, true, true, true, true, true]).drop k).take 8 ≠ flagBits := by
    decide
  exact fun k h1 h2 => h k h2 h1

theorem witness_FramerdReadsAndClears : slotted.df.slotValid = true ∧
    slotted.df.slotLen ≤ slotted.mem.slotBuf.length ∧ run.df.slotValid = false ∧
    ∃ t, exec .framerd slotted = .next t := ⟨rfl, by decide, rfl, _, rfl⟩

theorem witness_ResponseWordAndPayload :
    (∃ t r, step { State.reset with cmds := [0#64] } = .next t ∧ t.resp = some r ∧ r.status ≠ .ok) ∧
    0 < 8 * ((([0x41#8] : List Octet).length + 7) / 8) ∧
    7 < 8 * ((([0x41#8] : List Octet).length + 7) / 8) :=
  ⟨⟨_, _, rfl, rfl, by decide⟩, by decide, by decide⟩

end Sys2Proof.Tests
end

section
/-!
The word a command encodes to is read back as that command (rules R100, R101, R103), and a step runs the
command its word decodes to (rules R13, R22).
-/

namespace Sys2Proof

/-- The bits of the `sel`, `idx` and `data` fields that the format of an operation code does not use
(rule R101). -/
def Opcode.unusedBits : Opcode → U8 × U16 × U32
  | .reset | .start | .framerd => (0xFF#8, 0xFFFF#16, 0xFFFFFFFF#32)
  | .cfgwr => (0#8, 0xFFFF#16, 0#32)
  | .cfgrd | .fdgen => (0#8, 0xFFFF#16, 0xFFFFFFFF#32)
  | .coefwr => (0#8, 0#16, 0#32)
  | .coefrd => (0#8, 0#16, 0xFFFFFFFF#32)
  | .sample | .demodin => (0xFF#8, 0xFFFF#16, 0#32)
  | .bitin | .setdd => (0xFF#8, 0xFFFF#16, 0xFFFFFFFE#32)

theorem Opcode.mustBeZero_eq (o : Opcode) :
    o.mustBeZero = 0#8 ++ o.unusedBits.1 ++ o.unusedBits.2.1 ++ o.unusedBits.2.2 := by
  cases o <;> rfl

/-- The mask of an operation code, field by field. -/
theorem fields_and_mustBeZero (o : Opcode) (sel : U8) (idx : U16) (data : U32) :
    fields o sel idx data &&& o.mustBeZero = 0#64 ↔
      sel &&& o.unusedBits.1 = 0#8 ∧ idx &&& o.unusedBits.2.1 = 0#16 ∧
        data &&& o.unusedBits.2.2 = 0#32 := by
  rw [Opcode.mustBeZero_eq, fields_and, append_eq_zero_iff, BitVec.and_zero]
  exact ⟨fun ⟨_, h⟩ => h, fun h => ⟨rfl, h⟩⟩

/-- A word of fields with its unused fields zero decodes to the command of its operation code. -/
theorem decode_fields (o : Opcode) {sel : U8} {idx : U16} {data : U32}
    (hs : sel &&& o.unusedBits.1 = 0#8) (hi : idx &&& o.unusedBits.2.1 = 0#16)
    (hd : data &&& o.unusedBits.2.2 = 0#32) :
    decode (fields o sel idx data) = .ok (o.instr (fields o sel idx data)) := by
  have h := (fields_and_mustBeZero o sel idx data).mpr ⟨hs, hi, hd⟩
  unfold decode
  rw [opField_fields, Opcode.ofByte_byte]
  exact if_pos h

/-- Bit 0 of a word is bit 0 of its `data` field. -/
theorem fields_getLsbD_zero (o : Opcode) (sel : U8) (idx : U16) (data : U32) :
    (fields o sel idx data).getLsbD 0 = data.getLsbD 0 := by
  unfold fields
  rw [BitVec.getLsbD_append, if_pos (by decide)]

theorem bitData_and_unused (b : Bool) : bitData b &&& 0xFFFFFFFE#32 = 0#32 := by
  cases b <;> decide

theorem bitData_getLsbD_zero (b : Bool) : (bitData b).getLsbD 0 = b := by
  cases b <;> decide

/-- The decoder reads back what the encoder wrote (rules R100, R101, R103). -/
theorem decode_encode (i : Instr) : decode (encode i) = .ok i := by
  cases i with
  | reset => exact decode_fields .reset rfl rfl rfl
  | start => exact decode_fields .start rfl rfl rfl
  | cfgwr sel data =>
    refine (decode_fields .cfgwr BitVec.and_zero rfl BitVec.and_zero).trans ?_
    simp [Opcode.instr]
  | cfgrd sel =>
    refine (decode_fields .cfgrd BitVec.and_zero rfl rfl).trans ?_
    simp [Opcode.instr]
  | coefwr sel idx data =>
    refine (decode_fields .coefwr BitVec.and_zero BitVec.and_zero BitVec.and_zero).trans ?_
    simp [Opcode.instr]
  | coefrd sel idx =>
    refine (decode_fields .coefrd BitVec.and_zero BitVec.and_zero rfl).trans ?_
    simp [Opcode.instr]
  | fdgen sel =>
    refine (decode_fields .fdgen BitVec.and_zero rfl rfl).trans ?_
    simp [Opcode.instr]
  | sample data =>
    refine (decode_fields .sample rfl rfl BitVec.and_zero).trans ?_
    simp [Opcode.instr]
  | demodin data =>
    refine (decode_fields .demodin rfl rfl BitVec.and_zero).trans ?_
    simp [Opcode.instr]
  | bitin bit =>
    refine (decode_fields .bitin rfl rfl (bitData_and_unused bit)).trans ?_
    simp only [Opcode.instr, fields_getLsbD_zero, bitData_getLsbD_zero]
  | setdd bit =>
    refine (decode_fields .setdd rfl rfl (bitData_and_unused bit)).trans ?_
    simp only [Opcode.instr, fields_getLsbD_zero, bitData_getLsbD_zero]
  | framerd => exact decode_fields .framerd rfl rfl rfl

/-- The bits of a word, given as a number, are that word. -/
theorem tableWord_toNat (w : Word) : tableWord 64 w.toNat = w := by
  unfold tableWord
  rw [Nat.mod_eq_of_lt w.isLt, BitVec.ofNat_toNat, BitVec.setWidth_eq]

namespace Machine

theorem step_idle {s : State} (h : s.cmds = []) : step s = .next s := by
  unfold step
  rw [h]

/-- A presented word that decodes is taken from the queue and run. -/
theorem step_decoded {s : State} {w : Word} {rest : List Word} {i : Instr} (h : s.cmds = w :: rest)
    (hw : decode w = .ok i) : step s = exec i { s with cmds := rest } := by
  unfold step
  rw [h]
  simp only [hw]

theorem step_illegalOp {s : State} {w : Word} {rest : List Word} (h : s.cmds = w :: rest)
    (hw : decode w = .illegalOp) : step s = State.raise { s with cmds := rest } .errIllegalOp := by
  unfold step
  rw [h]
  simp only [hw]

theorem step_reservedField {s : State} {w : Word} {rest : List Word} (h : s.cmds = w :: rest)
    (hw : decode w = .reservedField) :
    step s = State.raise { s with cmds := rest } .errReservedField := by
  unfold step
  rw [h]
  simp only [hw]

/-- A command presented as the next one is the one that runs. -/
theorem step_withFetchWord (s : State) (i : Instr) :
    step (s.withFetchWord 64 (encode i).toNat) = exec i s := by
  have hq : (s.withFetchWord 64 (encode i).toNat).cmds = encode i :: s.cmds := by
    simp only [State.withFetchWord, tableWord_toNat]
  exact step_decoded hq (decode_encode i)

/-- Settles O4: a step is the command its presented word decodes to, and an idle step changes nothing. -/
theorem stepRunsDecoded : Obligations.StepRunsDecoded :=
  ⟨fun _ _ _ _ h hw => step_decoded h hw, step_withFetchWord, fun _ => step_idle⟩

end Machine

end Sys2Proof
end

section
/-!
Every command completes: its outcome is a next state with a response, the same presented words and the
same parameters (rules R13, R81).
-/

namespace Sys2Proof.Machine

/-- The outcome of a command on `s` is a next state that carries a response and keeps the presented words
and the parameters. -/
def Completes (s : State) (o : Result) : Prop :=
  ∃ t r, o = .next t ∧ t.resp = some r ∧ t.cmds = s.cmds ∧ t.params = s.params

theorem completes_raise (s : State) (st : Status) : Completes s (s.raise st) :=
  ⟨_, _, rfl, rfl, rfl, rfl⟩

theorem completes_respondWith {s t : State} (hc : t.cmds = s.cmds) (hp : t.params = s.params)
    (fl : U8) (aux : U16) (data : U32) (l : List Octet) :
    Completes s (t.respondWith fl aux data l) := ⟨_, _, rfl, rfl, hc, hp⟩

theorem completes_respond {s t : State} (hc : t.cmds = s.cmds) (hp : t.params = s.params)
    (fl : U8) (aux : U16) (data : U32) : Completes s (t.respond fl aux data) :=
  completes_respondWith hc hp fl aux data []

theorem completes_check {s : State} {go : Result} (b : Bool) (st : Status) (h : Completes s go) :
    Completes s (s.check b st go) := by
  rcases s.check_cases b st go with ⟨_, e⟩ | ⟨_, e⟩ <;> rw [e]
  · exact h
  · exact completes_raise s st

theorem completes_inMode {s : State} {go : Result} (m : Mode) (h : Completes s go) :
    Completes s (s.inMode m go) := completes_check _ _ h

/-! Control and configuration -/

theorem completes_execReset (s : State) : Completes s (execReset s) := completes_respond rfl rfl _ _ _

theorem completes_execStart (s : State) : Completes s (execStart s) := by
  refine completes_inMode .config ?_
  split
  · exact completes_raise s _
  · exact completes_respond rfl rfl _ _ _

theorem completes_execCfgwr (sel : U8) (data : U32) (s : State) :
    Completes s (execCfgwr sel data s) := by
  refine completes_inMode .config ?_
  split
  · exact completes_raise s _
  · exact completes_respond rfl rfl _ _ _
  · exact completes_respond rfl rfl _ _ _

theorem completes_execCfgrd (sel : U8) (s : State) : Completes s (execCfgrd sel s) := by
  unfold execCfgrd
  split
  · exact completes_raise s _
  · exact completes_respond rfl rfl _ _ _

/-! Coefficients and the filter designer -/

theorem completes_execCoefwr (sel : U8) (idx : U16) (data : U32) (s : State) :
    Completes s (execCoefwr sel idx data s) := by
  refine completes_inMode .config ?_
  split
  · exact completes_raise s _
  · refine completes_check _ _ ?_
    split
    · exact completes_raise s _
    · exact completes_respond rfl rfl _ _ _

theorem completes_execCoefrd (sel : U8) (idx : U16) (s : State) :
    Completes s (execCoefrd sel idx s) := by
  unfold execCoefrd
  split
  · exact completes_raise s _
  · exact completes_check _ _ (completes_respond rfl rfl _ _ _)

theorem completes_execFdgen (sel : U8) (s : State) : Completes s (execFdgen sel s) := by
  refine completes_inMode .config ?_
  split
  · exact completes_raise s _
  · exact completes_check _ _ (completes_respond rfl rfl _ _ _)

/-! The data path -/

theorem completes_execSample (data : U32) (s : State) : Completes s (execSample data s) := by
  refine completes_inMode .run ?_
  split
  · exact completes_raise s _
  · next x _ =>
    have hd := demodulate_same x s
    have hp := pllStepSign_same (positive (demodulate x s).1.num (demodulate x s).2)
      (demodulate x s).1
    exact completes_respond (hp.cmds.trans hd.cmds) (hp.params.trans hd.params) _ _ _

theorem completes_execDemodin (data : U32) (s : State) : Completes s (execDemodin data s) := by
  refine completes_inMode .run ?_
  split
  · exact completes_raise s _
  · next d _ =>
    have hp := pllStepSign_same (positive s.num d) s
    exact completes_respond hp.cmds hp.params _ _ _

theorem completes_execBitin (bit : Bool) (s : State) : Completes s (execBitin bit s) :=
  completes_inMode .run
    (completes_respond (dfStep_same bit s).cmds (dfStep_same bit s).params _ _ _)

theorem completes_execSetdd (bit : Bool) (s : State) : Completes s (execSetdd bit s) :=
  completes_inMode .run (completes_respond rfl rfl _ _ _)

theorem completes_execFramerd (s : State) : Completes s (execFramerd s) := by
  unfold execFramerd
  split
  · exact completes_respondWith rfl rfl _ _ _ _
  · exact completes_respond rfl rfl _ _ _

/-- Every command completes in every state (rules R13, R81). -/
theorem completes_exec (i : Instr) (s : State) : Completes s (exec i s) := by
  cases i with
  | reset => exact completes_execReset s
  | start => exact completes_execStart s
  | cfgwr sel data => exact completes_execCfgwr sel data s
  | cfgrd sel => exact completes_execCfgrd sel s
  | coefwr sel idx data => exact completes_execCoefwr sel idx data s
  | coefrd sel idx => exact completes_execCoefrd sel idx s
  | fdgen sel => exact completes_execFdgen sel s
  | sample data => exact completes_execSample data s
  | demodin data => exact completes_execDemodin data s
  | bitin bit => exact completes_execBitin bit s
  | setdd bit => exact completes_execSetdd bit s
  | framerd => exact completes_execFramerd s

/-- A step that takes a word completes on the state without it, whatever the word decodes to. -/
theorem completes_step {s : State} {w : Word} {rest : List Word} (h : s.cmds = w :: rest) :
    Completes { s with cmds := rest } (step s) := by
  cases hw : decode w with
  | ok i => rw [step_decoded h hw]; exact completes_exec i _
  | illegalOp => rw [step_illegalOp h hw]; exact completes_raise _ _
  | reservedField => rw [step_reservedField h hw]; exact completes_raise _ _

/-- Settles O7: every command completes, and so does every step that takes a word. -/
theorem everyStepCompletes : Obligations.EveryStepCompletes := by
  refine ⟨fun s => ?_, completes_exec⟩
  cases hq : s.cmds with
  | nil => exact ⟨s, step_idle hq, fun h => absurd rfl h⟩
  | cons w rest =>
    obtain ⟨t, r, ht, hr, _, _⟩ := completes_step hq
    exact ⟨t, ht, fun _ => by rw [hr]; rfl⟩

end Sys2Proof.Machine
end

section
/-!
The evaluator is sound for every value, and with it the order and the encoding of the machine's numerics
records (rules R9, R10).
-/

namespace Sys2Proof.Machine

/-! The evaluator -/

/-- A number whose sign is known not to be 0 is not 0. -/
theorem Enclosure.Holds.ne_zero {e : Enclosure} {x : ℝ} (h : e.Holds x)
    (hs : e.sign?.any (· ≠ 0) = true) : x ≠ 0 := by
  obtain ⟨s, hs, hne⟩ := Option.any_eq_true _ _ |>.mp hs
  rcases h.sign? hs with ⟨rfl, _⟩ | ⟨_, hx⟩ | ⟨_, hx⟩
  · exact absurd hne (by decide)
  · exact hx.ne'
  · exact hx.ne

/-- The quotient of the normaliser at an end of its clip, where the divisor is known not to be 0 (rule
R170). -/
theorem evaluate_div_clip {a b x y : Val} {q : Rat} (h : clipPattern a b = some (x, y, q))
    (hb : (evaluate b).Holds (Val.toReal b)) :
    (evaluate (.div a b)).Holds (Val.toReal (.div a b)) := by
  simp only [evaluate, h]
  split
  · next hs =>
    rw [Val.toReal, clipPattern_spec h (hb.ne_zero hs)]
    exact Enclosure.holds_ofRat q
  · trivial

/-- What the evaluator says of a value is true of the real number the value is (rule R9). -/
theorem evaluate_holds (v : Val) : (evaluate v).Holds (Val.toReal v) := by
  induction v with
  | lit q => exact Enclosure.holds_ofRat q
  | ofInt z => simpa [evaluate, Val.toReal] using Enclosure.holds_ofRat (z : Rat)
  | pi => simpa [evaluate, Val.toReal] using Enclosure.holds_piTimes 1
  | add a b ha hb => exact ha.add hb
  | sub a b ha hb =>
    simp only [evaluate, Val.toReal]
    split
    · next h => rw [h, sub_self]; exact Enclosure.holds_zero
    · rw [sub_eq_add_neg]; exact ha.add hb.neg
  | mul a b ha hb => exact ha.mul hb
  | div a b ha hb =>
    cases h : clipPattern a b with
    | some c => exact evaluate_div_clip h hb
    | none =>
      simp only [evaluate, h]
      exact ha.div hb
  | neg a ha => exact ha.neg
  | abs a ha => exact ha.abs
  | sqrt a ha => exact ha.sqrt
  | sin a ha => exact ha.sin
  | cos a ha => exact ha.cos
  | atan2 y x hy hx => exact hy.atan2 hx
  | cosPhase p =>
    obtain ⟨h1, h2⟩ := SineSum.cosPi_spec (halfTurns p)
    exact Enclosure.holds_exact h1 (by rw [h2, Val.toReal, halfTurns_spec]; simp)
  | sinPhase p =>
    obtain ⟨h1, h2⟩ := SineSum.sinPi_spec (halfTurns p)
    exact Enclosure.holds_exact h1 (by rw [h2, Val.toReal, halfTurns_spec]; simp)

/-- Settles O27, by induction on the value. -/
theorem evaluatorIsSound : Obligations.EvaluatorIsSound := evaluate_holds

/-! The record `NUM_REAL` -/

/-- The order of `NUM_REAL` is the order of the real numbers (rule R9). -/
theorem ltReal_iff (a b : Val) : ltReal a b = true ↔ Val.toReal a < Val.toReal b := by
  unfold ltReal
  split
  · next s hs =>
    rw [decide_eq_true_iff]
    rcases (evaluate_holds (.sub a b)).sign? hs with ⟨rfl, h⟩ | ⟨rfl, h⟩ | ⟨rfl, h⟩ <;>
      rw [Val.toReal] at h
    · exact iff_of_false (by decide) (by linarith)
    · exact iff_of_false (by decide) (by linarith)
    · exact iff_of_true (by decide) (by linarith)
  · exact exactLt_iff a b

/-- The encoding of `NUM_REAL` is that of the real numbers (rule R10). -/
theorem enc32Real_eq (v : Val) :
    enc32Real v = encReal (Config.underflowSign v) (Val.toReal v) := by
  unfold enc32Real
  have hv := evaluate_holds v
  simp only
  split
  · next q hq => rw [hv.toRat? hq, encRat_real]
  · cases he : encEvaluated (evaluate v) with
    | none => exact exactEnc32_eq v
    | some w =>
      obtain ⟨i, hi, hw⟩ := Option.bind_eq_some_iff.1 he
      exact (encInterval?_spec _ (hv.toInterval hi) hw).symm

theorem numLt_real (a b : Val) : numLt .real a b = true ↔ Val.toReal a < Val.toReal b := by
  unfold numLt
  split
  · next p q => 
    rw [decide_eq_true_iff, Val.toReal, Val.toReal]
    exact Rat.cast_lt.symm
  · exact ltReal_iff a b

theorem numEnc32_real (v : Val) :
    numEnc32 .real v = encReal (Config.underflowSign v) (Val.toReal v) := by
  unfold numEnc32
  split
  · next q => exact (encRat_real _ q).symm
  · exact enc32Real_eq v

/-- The machine's own record under `NUM_REAL` is that of the real numbers (rules R9, R10). -/
theorem numOf_real_isReal : (numOf .real).IsReal := ⟨numLt_real, numEnc32_real⟩

/-! The records the spec leaves open -/

/-- The order of an open record is the order of the places: a decoded pattern stands at the rational
number it is. -/
theorem numLt_other (k : Nat) (a b : Val) :
    numLt (.other k) a b = placeLt (placeOf k a) (placeOf k b) := by
  unfold numLt
  split
  · simp only [placeOf, placeOfRat, placeLt, lt_irrefl, decide_false, Bool.and_false, Bool.or_false]
    exact decide_eq_decide.mpr Iff.rfl
  · rfl

/-- The place of a value in the lexicographic order of its two coordinates. -/
def placeKey (p : Place) : ℚ ×ₗ ℚ := toLex (p.base, p.offset)

theorem placeKey_injective : Function.Injective placeKey := by
  rintro ⟨a, b⟩ ⟨c, d⟩ h
  obtain ⟨rfl, rfl⟩ := Prod.mk.inj (toLex.injective h)
  rfl

theorem placeLt_iff (a b : Place) : placeLt a b = true ↔ placeKey a < placeKey b := by
  simp [placeLt, placeKey, Prod.Lex.toLex_lt_toLex]

/-! Total orders -/

/-- The record orders the values by a key in a linear order. -/
def Num.OrderedBy {α : Type} [LinearOrder α] (N : Machine.Num) (key : Val → α) : Prop :=
  ∀ a b, N.lt a b = true ↔ key a < key b

section
variable {α : Type} [LinearOrder α] {N : Machine.Num} {key : Val → α}

theorem Num.OrderedBy.lt_asymm (h : N.OrderedBy key) {a b : Val} (hab : N.lt a b = true) :
    N.lt b a = false := by
  rw [Bool.eq_false_iff, ne_eq, h b a, not_lt]
  exact ((h a b).mp hab).le

theorem Num.OrderedBy.le_iff (h : N.OrderedBy key) (a b : Val) :
    N.le a b = true ↔ key a ≤ key b := by
  rw [Num.le, Bool.not_eq_true', Bool.eq_false_iff, ne_eq, h b a, not_lt]

theorem Num.OrderedBy.le_trans (h : N.OrderedBy key) {a b c : Val} (hab : N.le a b = true)
    (hbc : N.le b c = true) : N.le a c = true :=
  (h.le_iff a c).mpr (((h.le_iff a b).mp hab).trans ((h.le_iff b c).mp hbc))

theorem Num.OrderedBy.eq_iff (h : N.OrderedBy key) (a b : Val) :
    N.eq a b = true ↔ key a = key b := by
  have heq : N.eq a b = (N.le b a && N.le a b) := rfl
  rw [heq, Bool.and_eq_true, h.le_iff, h.le_iff, and_comm, le_antisymm_iff]

/-- A record ordered by a key in which `atan2` takes the place of 0 at the origin orders as rule R9
asks. -/
theorem Num.OrderedBy.total (h : N.OrderedBy key)
    (hatan : ∀ y x : Val, key y = key (.lit 0) → key x = key (.lit 0) →
      key (.atan2 y x) = key (.lit 0)) :
    (∀ a b : Val, N.lt a b = true → N.lt b a = false) ∧
    (∀ a b c : Val, N.le a b = true → N.le b c = true → N.le a c = true) ∧
    ∀ y x : Val, N.eq y (.lit 0) = true → N.eq x (.lit 0) = true →
      N.eq (.atan2 y x) (.lit 0) = true :=
  ⟨fun _ _ => h.lt_asymm, fun _ _ _ => h.le_trans, fun y x hy hx =>
    (h.eq_iff _ _).mpr (hatan y x ((h.eq_iff _ _).mp hy) ((h.eq_iff _ _).mp hx))⟩

end

theorem numOf_real_orderedBy : (numOf .real).OrderedBy Val.toReal := numOf_real_isReal.lt_iff

theorem numOf_other_orderedBy (k : Nat) :
    (numOf (.other k)).OrderedBy fun v => placeKey (placeOf k v) := fun a b => by
  rw [← placeLt_iff, ← numLt_other]
  rfl

/-- `atan2` of a real point at the origin is 0 (rule R9). -/
theorem toReal_atan2_origin {y x : Val} (hy : Val.toReal y = Val.toReal (.lit 0))
    (hx : Val.toReal x = Val.toReal (.lit 0)) :
    Val.toReal (.atan2 y x) = Val.toReal (.lit 0) := by
  have hz : Val.toReal (.lit 0) = 0 := Rat.cast_zero
  have hat : Val.toReal (.atan2 y x) = Complex.arg ⟨Val.toReal x, Val.toReal y⟩ := rfl
  rw [hat, hy, hx, hz]
  exact Complex.arg_zero

/-- `atan2` of an open record at the origin is 0 (rule R9). -/
theorem placeOf_atan2_origin {k : Nat} {y x : Val}
    (hy : placeKey (placeOf k y) = placeKey (placeOf k (.lit 0)))
    (hx : placeKey (placeOf k x) = placeKey (placeOf k (.lit 0))) :
    placeKey (placeOf k (.atan2 y x)) = placeKey (placeOf k (.lit 0)) := by
  have hat : placeOf k (.atan2 y x) = otherAtan2 k (placeOf k y) (placeOf k x) := rfl
  rw [hat, placeKey_injective hy, placeKey_injective hx]
  exact congrArg placeKey (if_pos ⟨rfl, rfl⟩)

/-- Every record orders two decoded patterns as the rational numbers they are (rules R9, R10). -/
theorem numOf_lt_decoded (n : NumSel) {p q : U32} (hp : isValue p = true) (hq : isValue q = true) :
    (numOf n).lt (valOf p) (valOf q) = true ↔ decRat p < decRat q := by
  rw [valOf, valOf, dec32_of_isValue hp, dec32_of_isValue hq]
  exact decide_eq_true_iff

/-- Settles O28: the evaluator's soundness gives the real order and encoding, and each record orders by a
key. -/
theorem realOrderAndEncoding : Obligations.RealOrderAndEncoding := by
  obtain ⟨hlt, henc⟩ := numOf_real_isReal
  refine ⟨hlt, henc, fun n => ?_⟩
  have hdec : ∀ p q : U32, isValue p = true → isValue q = true →
      ((numOf n).lt (valOf p) (valOf q) = true ↔ decRat p < decRat q) :=
    fun _ _ => numOf_lt_decoded n
  cases n with
  | real =>
    obtain ⟨hasymm, htrans, hatan⟩ := numOf_real_orderedBy.total fun _ _ => toReal_atan2_origin
    exact ⟨hasymm, htrans, hatan, hdec⟩
  | other k =>
    obtain ⟨hasymm, htrans, hatan⟩ :=
      (numOf_other_orderedBy k).total fun _ _ => placeOf_atan2_origin
    exact ⟨hasymm, htrans, hatan, hdec⟩

end Sys2Proof.Machine
end

section
/-!
The port codec is a nearest-value encoding (rule R10), and a coefficient read after it was written is the
pattern that was written (rule R140).
-/

namespace Sys2Proof.Machine

/-! The fields of a pattern, as numbers -/

/-- The 31 bits of a pattern below its sign. -/
def magnitudeBits (b : U32) : Nat := b.toNat % 2 ^ 31

theorem expField_eq (b : U32) : expField b = magnitudeBits b / 2 ^ 23 := by
  rw [expField, magnitudeBits, BitVec.extractLsb'_toNat, Nat.shiftRight_eq_div_pow]
  omega

theorem fracField_eq (b : U32) : fracField b = magnitudeBits b % 2 ^ 23 := by
  rw [fracField, magnitudeBits, BitVec.extractLsb'_toNat, Nat.shiftRight_zero]
  omega

theorem signField_eq (b : U32) : signField b = decide (2 ^ 31 ≤ b.toNat) :=
  BitVec.msb_eq_decide b

theorem isValue_iff (b : U32) : isValue b = true ↔ magnitudeBits b < infMagnitude := by
  have hlt : magnitudeBits b < 2 ^ 31 := Nat.mod_lt _ (by decide)
  rw [isValue, bne_iff_ne, expField_eq, infMagnitude]
  omega

/-- A pattern is its magnitude and its sign side by side. -/
theorem toNat_eq_magnitudeBits (b : U32) :
    b.toNat = magnitudeBits b + 2 ^ 31 * (signField b).toNat := by
  have hlt := b.isLt
  rw [signField_eq, magnitudeBits]
  by_cases h : 2 ^ 31 ≤ b.toNat
  · rw [decide_eq_true h, Bool.toNat_true]; omega
  · rw [decide_eq_false h, Bool.toNat_false]; omega

/-- A packed pattern is its magnitude below the sign of the value or, for the magnitude 0, the free
one. -/
theorem packPattern_toNat (n z : Bool) {m : Nat} (h : m < 2 ^ 31) :
    (packPattern n z m).toNat = m + 2 ^ 31 * (if m = 0 then z else n).toNat := by
  rw [packPattern, BitVec.toNat_ofNat]
  cases (if m = 0 then z else n) with
  | true => rw [if_pos rfl, Bool.toNat_true]; omega
  | false => rw [if_neg Bool.false_ne_true, Bool.toNat_false]; omega

theorem magnitudeBits_packPattern (n z : Bool) {m : Nat} (h : m < 2 ^ 31) :
    magnitudeBits (packPattern n z m) = m := by
  rw [magnitudeBits, packPattern_toNat n z h]
  omega

theorem signField_packPattern (n z : Bool) {m : Nat} (h : m < 2 ^ 31) :
    signField (packPattern n z m) = if m = 0 then z else n := by
  rw [signField_eq, packPattern_toNat n z h]
  cases (if m = 0 then z else n) with
  | true => exact decide_eq_true (by rw [Bool.toNat_true]; omega)
  | false => exact decide_eq_false (by rw [Bool.toNat_false]; omega)

/-! The number a magnitude stands for -/

/-- The exponent of a magnitude; that of the subnormal numbers is the least one (rule R10). -/
def magnitudeExponent (k : Nat) : Int := max (k / 2 ^ 23 : Nat) 1 - 127

/-- The significand of a magnitude, in units of its last place, with the hidden bit of a normal number
(rule R10). -/
def magnitudeSignificand (k : Nat) : Nat := k % 2 ^ 23 + if k < 2 ^ 23 then 0 else 2 ^ 23

/-- The real number the 31 low bits of a pattern stand for (rule R10). -/
noncomputable def magnitudeReal (k : Nat) : ℝ :=
  magnitudeSignificand k * 2 ^ (magnitudeExponent k - 23)

/-- A magnitude is its exponent and its significand side by side. -/
theorem magnitude_split (k : Nat) :
    (k : Int) = (magnitudeExponent k + 126) * 2 ^ 23 + magnitudeSignificand k := by
  unfold magnitudeExponent magnitudeSignificand
  split <;> omega

/-- A significand has at most 24 bits, and all of them but for the least exponent. -/
theorem magnitude_bounds (k : Nat) :
    -126 ≤ magnitudeExponent k ∧ magnitudeSignificand k < 2 ^ 24 ∧
      (magnitudeExponent k = -126 ∨ 2 ^ 23 ≤ magnitudeSignificand k) := by
  unfold magnitudeExponent magnitudeSignificand
  split <;> omega

/-- A significand of 24 bits at an exponent gives its number, also where a carry makes it `2^24`. -/
theorem magnitudeReal_of_parts {e : Int} {m : Nat} (he : -126 ≤ e) (hm : m ≤ 2 ^ 24)
    (hn : e = -126 ∨ 2 ^ 23 ≤ m) :
    magnitudeReal ((e + 126).toNat * 2 ^ 23 + m) = m * 2 ^ (e - 23) := by
  rcases hm.lt_or_eq with hlt | rfl
  · have h1 : magnitudeExponent ((e + 126).toNat * 2 ^ 23 + m) = e := by
      unfold magnitudeExponent; omega
    have h2 : magnitudeSignificand ((e + 126).toNat * 2 ^ 23 + m) = m := by
      unfold magnitudeSignificand; split <;> omega
    rw [magnitudeReal, h1, h2]
  · have h1 : magnitudeExponent ((e + 126).toNat * 2 ^ 23 + 2 ^ 24) = e + 1 := by
      unfold magnitudeExponent; omega
    have h2 : magnitudeSignificand ((e + 126).toNat * 2 ^ 23 + 2 ^ 24) = 2 ^ 23 := by
      unfold magnitudeSignificand; split <;> omega
    rw [magnitudeReal, h1, h2, show e + 1 - 23 = (e - 23) + 1 by ring, zpow_add_one₀ two_ne_zero]
    push_cast
    ring

theorem magnitudeReal_nonneg (k : Nat) : 0 ≤ magnitudeReal k := by
  unfold magnitudeReal; positivity

theorem magnitudeReal_zero : magnitudeReal 0 = 0 := by
  have h : magnitudeSignificand 0 = 0 := by decide
  rw [magnitudeReal, h, Nat.cast_zero, zero_mul]

theorem magnitudeReal_pos {k : Nat} (h : 0 < k) : 0 < magnitudeReal k := by
  have hm : 0 < magnitudeSignificand k := by unfold magnitudeSignificand; split <;> omega
  have hm' : (0 : ℝ) < magnitudeSignificand k := by exact_mod_cast hm
  unfold magnitudeReal
  positivity

theorem mkRat_two_pow_real (a b : Nat) :
    ((mkRat a (2 ^ b) : ℚ) : ℝ) = a * 2 ^ (-(b : Int)) := by
  rw [Rat.mkRat_eq_div, zpow_neg, zpow_natCast, div_eq_mul_inv]
  push_cast
  rfl

/-- The magnitude of a pattern that is a value, as a real number. -/
theorem decMagnitude_real (b : U32) :
    ((decMagnitude b : ℚ) : ℝ) = magnitudeReal (magnitudeBits b) := by
  have hparts : ∀ {m : Nat} {e : Int}, magnitudeSignificand (magnitudeBits b) = m →
      magnitudeExponent (magnitudeBits b) - 23 = e →
      magnitudeReal (magnitudeBits b) = m * 2 ^ e := by
    rintro _ _ rfl rfl; rfl
  have hk : magnitudeBits b / 2 ^ 23 = expField b := (expField_eq b).symm
  unfold decMagnitude
  rw [fracField_eq]
  split_ifs with h0 h1
  · rw [mkRat_two_pow_real]
    exact (hparts (by unfold magnitudeSignificand; split <;> omega)
      (by unfold magnitudeExponent; omega)).symm
  · rw [hparts (m := 2 ^ 23 + magnitudeBits b % 2 ^ 23) (e := (expField b - 150 : Nat))
      (by unfold magnitudeSignificand; split <;> omega) (by unfold magnitudeExponent; omega),
      zpow_natCast]
    push_cast
    rfl
  · rw [mkRat_two_pow_real]
    exact (hparts (by unfold magnitudeSignificand; split <;> omega)
      (by unfold magnitudeExponent; omega)).symm

/-- The real number a pattern that is a value stands for. -/
theorem decRat_real (b : U32) : ((decRat b : ℚ) : ℝ) =
    if signField b then -magnitudeReal (magnitudeBits b) else magnitudeReal (magnitudeBits b) := by
  rw [decRat, ← decMagnitude_real]
  split
  · exact Rat.cast_neg _
  · rfl

/-- What a packed magnitude decodes to; both zero patterns decode to 0. -/
theorem decRat_packPattern (n z : Bool) {m : Nat} (h : m < 2 ^ 31) :
    ((decRat (packPattern n z m) : ℚ) : ℝ) = if n then -magnitudeReal m else magnitudeReal m := by
  rw [decRat_real, magnitudeBits_packPattern n z h, signField_packPattern n z h]
  by_cases h0 : m = 0
  · subst h0
    simp [magnitudeReal_zero]
  · rw [if_neg h0]

/-- The pattern of an infinity (rule R10). -/
theorem packPattern_infMagnitude (n z : Bool) :
    packPattern n z infMagnitude = if n then 0xFF800000#32 else 0x7F800000#32 := by
  cases n <;> cases z <;> decide

/-! Rounding to the nearest integer -/

/-- Rounding moves a number by at most a half, and by a half only to an even integer (rule R10). -/
theorem realHalfEven_near (y : ℝ) : |y - realHalfEven y| ≤ 1 / 2 ∧
    (|y - realHalfEven y| = 1 / 2 → realHalfEven y % 2 = 0) := by
  have h0 := Int.floor_le y
  have h1 := Int.lt_floor_add_one y
  unfold realHalfEven
  split_ifs with hlt hgt heven
  · rw [abs_of_nonneg (by linarith)]
    exact ⟨by linarith, fun h => by linarith⟩
  · push_cast
    rw [abs_of_nonpos (by linarith)]
    exact ⟨by linarith, fun h => by linarith⟩
  · rw [abs_of_nonneg (by linarith)]
    exact ⟨by linarith, fun _ => heven⟩
  · push_cast
    rw [abs_of_nonpos (by linarith)]
    exact ⟨by linarith, fun _ => by omega⟩

/-- No integer is nearer than the rounded one, and another as near leaves it even. -/
theorem realHalfEven_nearest (y : ℝ) (j : Int) : |y - realHalfEven y| ≤ |y - j| ∧
    (|y - realHalfEven y| = |y - j| → j ≠ realHalfEven y → realHalfEven y % 2 = 0) := by
  obtain ⟨hnear, heven⟩ := realHalfEven_near y
  by_cases hj : j = realHalfEven y
  · subst hj
    exact ⟨le_rfl, fun _ h => absurd rfl h⟩
  · have hgap : (1 : ℝ) ≤ |(j : ℝ) - realHalfEven y| := by
      exact_mod_cast Int.one_le_abs (sub_ne_zero.mpr hj)
    have htri : |(j : ℝ) - realHalfEven y| ≤ |(j : ℝ) - y| + |y - realHalfEven y| :=
      abs_sub_le _ _ _
    rw [abs_sub_comm (j : ℝ) y] at htri
    exact ⟨by linarith, fun h _ => heven (by linarith)⟩

theorem realHalfEven_nat (n : Nat) : realHalfEven (n : ℝ) = n := by
  have h := realHalfEven_int n
  rwa [Int.cast_natCast] at h

/-! The nearest magnitude -/

/-- The exponent of the pattern of a positive number before rounding (rule R10). -/
noncomputable def realExponent (x : ℝ) : Int := max (Int.log 2 x) (-126)

/-- A positive number in units of the last place of its pattern, rounded (rule R10). -/
noncomputable def realSignificand (x : ℝ) : Int := realHalfEven (x / 2 ^ (realExponent x - 23))

theorem realMagnitude_eq (x : ℝ) :
    realMagnitude x = (realExponent x + 126).toNat * 2 ^ 23 + (realSignificand x).toNat := rfl

theorem realExponent_ge (x : ℝ) : -126 ≤ realExponent x := le_max_right _ _

/-- The exponent is the least one or the number reaches its power of two. -/
theorem realExponent_le {x : ℝ} (hx : 0 < x) :
    realExponent x = -126 ∨ (2 : ℝ) ^ realExponent x ≤ x := by
  rcases max_choice (Int.log 2 x) (-126) with h | h
  · refine .inr ?_
    rw [realExponent, h]
    exact_mod_cast Int.zpow_log_le_self (R := ℝ) (b := 2) one_lt_two hx
  · exact .inl h

theorem lt_realExponent (x : ℝ) : x < 2 ^ (realExponent x + 1) := by
  have h := Int.lt_zpow_succ_log_self (R := ℝ) (b := 2) one_lt_two x
  refine lt_of_lt_of_le (by exact_mod_cast h) (zpow_le_zpow_right₀ one_le_two ?_)
  have := le_max_left (Int.log 2 x) (-126)
  unfold realExponent
  omega

/-- The two bounds fix the exponent. -/
theorem realExponent_unique {x : ℝ} {e : Int} (hx : 0 < x) (he : -126 ≤ e)
    (hlo : e = -126 ∨ (2 : ℝ) ^ e ≤ x) (hhi : x < 2 ^ (e + 1)) : realExponent x = e := by
  have h1 : Int.log 2 x < e + 1 :=
    (Int.lt_zpow_iff_log_lt (R := ℝ) (b := 2) one_lt_two hx).mp (by exact_mod_cast hhi)
  have h2 : e = -126 ∨ e ≤ Int.log 2 x := hlo.imp_right fun h =>
    (Int.zpow_le_iff_le_log (R := ℝ) (b := 2) one_lt_two hx).mp (by exact_mod_cast h)
  unfold realExponent
  omega

/-- A power of two in units of the last place. -/
theorem two_zpow_eq_units (e : Int) (n : Nat) :
    (2 : ℝ) ^ (e + n - 23) = (2 ^ n : Nat) * 2 ^ (e - 23) := by
  rw [show e + n - 23 = (n : Int) + (e - 23) by ring, zpow_add₀ two_ne_zero, zpow_natCast]
  push_cast
  rfl

/-- The rounded significand has at most 24 bits or is `2^24`, and has all 24 but for the least
exponent. -/
theorem realSignificand_bounds {x : ℝ} (hx : 0 < x) :
    0 ≤ realSignificand x ∧ realSignificand x ≤ 2 ^ 24 ∧
      (realExponent x = -126 ∨ 2 ^ 23 ≤ realSignificand x) := by
  have hu : (0 : ℝ) < 2 ^ (realExponent x - 23) := by positivity
  have hle : ∀ {n : Nat} {y : ℝ}, (n : ℝ) ≤ y → (n : Int) ≤ realHalfEven y := fun h =>
    (realHalfEven_nat _).symm.le.trans (realHalfEven_mono h)
  refine ⟨?_, ?_, (realExponent_le hx).imp_right fun h => ?_⟩
  · exact hle (n := 0) (by rw [Nat.cast_zero]; positivity)
  · have h := (lt_realExponent x).le
    rw [show realExponent x + 1 = realExponent x + (24 : Nat) - 23 by push_cast; ring,
      two_zpow_eq_units] at h
    exact (realHalfEven_mono ((div_le_iff₀ hu).mpr h)).trans (realHalfEven_nat (2 ^ 24)).le
  · rw [show realExponent x = realExponent x + (23 : Nat) - 23 by push_cast; ring,
      two_zpow_eq_units] at h
    exact hle (n := 2 ^ 23) ((le_div_iff₀ hu).mpr h)

/-- The pattern of a positive number stands for its rounded significand at its exponent. -/
theorem magnitudeReal_realMagnitude {x : ℝ} (hx : 0 < x) :
    magnitudeReal (realMagnitude x) = realSignificand x * 2 ^ (realExponent x - 23) := by
  obtain ⟨h0, h24, h23⟩ := realSignificand_bounds hx
  rw [realMagnitude_eq, magnitudeReal_of_parts (realExponent_ge x) (by omega)
    (h23.imp_right fun h => by omega)]
  congr 1
  exact_mod_cast Int.toNat_of_nonneg h0

/-- What is on the grid of the exponent `e`: a whole number of units of the last place, or a number of a
smaller exponent. -/
def OnGrid (e : Int) (v : ℝ) : Prop :=
  (∃ j : Int, v = j * 2 ^ (e - 23)) ∨ (|v| < 2 ^ e ∧ e ≠ -126)

theorem OnGrid.neg {e : Int} {v : ℝ} (h : OnGrid e v) : OnGrid e (-v) := by
  rcases h with ⟨j, rfl⟩ | h
  · exact .inl ⟨-j, by push_cast; ring⟩
  · exact .inr (by rwa [abs_neg])

/-- Every magnitude is on the grid of every exponent. -/
theorem onGrid_magnitudeReal (e : Int) (k : Nat) : OnGrid e (magnitudeReal k) := by
  obtain ⟨hk, hm, _⟩ := magnitude_bounds k
  by_cases hle : e ≤ magnitudeExponent k
  · obtain ⟨d, hd⟩ := Int.eq_ofNat_of_zero_le (sub_nonneg.mpr hle)
    refine .inl ⟨magnitudeSignificand k * 2 ^ d, ?_⟩
    rw [magnitudeReal, show magnitudeExponent k = e + d by omega, two_zpow_eq_units]
    push_cast
    ring
  · refine .inr ⟨?_, by omega⟩
    have hm' : (magnitudeSignificand k : ℝ) < (2 ^ 24 : Nat) := by exact_mod_cast hm
    calc |magnitudeReal k| = magnitudeReal k := abs_of_nonneg (magnitudeReal_nonneg k)
      _ < (2 ^ 24 : Nat) * 2 ^ (magnitudeExponent k - 23) :=
        mul_lt_mul_of_pos_right hm' (by positivity)
      _ = 2 ^ (magnitudeExponent k + (24 : Nat) - 23) := (two_zpow_eq_units _ _).symm
      _ ≤ 2 ^ e := zpow_le_zpow_right₀ one_le_two (by push_cast; omega)

/-- The decoded patterns are on the grid of every exponent. -/
theorem onGrid_decRat (e : Int) (b : U32) : OnGrid e ((decRat b : ℚ) : ℝ) := by
  rw [decRat_real]
  split
  · exact (onGrid_magnitudeReal e _).neg
  · exact onGrid_magnitudeReal e _

/-- No number on the grid of a positive number is nearer to it than its pattern, and another as near
leaves the pattern even (rule R10). -/
theorem realMagnitude_nearest {x v : ℝ} (hx : 0 < x) (hv : OnGrid (realExponent x) v) :
    |x - magnitudeReal (realMagnitude x)| ≤ |x - v| ∧
      (|x - magnitudeReal (realMagnitude x)| = |x - v| → v ≠ magnitudeReal (realMagnitude x) →
        realMagnitude x % 2 = 0) := by
  set u : ℝ := 2 ^ (realExponent x - 23) with hu
  have hu0 : 0 < u := by positivity
  have hr : magnitudeReal (realMagnitude x) = realSignificand x * u :=
    magnitudeReal_realMagnitude hx
  have hscale : ∀ j : Int, |x - j * u| = |x / u - j| * u := fun j => by
    rw [← abs_of_pos hu0, ← abs_mul, abs_of_pos hu0, sub_mul, div_mul_cancel₀ _ hu0.ne']
  have hnearest : ∀ j : Int, |x / u - realSignificand x| ≤ |x / u - j| ∧
      (|x / u - realSignificand x| = |x / u - j| → j ≠ realSignificand x →
        realSignificand x % 2 = 0) := realHalfEven_nearest (x / u)
  rw [hr, hscale]
  rcases hv with ⟨j, rfl⟩ | ⟨hlt, hne⟩
  · obtain ⟨hle, heven⟩ := hnearest j
    rw [hscale]
    refine ⟨mul_le_mul_of_nonneg_right hle hu0.le, fun heq hj => ?_⟩
    have heven := heven (mul_right_cancel₀ hu0.ne' heq) fun h => hj (by rw [h])
    have h0 := (realSignificand_bounds hx).1
    rw [realMagnitude_eq]
    omega
  · -- the power of two at the exponent is on the grid and nearer than the number below it
    have hpow : (2 : ℝ) ^ realExponent x = ((2 ^ 23 : Int) : ℝ) * u := by
      have h := two_zpow_eq_units (realExponent x) 23
      push_cast at h ⊢
      rwa [add_sub_cancel_right] at h
    have hx2 : (2 : ℝ) ^ realExponent x ≤ x := (realExponent_le hx).resolve_left hne
    have hle := mul_le_mul_of_nonneg_right (hnearest (2 ^ 23)).1 hu0.le
    rw [← hscale (2 ^ 23), ← hpow, abs_of_nonneg (sub_nonneg.mpr hx2)] at hle
    have hvx := (le_abs_self v).trans_lt hlt
    have hfar : |x / u - realSignificand x| * u < |x - v| := by
      rw [abs_of_pos (show 0 < x - v by linarith)]
      linarith
    exact ⟨hfar.le, fun heq => absurd heq hfar.ne⟩

/-- Below the overflow bound the rounded magnitude is that of a value (rule R10). -/
theorem realMagnitude_lt_inf {x : ℝ} (hx : 0 < x) (h : x < 2 ^ 128 - 2 ^ 103) :
    realMagnitude x < infMagnitude := by
  obtain ⟨h0, h24, _⟩ := realSignificand_bounds hx
  have he : realExponent x ≤ 127 := by
    rcases realExponent_le hx with hm | hm
    · omega
    · by_contra hgt
      have h2 : (2 : ℝ) ^ (128 : Int) ≤ 2 ^ realExponent x :=
        zpow_le_zpow_right₀ one_le_two (by omega)
      norm_num at h2 h
      linarith
  rw [realMagnitude_eq, infMagnitude]
  rcases he.lt_or_eq with hlt | heq
  · have := realExponent_ge x
    omega
  · -- at the greatest exponent the bound lies half a unit below the carry
    have hnear := (realHalfEven_near (x / 2 ^ (realExponent x - 23))).1
    have hy : x / 2 ^ (realExponent x - 23) < 2 ^ 24 - 1 / 2 := by
      rw [heq, div_lt_iff₀ (by positivity)]
      norm_num at h ⊢
      linarith
    have hlt : (realSignificand x : ℝ) < ((2 ^ 24 : Int) : ℝ) := by
      have := (abs_le.mp hnear).1
      have hdef : realSignificand x = realHalfEven (x / 2 ^ (realExponent x - 23)) := rfl
      rw [hdef]
      push_cast
      linarith
    have hlt' : realSignificand x < 2 ^ 24 := by exact_mod_cast hlt
    omega

/-! The encoding of a real number -/

theorem encReal_zero (z : Bool) : encReal z 0 = 0x00000000#32 := if_pos rfl

/-- Below the overflow bound the encoding of a number packs its sign and its rounded magnitude. -/
theorem encReal_of_lt (z : Bool) {x : ℝ} (h0 : x ≠ 0) (h : |x| < 2 ^ 128 - 2 ^ 103) :
    encReal z x = packPattern (decide (x < 0)) z (realMagnitude |x|) := by
  rw [encReal, if_neg h0, if_neg (not_le.mpr h)]

theorem encReal_of_ge (z : Bool) {x : ℝ} (h : 2 ^ 128 - 2 ^ 103 ≤ |x|) :
    encReal z x = packPattern (decide (x < 0)) z infMagnitude := by
  have h0 : x ≠ 0 := by
    rintro rfl
    norm_num at h
  rw [encReal, if_neg h0, if_pos h]

/-- The pattern is a value, no value is nearer to the number, and another as near leaves its fraction even
(rule R10). -/
def NearestPattern (x : ℝ) (w : U32) : Prop :=
  isValue w = true ∧ ∀ b : U32, |x - (decRat w : ℝ)| ≤ |x - (decRat b : ℝ)| ∧
    (|x - (decRat w : ℝ)| = |x - (decRat b : ℝ)| → decRat b ≠ decRat w → w.toNat % 2 = 0)

theorem nearestPattern_zero : NearestPattern 0 0x00000000#32 := by
  have hdec : ((decRat 0x00000000#32 : ℚ) : ℝ) = 0 := by
    rw [decRat_real, show magnitudeBits 0x00000000#32 = 0 from rfl, magnitudeReal_zero, neg_zero,
      ite_self]
  refine ⟨by decide, fun b => ⟨?_, fun _ _ => rfl⟩⟩
  rw [hdec, sub_zero, abs_zero]
  exact abs_nonneg _

/-- The sign and the rounded magnitude of a number make its nearest pattern. -/
theorem nearestPattern_pack (z : Bool) {x : ℝ} (h0 : x ≠ 0) (h : |x| < 2 ^ 128 - 2 ^ 103) :
    NearestPattern x (packPattern (decide (x < 0)) z (realMagnitude |x|)) := by
  have hx := abs_pos.mpr h0
  have hinf := realMagnitude_lt_inf hx h
  have hlt : realMagnitude |x| < 2 ^ 31 := hinf.trans (by decide)
  have hnat := packPattern_toNat (decide (x < 0)) z hlt
  have hdec := decRat_packPattern (decide (x < 0)) z hlt
  have hvalue : isValue (packPattern (decide (x < 0)) z (realMagnitude |x|)) = true := by
    rw [isValue_iff, magnitudeBits_packPattern _ z hlt]
    exact hinf
  generalize packPattern (decide (x < 0)) z (realMagnitude |x|) = w at hnat hdec hvalue ⊢
  have heven : realMagnitude |x| % 2 = 0 → w.toNat % 2 = 0 := by omega
  refine ⟨hvalue, fun b => ?_⟩
  have hgrid := onGrid_decRat (realExponent |x|) b
  have hcast : decRat b ≠ decRat w → ((decRat b : ℚ) : ℝ) ≠ ((decRat w : ℚ) : ℝ) :=
    fun hne he => hne (by exact_mod_cast he)
  rcases lt_or_gt_of_ne h0 with hneg | hpos
  · -- a negative number is its absolute value with the signs of all patterns turned
    rw [if_pos (decide_eq_true hneg)] at hdec
    have hflip : ∀ v : ℝ, |(|x| - v)| = |x - -v| := fun v => by
      rw [abs_of_neg hneg, ← abs_neg]
      congr 1
      ring
    obtain ⟨hle, htie⟩ := realMagnitude_nearest hx hgrid.neg
    rw [hflip, hflip, neg_neg, ← hdec] at hle htie
    refine ⟨hle, fun heq hne => heven (htie heq fun he => hcast hne ?_)⟩
    rw [hdec, ← he, neg_neg]
  · rw [if_neg (by simpa using hpos.le)] at hdec
    have hsame : ∀ v : ℝ, |(|x| - v)| = |x - v| := fun v => by rw [abs_of_pos hpos]
    obtain ⟨hle, htie⟩ := realMagnitude_nearest hx hgrid
    rw [hsame, hsame, ← hdec] at hle htie
    exact ⟨hle, fun heq hne => heven (htie heq (hcast hne))⟩

/-- Below the overflow bound the encoding of a number is its nearest pattern (rule R10). -/
theorem nearestPattern_encReal (z : Bool) {x : ℝ} (h : |x| < 2 ^ 128 - 2 ^ 103) :
    NearestPattern x (encReal z x) := by
  rcases eq_or_ne x 0 with rfl | h0
  · rw [encReal_zero]
    exact nearestPattern_zero
  · rw [encReal_of_lt z h0 h]
    exact nearestPattern_pack z h0 h

/-- Settles O26: rounding the significand is nearest on the grid of the number's exponent, on which every
decoded pattern stands. -/
theorem codecIsNearest : Obligations.CodecIsNearest := by
  have hpos : (0 : ℝ) < 2 ^ 128 - 2 ^ 103 := by norm_num
  refine fun z x => ⟨fun h => ?_, ?_, fun h => ?_, fun h => ?_⟩
  · obtain ⟨hvalue, hnearest⟩ := nearestPattern_encReal z h
    exact ⟨hvalue, fun b _ => hnearest b⟩
  · rintro rfl
    exact encReal_zero z
  · rw [encReal_of_ge z (h.trans (le_abs_self x)), decide_eq_false (hpos.trans_le h).not_gt,
      packPattern_infMagnitude]
    rfl
  · rw [encReal_of_ge z ((le_neg_of_le_neg h).trans (neg_le_abs x)), decide_eq_true (by linarith),
      packPattern_infMagnitude]
    rfl

/-! The encoding of a decoded pattern -/

/-- The magnitude of a pattern that is a value is below the overflow bound. -/
theorem magnitudeReal_lt_bound {k : Nat} (h : k < infMagnitude) :
    magnitudeReal k < 2 ^ 128 - 2 ^ 103 := by
  obtain ⟨_, hm, _⟩ := magnitude_bounds k
  have he : magnitudeExponent k ≤ 127 := by
    unfold magnitudeExponent infMagnitude at *
    omega
  have hm' : (magnitudeSignificand k : ℝ) ≤ 2 ^ 24 - 1 := by
    have : ((magnitudeSignificand k + 1 : Nat) : ℝ) ≤ (2 ^ 24 : Nat) := by exact_mod_cast hm
    push_cast at this
    linarith
  have hu : (2 : ℝ) ^ (magnitudeExponent k - 23) ≤ 2 ^ (104 : Int) :=
    zpow_le_zpow_right₀ one_le_two (by omega)
  calc magnitudeReal k ≤ (2 ^ 24 - 1) * 2 ^ (104 : Int) :=
        mul_le_mul hm' hu (by positivity) (by norm_num)
    _ < 2 ^ 128 - 2 ^ 103 := by norm_num

/-- A magnitude other than 0 is the rounded magnitude of its own number (rule R10). -/
theorem realMagnitude_magnitudeReal {k : Nat} (h : 0 < k) :
    realMagnitude (magnitudeReal k) = k := by
  obtain ⟨he, hm, hn⟩ := magnitude_bounds k
  have hexp : realExponent (magnitudeReal k) = magnitudeExponent k := by
    refine realExponent_unique (magnitudeReal_pos h) he (hn.imp_right fun h23 => ?_) ?_
    · have h23' : ((2 ^ 23 : Nat) : ℝ) ≤ magnitudeSignificand k := by exact_mod_cast h23
      calc (2 : ℝ) ^ magnitudeExponent k = 2 ^ (magnitudeExponent k + (23 : Nat) - 23) := by
            congr 1; push_cast; ring
        _ = (2 ^ 23 : Nat) * 2 ^ (magnitudeExponent k - 23) := two_zpow_eq_units _ _
        _ ≤ magnitudeReal k := mul_le_mul_of_nonneg_right h23' (by positivity)
    · have hm' : (magnitudeSignificand k : ℝ) < (2 ^ 24 : Nat) := by exact_mod_cast hm
      calc magnitudeReal k < (2 ^ 24 : Nat) * 2 ^ (magnitudeExponent k - 23) :=
            mul_lt_mul_of_pos_right hm' (by positivity)
        _ = 2 ^ (magnitudeExponent k + (24 : Nat) - 23) := (two_zpow_eq_units _ _).symm
        _ = 2 ^ (magnitudeExponent k + 1) := by congr 1; push_cast; ring
  have hsig : realSignificand (magnitudeReal k) = magnitudeSignificand k := by
    rw [realSignificand, hexp, magnitudeReal, mul_div_cancel_right₀ _ (by positivity)]
    exact_mod_cast realHalfEven_int (magnitudeSignificand k)
  have hsplit := magnitude_split k
  rw [realMagnitude_eq, hexp, hsig]
  omega

/-- A magnitude that is not 0, with either sign, encodes as itself with that sign (rule R10). -/
theorem encReal_signed_magnitudeReal (n z : Bool) {k : Nat} (h0 : 0 < k) (h : k < infMagnitude) :
    encReal z (if n then -magnitudeReal k else magnitudeReal k) = packPattern n z k := by
  have hpos := magnitudeReal_pos h0
  have hbound := magnitudeReal_lt_bound h
  cases n with
  | true =>
    rw [if_pos rfl, encReal_of_lt z (neg_ne_zero.mpr hpos.ne') (by rwa [abs_neg, abs_of_pos hpos]),
      abs_neg, abs_of_pos hpos, decide_eq_true (neg_lt_zero.mpr hpos),
      realMagnitude_magnitudeReal h0]
  | false =>
    rw [if_neg Bool.false_ne_true, encReal_of_lt z hpos.ne' (by rwa [abs_of_pos hpos]),
      abs_of_pos hpos, decide_eq_false hpos.not_gt, realMagnitude_magnitudeReal h0]

/-- The patterns of magnitude 0 are those of the two zeros. -/
theorem eq_zero_pattern_of_magnitudeBits {p : U32} (h : magnitudeBits p = 0) :
    p = 0x00000000#32 ∨ p = 0x80000000#32 := by
  have hp := toNat_eq_magnitudeBits p
  cases hs : signField p with
  | false => exact .inl (BitVec.eq_of_toNat_eq (by rw [hp, h, hs]; rfl))
  | true => exact .inr (BitVec.eq_of_toNat_eq (by rw [hp, h, hs]; rfl))

/-- `enc32` undoes `dec32` on every value pattern, but that `−0` encodes as `+0` (rule R10). -/
theorem encRat_decRat (z : Bool) {p : U32} (h : isValue p = true) :
    encRat z (decRat p) = if p = 0x80000000#32 then 0x00000000#32 else p := by
  have hlt := (isValue_iff p).mp h
  rw [← encRat_real, decRat_real]
  rcases Nat.eq_zero_or_pos (magnitudeBits p) with h0 | hpos
  · rw [h0, magnitudeReal_zero, neg_zero, ite_self, encReal_zero]
    rcases eq_zero_pattern_of_magnitudeBits h0 with rfl | rfl <;> rfl
  · have hne : p ≠ 0x80000000#32 := by
      rintro rfl
      exact absurd hpos (by decide)
    rw [encReal_signed_magnitudeReal _ z hpos hlt, if_neg hne]
    refine BitVec.eq_of_toNat_eq ?_
    rw [packPattern_toNat _ z (hlt.trans (by decide)), if_neg hpos.ne', ← toNat_eq_magnitudeBits]

/-! Writing and reading a coefficient -/

/-- The two bank numbers name a bank (rule R105 step 4). -/
theorem bankOf_of_lt {sel : U8} (h : sel.toNat < 2) : ∃ b, bankOf sel = some b := by
  have hsel : sel = 0#8 ∨ sel = 1#8 := by
    rcases (show sel.toNat = 0 ∨ sel.toNat = 1 by omega) with h | h
    · exact .inl (BitVec.eq_of_toNat_eq h)
    · exact .inr (BitVec.eq_of_toNat_eq h)
  rcases hsel with rfl | rfl
  · exact ⟨.i0, rfl⟩
  · exact ⟨.i1, rfl⟩

/-- COEFWR of a value pattern inside a bank, in CONFIG (rule R139). -/
theorem exec_coefwr_ok {s : State} {sel : U8} {b : Ix} {idx : U16} {p : U32} (hm : s.mode = .config)
    (hb : bankOf sel = some b) (hi : idx.toNat < s.params.maxTaps) (hp : isValue p = true) :
    exec (.coefwr sel idx p) s = .next { s with
      mem := s.mem.setCoef b idx.toNat (.lit (decRat p))
      resp := some (okResponse 0#8 0#16 0#32) } := by
  have hexec : exec (.coefwr sel idx p) s = execCoefwr sel idx p s := rfl
  rw [hexec, execCoefwr, State.inMode_of_eq s hm]
  simp only [hb, dec32_of_isValue hp, State.check_true s (decide_eq_true hi)]
  rfl

/-- COEFRD inside a bank (rule R140). -/
theorem exec_coefrd_ok {s : State} {sel : U8} {b : Ix} {idx : U16} (hb : bankOf sel = some b)
    (hi : idx.toNat < s.params.maxTaps) :
    exec (.coefrd sel idx) s = .next { s with
      resp := some (okResponse 0#8 0#16 (s.num.enc32 (s.mem.coefAt b idx.toNat))) } := by
  have hexec : exec (.coefrd sel idx) s = execCoefrd sel idx s := rfl
  rw [hexec, execCoefrd]
  simp only [hb, State.check_true s (decide_eq_true hi)]
  rfl

/-- A coefficient just written is read back (rules R11, R74). -/
theorem Memory.coefAt_setCoef {m : Memory} {b : Ix} {i : Nat} (v : Val)
    (h : i < (m.coef.get b).length) : (m.setCoef b i v).coefAt b i = v := by
  rw [Memory.coefAt, Memory.setCoef_coef, Two.get_set_self, List.getD_eq_getElem?_getD,
    List.getElem?_set_self h, Option.getD_some]

/-- Every record encodes a decoded pattern as rule R10 does. -/
theorem num_enc32_lit (s : State) (q : Rat) :
    s.num.enc32 (.lit q) = encRat (Config.underflowSign (.lit q)) q := rfl

/-- Settles O25: the element read is the one written, and `enc32` undoes `dec32`. -/
theorem coefficientRoundTrip : Obligations.CoefficientRoundTrip := by
  intro s sel idx p hm hsel hwf hi hp
  obtain ⟨hcoef, _⟩ := hwf
  obtain ⟨b, hb⟩ := bankOf_of_lt hsel
  refine ⟨_, _, exec_coefwr_ok hm hb hi hp, exec_coefrd_ok hb hi, ?_⟩
  simp only [num_enc32_lit, Memory.coefAt_setCoef _ ((hcoef b).symm ▸ hi), encRat_decRat _ hp]

end Sys2Proof.Machine
end

section
/-!
The registers: which numbers name one (rules R24 to R30, R45, R47), and what a CFGRD and a CFGWR of each
do (rules R243, R244).
-/

namespace Sys2Proof.Machine

/-! The register map -/

/-- A number without a register is one that is not in the map. -/
theorem regOf_eq_none_iff (sel : U8) : regOf sel = none ↔ sel ∉ regMap.map (·.1) := by
  rw [regOf, Option.map_eq_none_iff, List.find?_eq_none, List.mem_map]
  constructor
  · rintro h ⟨e, he, rfl⟩
    exact h e he (beq_self_eq_true _)
  · exact fun h e he hsel => h ⟨e, he, eq_of_beq hsel⟩

/-- The numbers outside the map are those rule R47 lists. -/
theorem unimplemented_iff (sel : U8) : Unimplemented sel.toNat ↔ sel ∉ regMap.map (·.1) := by
  unfold Unimplemented
  revert sel
  decide +kernel

/-- The three tables of register numbers together are the map. -/
theorem numbers_eq_regMap (s : State) :
    configTable.map (·.1) ++ lengthTable.map (·.1) ++ (readOnlyTable s).map (·.1) =
      regMap.map (·.1) := rfl

theorem regOf_configTable : ∀ e ∈ configTable, regOf e.1 = some (.cfg e.2) := by decide

theorem ne_coefLen_of_configTable {e : U8 × CfgReg} (h : e ∈ configTable) (b : Ix) :
    e.2 ≠ .coefLen b := by
  have hboth : ∀ e ∈ configTable, e.2 ≠ .coefLen .i0 ∧ e.2 ≠ .coefLen .i1 := by decide
  cases b
  · exact (hboth e h).1
  · exact (hboth e h).2

theorem regOf_lengthTable : ∀ e ∈ lengthTable, regOf e.1 = some (.cfg (.coefLen e.2)) := by decide

theorem writableOf_eq_some {sel : U8} {r : CfgReg} (h : regOf sel = some (.cfg r)) :
    writableOf sel = some r := by rw [writableOf, h]

theorem writableOf_readOnly {sel : U8} {r : RoReg} (h : regOf sel = some (.ro r)) :
    writableOf sel = none := by rw [writableOf, h]

theorem writableOf_eq_none {sel : U8} (h : regOf sel = none) : writableOf sel = none := by
  rw [writableOf, h]

/-! CFGRD and CFGWR, case by case -/

/-- CFGRD of an implemented register answers its content and changes nothing else (rule R244). -/
theorem exec_cfgrd_ok {sel : U8} {r : Reg} (h : regOf sel = some r) (s : State) :
    exec (.cfgrd sel) s = .next { s with resp := some (okResponse 0#8 0#16 (s.readReg r)) } := by
  have hexec : exec (.cfgrd sel) s = execCfgrd sel s := rfl
  rw [hexec, execCfgrd, h]
  rfl

theorem exec_cfgrd_unimplemented {sel : U8} (h : regOf sel = none) (s : State) :
    exec (.cfgrd sel) s = refusal s .errSel := by
  have hexec : exec (.cfgrd sel) s = execCfgrd sel s := rfl
  rw [hexec, execCfgrd, h]
  rfl

theorem exec_cfgwr_run {s : State} (hm : s.mode = .run) (sel : U8) (data : U32) :
    exec (.cfgwr sel data) s = refusal s .errMode :=
  s.inMode_of_ne (by rw [hm]; exact Mode.noConfusion) _

theorem exec_cfgwr_unwritable {s : State} {sel : U8} (hm : s.mode = .config)
    (h : writableOf sel = none) (data : U32) :
    exec (.cfgwr sel data) s = refusal s .errSel := by
  have hexec : exec (.cfgwr sel data) s = execCfgwr sel data s := rfl
  rw [hexec, execCfgwr, s.inMode_of_eq hm, h]
  rfl

/-- CFGWR of a register of rule R30 stores the data bits verbatim (rule R243). -/
theorem exec_cfgwr_verbatim {s : State} {sel : U8} {r : CfgReg} (hm : s.mode = .config)
    (h : writableOf sel = some r) (hr : ∀ b, r ≠ .coefLen b) (data : U32) :
    exec (.cfgwr sel data) s =
      .next { s with cfg := s.cfg.set r data, resp := some (okResponse 0#8 0#16 0#32) } := by
  have hexec : exec (.cfgwr sel data) s = execCfgwr sel data s := rfl
  rw [hexec, execCfgwr, s.inMode_of_eq hm, h]
  cases r with
  | coefLen b => exact absurd rfl (hr b)
  | _ => rfl

/-- CFGWR of a coefficient length register stores and answers the normalised count (rule R243). -/
theorem exec_cfgwr_coefLen {s : State} {sel : U8} {b : Ix} (hm : s.mode = .config)
    (h : writableOf sel = some (.coefLen b)) (data : U32) :
    exec (.cfgwr sel data) s = .next { s with
      cfg := s.cfg.set (.coefLen b) (BitVec.ofNat 32 (normTaps s.params.maxTaps data).1)
      resp := some (okResponse (bit0Flag (normTaps s.params.maxTaps data).2)
        (BitVec.ofNat 16 (normTaps s.params.maxTaps data).1) 0#32) } := by
  have hexec : exec (.cfgwr sel data) s = execCfgwr sel data s := rfl
  rw [hexec, execCfgwr, s.inMode_of_eq hm, h]
  rfl

/-! The configuration registers -/

@[simp] theorem Cfg.reset_get (r : CfgReg) : Cfg.reset.get r = 0#32 := by
  cases r <;> simp [Cfg.get, Cfg.reset, FilterSpec.reset]

/-- Settles O18: each number of the tables names its register, which CFGRD reads and CFGWR writes. -/
theorem configRegisters : Obligations.ConfigRegisters := by
  intro sel r hsel
  have hreg : regOf sel = some (.cfg r) := by
    rcases hsel with h | ⟨b, h, rfl⟩
    · exact regOf_configTable _ h
    · exact regOf_lengthTable _ h
  refine ⟨exec_cfgrd_ok hreg, fun s data hm h => ?_, fun s data hm => exec_cfgwr_run hm sel data,
    fun _ => Cfg.reset_get r⟩
  exact ⟨_, exec_cfgwr_verbatim hm (writableOf_eq_some hreg) (ne_coefLen_of_configTable h) data,
    fun q => s.cfg.get_set r q data⟩

/-! The tap count of a CFGWR to `COEF_LEN` -/

theorem or_one_toNat (n : U32) : (n ||| 1#32).toNat = n.toNat / 2 * 2 + 1 := by
  have hdiv : (n.toNat ||| 1) / 2 = n.toNat / 2 := by simp [Nat.or_div_two]
  have hmod : (n.toNat ||| 1) % 2 = 1 := by simp
  rw [BitVec.toNat_or, show (1#32).toNat = 1 from rfl]
  omega

/-- `normTaps` keeps the request, made odd, where it is at most `MAXTAPS`, and clamps it to the largest
odd number at most `MAXTAPS` otherwise (rule R131). -/
theorem normTaps_cases (maxTaps : Nat) (n : U32) :
    (n.toNat / 2 * 2 + 1 ≤ maxTaps ∧ normTaps maxTaps n = (n.toNat / 2 * 2 + 1, false)) ∨
    (maxTaps < n.toNat / 2 * 2 + 1 ∧
      normTaps maxTaps n = (if maxTaps % 2 = 1 then maxTaps else maxTaps - 1, true)) := by
  unfold normTaps
  rw [or_one_toNat]
  rcases Nat.lt_or_ge maxTaps (n.toNat / 2 * 2 + 1) with h | h
  · exact .inr ⟨h, if_neg (by omega)⟩
  · exact .inl ⟨h, if_pos h⟩

/-- The normalised tap count is odd and at most `MAXTAPS` (rule R131). -/
theorem normTaps_odd_le {maxTaps : Nat} (h : 1 ≤ maxTaps) (n : U32) :
    (normTaps maxTaps n).1 % 2 = 1 ∧ (normTaps maxTaps n).1 ≤ maxTaps := by
  rcases normTaps_cases maxTaps n with ⟨hle, e⟩ | ⟨_, e⟩ <;> rw [e]
  · exact ⟨by omega, hle⟩
  · dsimp only
    split <;> omega

/-- The warning says that the request, made odd, was above `MAXTAPS` (rule R131). -/
theorem normTaps_clamped (maxTaps : Nat) (n : U32) :
    (normTaps maxTaps n).2 = decide (maxTaps < n.toNat / 2 * 2 + 1) := by
  rcases normTaps_cases maxTaps n with ⟨h, e⟩ | ⟨h, e⟩ <;> rw [e]
  · exact (decide_eq_false (by omega)).symm
  · exact (decide_eq_true h).symm

/-- An odd request that fits is taken as it is (rule R131). -/
theorem normTaps_of_odd_le {maxTaps : Nat} {n : U32} (h : n.toNat ≤ maxTaps)
    (hodd : n.toNat % 2 = 1) : (normTaps maxTaps n).1 = n.toNat := by
  rcases normTaps_cases maxTaps n with ⟨_, e⟩ | ⟨hlt, _⟩
  · rw [e]
    omega
  · omega

theorem bit0Flag_decide (p : Prop) [Decidable p] : bit0Flag (decide p) = if p then 1#8 else 0#8 := by
  by_cases h : p
  · rw [decide_eq_true h, if_pos h]
    rfl
  · rw [decide_eq_false h, if_neg h]
    rfl

/-- A count of at most 65535 fits a register and the `aux` field (rules R102, R131). -/
theorem toNat_ofNat_count {n w : Nat} (h : n ≤ 65535) (hw : 16 ≤ w) : (BitVec.ofNat w n).toNat = n := by
  rw [BitVec.toNat_ofNat]
  refine Nat.mod_eq_of_lt (lt_of_le_of_lt h ?_)
  calc 65535 < 2 ^ 16 := by decide
    _ ≤ 2 ^ w := Nat.pow_le_pow_right (by decide) hw

/-- Settles O19: the count CFGWR stores is `normTaps` of the request, whose bounds are rule R131's. -/
theorem coefLenWrite : Obligations.CoefLenWrite := by
  rintro s sel b data ⟨h1, h65535, _⟩ hm hsel
  obtain ⟨hodd, hle⟩ := normTaps_odd_le h1 data
  refine ⟨_, hodd, hle, rfl, normTaps_of_odd_le, ?_, toNat_ofNat_count (hle.trans h65535) (by decide),
    toNat_ofNat_count (hle.trans h65535) (by decide)⟩
  rw [exec_cfgwr_coefLen hm (writableOf_eq_some (regOf_lengthTable _ hsel)) data, normTaps_clamped,
    bit0Flag_decide]
  rfl

/-! The numbers without a register -/

/-- Settles O21: the numbers of rule R47 are those without a register. -/
theorem unimplementedRegisters : Obligations.UnimplementedRegisters := by
  refine fun s sel => ⟨by rw [numbers_eq_regMap, unimplemented_iff], fun h => ?_⟩
  have hreg : regOf sel = none := (regOf_eq_none_iff sel).mpr ((unimplemented_iff sel).mp h)
  exact ⟨exec_cfgrd_unimplemented hreg s, fun data =>
    ⟨fun hm => exec_cfgwr_unwritable hm (writableOf_eq_none hreg) data,
      fun hm => exec_cfgwr_run hm sel data⟩⟩

/-! The read-only registers -/

theorem readRo_mode (s : State) : s.readRo .mode = if s.mode = .run then 1#32 else 0#32 := by
  unfold State.readRo
  cases s.mode <;> rfl

/-- `STATUS` as a number, flag by flag (rule R44). -/
theorem readRo_status (s : State) : s.readRo .status =
    BitVec.ofNat 32 (bitNat s.df.slotValid + 2 * bitNat (decide (s.df.dfState = .filling)) +
      4 * bitNat s.df.overflow + 8 * bitNat s.pll.dataDetect + 16 * bitNat s.pll.prevSign +
      32 * bitNat s.df.prevRaw) := by
  have hstate : s.df.dfState.toBool = decide (s.df.dfState = .filling) := by
    cases s.df.dfState <;> rfl
  have hbits : ∀ f5 f4 f3 f2 f1 f0 : Bool, 0#24 ++ flagByte false false f5 f4 f3 f2 f1 f0 =
      BitVec.ofNat 32 (bitNat f0 + 2 * bitNat f1 + 4 * bitNat f2 + 8 * bitNat f3 + 16 * bitNat f4 +
        32 * bitNat f5) := by decide
  unfold State.readRo State.statusWord
  rw [hstate, hbits]

/-- `DF_REGS` as a number, field by field (rule R40). -/
theorem readRo_dfRegs (s : State) : s.readRo .dfRegs =
    BitVec.ofNat 32 (s.df.shiftReg.toNat + 2 ^ 8 * s.df.octetAcc.toNat +
      2 ^ 16 * s.df.bitsInOctet.toNat) := by
  have h8 := s.df.shiftReg.isLt
  have h16 := s.df.octetAcc.isLt
  have h19 := s.df.bitsInOctet.isLt
  refine BitVec.eq_of_toNat_eq ?_
  simp only [State.readRo, Deframer.packed, BitVec.toNat_append, BitVec.toNat_ofNat]
  rw [← Nat.shiftLeft_add_eq_or_of_lt h8, ← Nat.shiftLeft_add_eq_or_of_lt h16,
    ← Nat.shiftLeft_add_eq_or_of_lt h19]
  simp only [Nat.shiftLeft_eq]
  omega

/-- Each number of the table of rule R45 names a read-only register with the value the table shows. -/
theorem regOf_readOnlyTable (s : State) :
    ∀ e ∈ readOnlyTable s, ∃ r, regOf e.1 = some (.ro r) ∧ s.readRo r = e.2 := by
  simp only [readOnlyTable, List.forall_mem_cons]
  exact ⟨⟨.mode, rfl, readRo_mode s⟩, ⟨.status, rfl, readRo_status s⟩,
    ⟨.oscPhase .i0, rfl, rfl⟩, ⟨.oscPhase .i1, rfl, rfl⟩,
    ⟨.oscInc .i0, rfl, rfl⟩, ⟨.oscInc .i1, rfl, rfl⟩,
    ⟨.pllAcc, rfl, rfl⟩, ⟨.pllStep, rfl, rfl⟩, ⟨.dfRegs, rfl, readRo_dfRegs s⟩,
    ⟨.frameLen, rfl, rfl⟩, ⟨.slotLen, rfl, rfl⟩, ⟨.discScale, rfl, rfl⟩,
    ⟨.agcPeak .i0, rfl, rfl⟩, ⟨.agcValley .i0, rfl, rfl⟩,
    ⟨.agcPeak .i1, rfl, rfl⟩, ⟨.agcValley .i1, rfl, rfl⟩, ⟨.prevPhase, rfl, rfl⟩,
    ⟨.id, rfl, rfl⟩, ⟨.hwMaxtaps, rfl, rfl⟩, ⟨.hwMaxframe, rfl, rfl⟩, List.forall_mem_nil _⟩

/-- Settles O22: each number of rule R45 names its register, which no CFGWR writes. -/
theorem readOnlyRegisters : Obligations.ReadOnlyRegisters := by
  intro s sel v h
  obtain ⟨r, hreg, rfl⟩ := regOf_readOnlyTable s _ h
  exact ⟨exec_cfgrd_ok hreg s, fun data =>
    ⟨fun hm => exec_cfgwr_unwritable hm (writableOf_readOnly hreg) data,
      fun hm => exec_cfgwr_run hm sel data⟩⟩

/-- Settles O14: the three registers show parameters, which every command keeps. -/
theorem constantRegisters : Obligations.ConstantRegisters := by
  intro i s t h
  obtain ⟨t', _, h', _, _, hparams⟩ := completes_exec i s
  obtain rfl : t' = t := by
    rw [h] at h'
    cases h'
    rfl
  rw [← hparams]
  exact ⟨exec_cfgrd_ok (r := .ro .id) rfl _, exec_cfgrd_ok (r := .ro .hwMaxtaps) rfl _,
    exec_cfgrd_ok (r := .ro .hwMaxframe) rfl _⟩

end Sys2Proof.Machine
end

section
/-!
What a command can do: every outcome of every command, said once, and what follows for the mode, the
configuration, `DATA_DETECT` and the slot (rules R21, R31, R39, R50, R82).
-/

namespace Sys2Proof.Machine

/-! The data path: the stages before the deframer, and the deframer step -/

/-- What the demodulator stage and the PLL registers' update leave for the deframer: its own registers, the
mode, the configuration, the coefficients and the derived constants are as before. -/
structure UpToDeframer (s u : State) : Prop where
  params : u.params = s.params
  mode : u.mode = s.mode
  cfg : u.cfg = s.cfg
  derived : u.derived = s.derived
  coef : u.mem.coef = s.mem.coef
  df : u.df = s.df
  dataDetect : s.params.lockNext = .hold → u.pll.dataDetect = s.pll.dataDetect
  wf : ∀ p q, s.mem.wf p q → (∀ b, s.cfg.tapCount b ≤ p) → u.mem.wf p q

theorem UpToDeframer.refl (s : State) : UpToDeframer s s :=
  ⟨rfl, rfl, rfl, rfl, rfl, rfl, fun _ => rfl, fun _ _ h _ => h⟩

theorem UpToDeframer.demodulate (x : Val) (s : State) : UpToDeframer s (demodulate x s).1 :=
  have h := demodulate_same x s
  ⟨h.params, h.mode, h.cfg, h.derived, h.coef, h.df, fun _ => by rw [h.pll],
    fun _ _ hwf hn => demodulate_wf x hwf hn⟩

theorem UpToDeframer.afterPll {s u : State} (h : UpToDeframer s u) (sign : Bool) :
    UpToDeframer s (u.afterPll sign) where
  params := h.params
  mode := h.mode
  cfg := h.cfg
  derived := h.derived
  coef := h.coef
  df := h.df
  dataDetect hold := by
    have hu : u.params.lockNext = .hold := by rw [h.params, hold]
    simp only [State.afterPll, hu, lockNext, h.dataDetect hold]
  wf := h.wf

/-- The effect of a data-path command with the events it reports: a deframer step, a PLL step, or the
demodulator stage and a PLL step (rules R160, R197, R219). -/
inductive DataStep (s : State) : Instr → State × DataEvent → Prop where
  | bitin (bit : Bool) :
    DataStep s (.bitin bit)
      ((dfStep bit s).1, { bv := true, b := bit, tr := false, df := (dfStep bit s).2 })
  | demodin (data : U32) (d : Val) : DataStep s (.demodin data) (pllStep d s)
  | sample (data : U32) (x : Val) :
    DataStep s (.sample data) (pllStep (demodulate x s).2 (demodulate x s).1)

/-- A data-path command hands at most one bit to the deframer, which does the rest (rules R190, R210). -/
def EndsInDeframer (u : State) (p : State × DataEvent) : Prop :=
  (p.1 = u ∧ p.2.df = .none) ∨ ∃ bit, p.1 = (dfStep bit u).1 ∧ p.2.df = (dfStep bit u).2

theorem pllStepSign_endsInDeframer (sign : Bool) (s : State) :
    EndsInDeframer (s.afterPll sign) (pllStepSign sign s) := by
  rcases pllStepSign_cases sign s with ⟨_, e⟩ | ⟨_, e⟩ <;> rw [e]
  · exact .inr ⟨sign, rfl, rfl⟩
  · exact .inl ⟨rfl, rfl⟩

theorem DataStep.endsInDeframer {s : State} {i : Instr} {p : State × DataEvent}
    (h : DataStep s i p) : ∃ u, UpToDeframer s u ∧ EndsInDeframer u p := by
  cases h with
  | bitin bit => exact ⟨s, .refl s, .inr ⟨bit, rfl, rfl⟩⟩
  | demodin data d => exact ⟨_, (UpToDeframer.refl s).afterPll _, pllStepSign_endsInDeframer _ _⟩
  | sample data x =>
    exact ⟨_, (UpToDeframer.demodulate x s).afterPll _, pllStepSign_endsInDeframer _ _⟩

/-- What no data-path command changes (rules R31, R82). -/
theorem DataStep.frame {s : State} {i : Instr} {p : State × DataEvent} (h : DataStep s i p) :
    p.1.params = s.params ∧ p.1.mode = s.mode ∧ p.1.cfg = s.cfg ∧ p.1.derived = s.derived ∧
      p.1.mem.coef = s.mem.coef := by
  obtain ⟨u, hu, ⟨e, _⟩ | ⟨bit, e, _⟩⟩ := h.endsInDeframer <;> rw [e]
  · exact ⟨hu.params, hu.mode, hu.cfg, hu.derived, hu.coef⟩
  · have hd := dfStep_same bit u
    exact ⟨hd.params.trans hu.params, hd.mode.trans hu.mode, hd.cfg.trans hu.cfg,
      hd.derived.trans hu.derived, hd.coef.trans hu.coef⟩

/-- The default `LOCKNEXT` holds `DATA_DETECT` (rule R196). -/
theorem DataStep.dataDetect {s : State} {i : Instr} {p : State × DataEvent} (h : DataStep s i p)
    (hold : s.params.lockNext = .hold) : p.1.pll.dataDetect = s.pll.dataDetect := by
  obtain ⟨u, hu, ⟨e, _⟩ | ⟨bit, e, _⟩⟩ := h.endsInDeframer <;> rw [e]
  · exact hu.dataDetect hold
  · rw [(dfStep_same bit u).pll]
    exact hu.dataDetect hold

/-! The slot -/

/-- What a deframer step can do to `SLOT_VALID`: keep it, clear it at an overflow, set it at a slot write
(rule R50). -/
def SlotMove (s t : State) (ev : DfEvent) : Prop :=
  t.df.slotValid = s.df.slotValid ∨
  (t.df.slotValid = false ∧ t.df.overflow = true ∧ ev.ovf = true) ∨
  (t.df.slotValid = true ∧ ev.fe = true)

theorem octetDone_slotMove (d : Bool) (s : State) :
    SlotMove s (octetDone d s).1 (octetDone d s).2 := by
  rcases octetDone_cases d s with ⟨_, _, e⟩ | ⟨_, _, e⟩ | ⟨_, e⟩ <;> rw [e]
  · exact .inr (.inr ⟨rfl, rfl⟩)
  · exact .inl rfl
  · exact .inr (.inl ⟨rfl, rfl, rfl⟩)

theorem accumulate_slotMove (d : Bool) (s : State) :
    SlotMove s (accumulate d s).1 (accumulate d s).2 := by
  rcases accumulate_cases d s with ⟨_, e⟩ | ⟨_, e⟩ <;> rw [e]
  · exact .inl rfl
  · exact octetDone_slotMove d _

theorem dfStep_slotMove (bit : Bool) (s : State) : SlotMove s (dfStep bit s).1 (dfStep bit s).2 := by
  rcases dfStep_cases bit s with ⟨_, e⟩ | ⟨_, _, e⟩ | ⟨_, _, e⟩ <;> rw [e]
  · exact .inl rfl
  · exact .inl rfl
  · exact accumulate_slotMove _ (s.detect bit)

theorem DataStep.slotMove {s : State} {i : Instr} {p : State × DataEvent} (h : DataStep s i p) :
    SlotMove s p.1 p.2.df := by
  obtain ⟨u, hu, ⟨e, _⟩ | ⟨bit, e, ev⟩⟩ := h.endsInDeframer
  · exact .inl (by rw [e, hu.df])
  · have hmove := dfStep_slotMove bit u
    rwa [SlotMove, hu.df, ← e, ← ev] at hmove

/-! The outcomes of a command -/

/-- What a command can do, guards included. `answers` is a response and nothing else: a refused command,
or one that reads. -/
inductive Effect (s : State) : Instr → State → Prop where
  | answers (i : Instr) (r : Response) : Effect s i { s with resp := some r }
  | resets :
    Effect s .reset { State.resetOf s.params with
      cmds := s.cmds, resp := some (okResponse 0#8 0#16 0#32) }
  | starts (hm : s.mode = .config) (hok : startError s.num s.params.maxFrame s.cfg = none) :
    Effect s .start { s with
      derived := deriveConstants s.cfg, mode := .run, resp := some (okResponse 0#8 0#16 0#32) }
  | writesRegister (sel : U8) (data : U32) (reg : CfgReg) (v : U32) (r : Response)
      (hm : s.mode = .config)
      (hlen : ∀ b, reg = .coefLen b → v = BitVec.ofNat 32 (normTaps s.params.maxTaps data).1) :
    Effect s (.cfgwr sel data) { s with cfg := s.cfg.set reg v, resp := some r }
  | writesCoef (sel : U8) (idx : U16) (data : U32) (b : Ix) (k : Nat) (v : Val) (r : Response)
      (hm : s.mode = .config) :
    Effect s (.coefwr sel idx data) { s with mem := s.mem.setCoef b k v, resp := some r }
  | fillsBank (sel : U8) (b : Ix) (taps : U32) (h : List Val) (r : Response)
      (hm : s.mode = .config) :
    Effect s (.fdgen sel)
      { s.writeBank b (normTaps s.params.maxTaps taps).1 h with resp := some r }
  | receives {i : Instr} {p : State × DataEvent} (hm : s.mode = .run) (hp : DataStep s i p)
      (data : U32) :
    Effect s i { p.1 with
      resp := some (okResponse (dataFlags p.2 p.1.df.slotValid) (auxOf p.1.df.frameLen) data) }
  | setsDetect (bit : Bool) (r : Response) (hm : s.mode = .run) :
    Effect s (.setdd bit) { s with pll := { s.pll with dataDetect := bit }, resp := some r }
  | clearsSlot (r : Response) (hv : s.df.slotValid = true) :
    Effect s .framerd { s with
      df := { s.df with slotValid := false, slotLen := 0 }, resp := some r }

/-- A raised error is a response alone. -/
theorem Effect.of_raise {s t : State} {st : Status} (i : Instr) (h : s.raise st = .next t) :
    Effect s i t := by
  rw [State.raise_next h]
  exact .answers i _

/-- A check that a command passes leaves the rest of the command to look at. -/
theorem Effect.of_check {s t : State} {i : Instr} {b : Bool} {st : Status} {go : Result}
    (h : s.check b st go = .next t) (hgo : b = true → go = .next t → Effect s i t) :
    Effect s i t := by
  rcases s.check_cases b st go with ⟨hb, e⟩ | ⟨_, e⟩ <;> rw [e] at h
  · exact hgo hb h
  · exact .of_raise i h

theorem Effect.of_inMode {s t : State} {i : Instr} {m : Mode} {go : Result}
    (h : s.inMode m go = .next t) (hgo : s.mode = m → go = .next t → Effect s i t) :
    Effect s i t :=
  .of_check h fun hb => hgo (of_decide_eq_true hb)

/-- A data-path command answers with the flags of its events (rules R112, R169). -/
theorem Effect.of_respondData {s t : State} {i : Instr} {p : State × DataEvent} {data : U32}
    (hm : s.mode = .run) (hp : DataStep s i p) (h : p.1.respondData p.2 data = .next t) :
    Effect s i t := by
  rw [State.respondWith_next h]
  exact .receives hm hp data

theorem execStart_effect {s t : State} (h : execStart s = .next t) : Effect s .start t := by
  refine .of_inMode h fun hm h => ?_
  split at h
  · exact .of_raise _ h
  · next hok =>
    rw [State.respondWith_next h]
    exact .starts hm hok

theorem execCfgwr_effect {s t : State} {sel : U8} {data : U32} (h : execCfgwr sel data s = .next t) :
    Effect s (.cfgwr sel data) t := by
  refine .of_inMode h fun hm h => ?_
  split at h
  · exact .of_raise _ h
  · next b _ =>
    rw [State.respondWith_next h]
    exact .writesRegister sel data (.coefLen b) _ _ hm fun _ _ => rfl
  · next r hne _ =>
    rw [State.respondWith_next h]
    exact .writesRegister sel data r data _ hm fun b hb => absurd hb (hne b)

theorem execCfgrd_effect {s t : State} {sel : U8} (h : execCfgrd sel s = .next t) :
    Effect s (.cfgrd sel) t := by
  unfold execCfgrd at h
  split at h
  · exact .of_raise _ h
  · rw [State.respondWith_next h]
    exact .answers _ _

theorem execCoefwr_effect {s t : State} {sel : U8} {idx : U16} {data : U32}
    (h : execCoefwr sel idx data s = .next t) : Effect s (.coefwr sel idx data) t := by
  refine .of_inMode h fun hm h => ?_
  split at h
  · exact .of_raise _ h
  · next b _ =>
    refine .of_check h fun _ h => ?_
    split at h
    · exact .of_raise _ h
    · next v _ =>
      rw [State.respondWith_next h]
      exact .writesCoef sel idx data b idx.toNat v _ hm

theorem execCoefrd_effect {s t : State} {sel : U8} {idx : U16}
    (h : execCoefrd sel idx s = .next t) : Effect s (.coefrd sel idx) t := by
  unfold execCoefrd at h
  split at h
  · exact .of_raise _ h
  · refine .of_check h fun _ h => ?_
    rw [State.respondWith_next h]
    exact .answers _ _

theorem execFdgen_effect {s t : State} {sel : U8} (h : execFdgen sel s = .next t) :
    Effect s (.fdgen sel) t := by
  refine .of_inMode h fun hm h => ?_
  split at h
  · exact .of_raise _ h
  · next b _ =>
    refine .of_check h fun _ h => ?_
    rw [State.respondWith_next h]
    exact .fillsBank sel b _ _ _ hm

theorem execSample_effect {s t : State} {data : U32} (h : execSample data s = .next t) :
    Effect s (.sample data) t := by
  refine .of_inMode h fun hm h => ?_
  split at h
  · exact .of_raise _ h
  · next x _ => exact .of_respondData hm (.sample data x) h

theorem execDemodin_effect {s t : State} {data : U32} (h : execDemodin data s = .next t) :
    Effect s (.demodin data) t := by
  refine .of_inMode h fun hm h => ?_
  split at h
  · exact .of_raise _ h
  · next d _ => exact .of_respondData hm (.demodin data d) h

theorem execFramerd_effect {s t : State} (h : execFramerd s = .next t) : Effect s .framerd t := by
  unfold execFramerd at h
  split at h
  · next hv =>
    rw [State.respondWith_next h]
    exact .clearsSlot _ hv
  · rw [State.respondWith_next h]
    exact .answers _ _

/-- Every outcome of every command is one of the effects. -/
theorem exec_effect {i : Instr} {s t : State} (h : exec i s = .next t) : Effect s i t := by
  cases i with
  | reset =>
    rw [State.respondWith_next h]
    exact .resets
  | start => exact execStart_effect h
  | cfgwr sel data => exact execCfgwr_effect h
  | cfgrd sel => exact execCfgrd_effect h
  | coefwr sel idx data => exact execCoefwr_effect h
  | coefrd sel idx => exact execCoefrd_effect h
  | fdgen sel => exact execFdgen_effect h
  | sample data => exact execSample_effect h
  | demodin data => exact execDemodin_effect h
  | bitin bit => exact .of_inMode h fun hm h => .of_respondData hm (.bitin bit) h
  | setdd bit =>
    refine .of_inMode h fun hm h => ?_
    rw [State.respondWith_next h]
    exact .setsDetect bit _ hm
  | framerd => exact execFramerd_effect h

/-! What the effects leave alone -/

/-- RESET and an accepted START alone change the mode (rule R21). -/
theorem Effect.mode {i : Instr} {s t : State} (h : Effect s i t) :
    t.mode = s.mode ∨ (i = .reset ∧ t.mode = .config) ∨
      (i = .start ∧ t.mode = .run ∧ t.resp = some (okResponse 0#8 0#16 0#32)) := by
  cases h with
  | resets => exact .inr (.inl ⟨rfl, rfl⟩)
  | starts => exact .inr (.inr ⟨rfl, rfl, rfl⟩)
  | receives _ hp _ =>
    obtain ⟨_, hmode, _, _, _⟩ := hp.frame
    exact .inl hmode
  | _ => exact .inl rfl

/-- In RUN, RESET alone changes the mode, the configuration, a coefficient or a derived constant (rules
R31, R82). -/
theorem Effect.configuration_of_run {i : Instr} {s t : State} (h : Effect s i t)
    (hm : s.mode = .run) (hi : i ≠ .reset) :
    t.mode = .run ∧ t.cfg = s.cfg ∧ t.mem.coef = s.mem.coef ∧ t.derived = s.derived := by
  have hnot : s.mode ≠ .config := by rw [hm]; exact Mode.noConfusion
  cases h with
  | answers => exact ⟨hm, rfl, rfl, rfl⟩
  | resets => exact absurd rfl hi
  | starts hc => exact absurd hc hnot
  | writesRegister _ _ _ _ _ hc => exact absurd hc hnot
  | writesCoef _ _ _ _ _ _ _ hc => exact absurd hc hnot
  | fillsBank _ _ _ _ _ hc => exact absurd hc hnot
  | receives _ hp _ =>
    obtain ⟨_, hmode, hcfg, hderived, hcoef⟩ := hp.frame
    exact ⟨hmode.trans hm, hcfg, hcoef, hderived⟩
  | setsDetect => exact ⟨hm, rfl, rfl, rfl⟩
  | clearsSlot => exact ⟨hm, rfl, rfl, rfl⟩

/-- Settles O13, by the effect of the command. -/
theorem modeAndConfigurationChanges : Obligations.ModeAndConfigurationChanges :=
  ⟨fun _ _ _ h hne => (exec_effect h).mode.resolve_left hne,
    fun _ _ _ hm hi h => (exec_effect h).configuration_of_run hm hi⟩

/-- Settles O50: the data path holds `DATA_DETECT` under the default `LOCKNEXT`, and of the other commands
RESET and SETDD alone write it. -/
theorem dataDetectHeld : Obligations.DataDetectHeld := by
  intro i s t hold h hne
  cases exec_effect h with
  | resets => exact .inl rfl
  | setsDetect bit => exact .inr ⟨bit, rfl⟩
  | receives _ hp _ => exact absurd (hp.dataDetect hold) hne
  | _ => exact absurd rfl hne

/-- What a command can do to `SLOT_VALID` (rule R50). -/
theorem Effect.slotValid {i : Instr} {s t : State} (h : Effect s i t) :
    t.df.slotValid = s.df.slotValid ∨
    (t.df.slotValid = false ∧ (i = .framerd ∨ i = .reset ∨
      (t.df.overflow = true ∧ ∃ r, t.resp = some r ∧ r.fl.getLsbD 7 = true))) ∨
    (t.df.slotValid = true ∧ ∃ r, t.resp = some r ∧ r.fl.getLsbD 4 = true) := by
  cases h with
  | resets => exact .inr (.inl ⟨rfl, .inr (.inl rfl)⟩)
  | clearsSlot => exact .inr (.inl ⟨rfl, .inl rfl⟩)
  | @receives i p _ hp _ =>
    obtain ⟨_, _, _, _, hfe, _, _, hovf⟩ := dataFlags_bits p.2 p.1.df.slotValid
    rcases hp.slotMove with hkeep | ⟨hfall, hover, hev⟩ | ⟨hrise, hev⟩
    · exact .inl hkeep
    · exact .inr (.inl ⟨hfall, .inr (.inr ⟨hover, _, rfl, hovf.trans hev⟩)⟩)
    · exact .inr (.inr ⟨hrise, _, rfl, hfe.trans hev⟩)
  | _ => exact .inl rfl

/-- Settles O54: a slot that changes falls or rises by one of the effects on it. -/
theorem frameAvailChanges : Obligations.FrameAvailChanges := by
  refine ⟨fun _ => rfl, fun i s t h hs ht => ?_, fun i s t h hs ht => ?_⟩ <;>
    unfold State.frameAvail at hs ht <;>
    rcases (exec_effect h).slotValid with hkeep | ⟨hfall, hby⟩ | ⟨hrise, hby⟩
  · exact absurd (hs.symm.trans (hkeep.symm.trans ht)) Bool.noConfusion
  · exact hby
  · exact absurd (hrise.symm.trans ht) Bool.noConfusion
  · exact absurd (hs.symm.trans (hkeep.symm.trans ht)) Bool.noConfusion
  · exact absurd (hfall.symm.trans ht) Bool.noConfusion
  · exact hby

end Sys2Proof.Machine
end

section
/-!
RESET (rules R49, R240), and the invariant of rule R48: it holds after RESET and every step keeps it.
-/

namespace Sys2Proof.Machine

/-- Settles O10: the state after RESET is that after power-on with the same parameters, element by
element. -/
theorem resetRestoresEverything : Obligations.ResetRestoresEverything := by
  intro s
  exact ⟨_, rfl, rfl, rfl, rfl, Cfg.reset_get, rfl, rfl, rfl, fun b => Two.get_both _ b, rfl,
    fun k => ⟨Two.get_both _ k, Two.get_both _ k⟩, rfl, rfl, rfl, rfl, rfl, rfl, rfl, rfl, rfl, rfl,
    rfl, rfl, rfl, rfl, rfl, rfl, rfl, rfl, rfl, rfl⟩

/-! The invariant in CONFIG -/

/-- The run-time elements of the reset state are at their reset values (rules R48(e), R49). -/
theorem State.resetOf_runtimeReset (p : Params) : (State.resetOf p).RuntimeReset :=
  ⟨rfl, rfl, rfl, rfl, rfl, rfl, rfl, rfl, rfl⟩

theorem State.RuntimeReset.df {s : State} (h : s.RuntimeReset) : s.df = .reset := by
  obtain ⟨_, _, _, hdf, _⟩ := h
  exact hdf

/-- A deframer at its reset values meets its part of the invariant, where START has checked the frame
limits or is still to do it (rules R48, R241). -/
theorem deframerInv_of_reset {s : State} (h : s.df = .reset)
    (hrun : s.mode = .run → 1 ≤ s.cfg.frameMin.toNat ∧ s.cfg.frameMin.toNat ≤ s.cfg.frameMax.toNat ∧
      s.cfg.frameMax.toNat ≤ s.params.maxFrame) : s.DeframerInv := by
  unfold State.DeframerInv
  rw [h]
  exact ⟨Nat.zero_le _, fun hm => ⟨Nat.zero_le _, hrun hm⟩, fun hv => absurd hv Bool.noConfusion,
    fun _ => ⟨rfl, rfl, rfl, rfl⟩, fun ho => absurd ho Bool.noConfusion⟩

/-- In CONFIG the invariant asks for the parameters, the form of the storage spaces, the tap counts and
the reset values. -/
theorem inv_of_config {s : State} (hm : s.mode = .config) (hvalid : s.params.Valid)
    (hwf : s.mem.wf s.params.maxTaps s.params.maxFrame)
    (htaps : ∀ b, s.cfg.tapCount b = 0 ∨
      s.cfg.tapCount b % 2 = 1 ∧ s.cfg.tapCount b ≤ s.params.maxTaps)
    (hreset : s.RuntimeReset) : s.Inv :=
  ⟨hvalid, hwf, htaps, fun _ => hreset, deframerInv_of_reset hreset.df fun hr =>
    absurd (hm.symm.trans hr) Mode.noConfusion⟩

/-- In RUN the reset values are not asked for (rule R48(e)). -/
theorem inv_of_run {s : State} (hm : s.mode = .run) (hvalid : s.params.Valid)
    (hwf : s.mem.wf s.params.maxTaps s.params.maxFrame)
    (htaps : ∀ b, s.cfg.tapCount b = 0 ∨
      s.cfg.tapCount b % 2 = 1 ∧ s.cfg.tapCount b ≤ s.params.maxTaps)
    (hdf : s.DeframerInv) : s.Inv :=
  ⟨hvalid, hwf, htaps, fun hc => absurd (hm.symm.trans hc) Mode.noConfusion, hdf⟩

/-- The state after power-on meets the invariant, whatever the parameters in the ranges of rule R7. -/
theorem State.resetOf_inv {p : Params} (h : p.Valid) : (State.resetOf p).Inv :=
  inv_of_config rfl h (Memory.wf_reset _ _)
    (fun b => .inl (congrArg BitVec.toNat (Cfg.reset_get (.coefLen b))))
    (State.resetOf_runtimeReset p)

/-- Settles O11: the parameters of `State.reset` are in the ranges of rule R7. -/
theorem resetStateMeetsInvariant : Obligations.ResetStateMeetsInvariant :=
  State.resetOf_inv (by decide)

/-- A register write keeps the bounds on the tap counts: `COEF_LEN` takes a normalised count (rules R29,
R48(b)). -/
theorem tapCount_set_bounds {c : Cfg} {maxTaps : Nat} (h1 : 1 ≤ maxTaps) (h65535 : maxTaps ≤ 65535)
    (hc : ∀ b, c.tapCount b = 0 ∨ c.tapCount b % 2 = 1 ∧ c.tapCount b ≤ maxTaps)
    {reg : CfgReg} {v : U32}
    (hv : ∀ b, reg = .coefLen b → ∃ n, v = BitVec.ofNat 32 (normTaps maxTaps n).1) (b : Ix) :
    (c.set reg v).tapCount b = 0 ∨
      (c.set reg v).tapCount b % 2 = 1 ∧ (c.set reg v).tapCount b ≤ maxTaps := by
  have hget : (c.set reg v).tapCount b = (if .coefLen b = reg then v else c.get (.coefLen b)).toNat :=
    congrArg BitVec.toNat (c.get_set reg (.coefLen b) v)
  rw [hget]
  split
  · next hreg =>
    obtain ⟨n, rfl⟩ := hv b hreg.symm
    obtain ⟨hodd, hle⟩ := normTaps_odd_le h1 n
    rw [toNat_ofNat_count (hle.trans h65535) (by decide)]
    exact .inr ⟨hodd, hle⟩
  · exact hc b

/-- START accepts only frame limits in the range of rule R241's last line. -/
theorem frameLimits_of_startError_none {N : Machine.Num} {maxFrame : Nat} {c : Cfg}
    (h : startError N maxFrame c = none) :
    1 ≤ c.frameMin.toNat ∧ c.frameMin.toNat ≤ c.frameMax.toNat ∧ c.frameMax.toNat ≤ maxFrame := by
  by_contra hbad
  unfold startError at h
  rw [if_pos hbad] at h
  split_ifs at h

/-! The deframer's part of the invariant -/

/-- A completed octet keeps the deframer's part of the invariant: an append has room for it and finds
`OVERFLOW` clear, a drop finds the frame at its maximum (rules R48, R216, R217). -/
theorem octetDone_deframerInv {s : State} (d : Bool) (h : s.DeframerInv) (hm : s.mode = .run)
    (hf : s.df.dfState = .filling) : (octetDone d s).1.DeframerInv := by
  obtain ⟨hlen, hrun, hslot, _, hover⟩ := h
  obtain ⟨hmax, h1, hminmax, hcap⟩ := hrun hm
  have hnot : s.df.dfState ≠ .hunting := by rw [hf]; exact DfState.noConfusion
  rcases octetDone_cases d s with ⟨hroom, hmin, e⟩ | ⟨hroom, hmin, e⟩ | ⟨hfull, e⟩ <;> rw [e]
  · have hnoover : s.df.overflow ≠ true := fun ho => absurd (hover ho).1 hroom.ne
    exact ⟨hroom.trans_le hcap, fun _ => ⟨hroom, h1, hminmax, hcap⟩, fun _ => ⟨hmin, hroom⟩,
      fun hh => absurd hh hnot, fun ho => absurd ho hnoover⟩
  · have hnoover : s.df.overflow ≠ true := fun ho => absurd (hover ho).1 hroom.ne
    exact ⟨hroom.trans_le hcap, fun _ => ⟨hroom, h1, hminmax, hcap⟩, hslot,
      fun hh => absurd hh hnot, fun ho => absurd ho hnoover⟩
  · exact ⟨hlen, fun _ => ⟨hmax, h1, hminmax, hcap⟩, fun hv => absurd hv Bool.noConfusion,
      fun hh => absurd hh hnot, fun _ => ⟨hmax.antisymm hfull, rfl⟩⟩

theorem accumulate_deframerInv {s : State} (d : Bool) (h : s.DeframerInv) (hm : s.mode = .run)
    (hf : s.df.dfState = .filling) : (accumulate d s).1.DeframerInv := by
  have hnot : s.df.dfState ≠ .hunting := by rw [hf]; exact DfState.noConfusion
  obtain ⟨hlen, hrun, hslot, _, hover⟩ := h
  rcases accumulate_cases d s with ⟨_, e⟩ | ⟨_, e⟩ <;> rw [e]
  · exact ⟨hlen, hrun, hslot, fun hh => absurd hh hnot, hover⟩
  · exact octetDone_deframerInv d ⟨hlen, hrun, hslot, fun hh => absurd hh hnot, hover⟩ hm hf

/-- A deframer step in RUN keeps the deframer's part of the invariant (rules R48, R210). -/
theorem dfStep_deframerInv {s : State} (bit : Bool) (h : s.DeframerInv) (hm : s.mode = .run) :
    (dfStep bit s).1.DeframerInv := by
  rcases dfStep_cases bit s with ⟨_, e⟩ | ⟨_, _, e⟩ | ⟨_, hf, e⟩ <;> rw [e]
  · obtain ⟨_, hrun, hslot, _, _⟩ := h
    exact ⟨Nat.zero_le _, fun _ => ⟨Nat.zero_le _, (hrun hm).2⟩, hslot,
      fun hh => absurd hh DfState.noConfusion, fun ho => absurd ho Bool.noConfusion⟩
  · exact h
  · exact accumulate_deframerInv _ (s := s.detect bit) h hm hf

theorem UpToDeframer.deframerInv {s u : State} (hu : UpToDeframer s u) (h : s.DeframerInv) :
    u.DeframerInv := by
  unfold State.DeframerInv
  rw [hu.df, hu.params, hu.mode, hu.cfg]
  exact h

/-- A data-path command keeps the invariant: the stages before the deframer keep the form of the
histories, the deframer step the rest. -/
theorem DataStep.inv {s : State} {i : Instr} {p : State × DataEvent} (hp : DataStep s i p)
    (h : s.Inv) (hm : s.mode = .run) : p.1.Inv := by
  obtain ⟨hvalid, hwf, htaps, _, hdf⟩ := h
  have ⟨_, hrun, _⟩ := hdf
  obtain ⟨_, _, _, hcap⟩ := hrun hm
  have hcount : ∀ b, s.cfg.tapCount b ≤ s.params.maxTaps := fun b => by
    rcases htaps b with h0 | ⟨_, hle⟩ <;> omega
  obtain ⟨hparams, hmode, hcfg, _, _⟩ := hp.frame
  obtain ⟨u, hu, hend⟩ := hp.endsInDeframer
  have hwfu := hu.wf _ _ hwf hcount
  have hdfu := hu.deframerInv hdf
  have hmu := hu.mode.trans hm
  refine inv_of_run (hmode.trans hm) (hparams ▸ hvalid) ?_ (by rwa [hcfg, hparams]) ?_ <;>
    rcases hend with ⟨e, _⟩ | ⟨bit, e, _⟩
  · rwa [hparams, e]
  · rw [hparams, e]
    exact dfStep_wf bit hwfu (by rwa [hu.cfg])
  · rwa [e]
  · rw [e]
    exact dfStep_deframerInv bit hdfu hmu

/-! Every command and every step -/

/-- Every command keeps the invariant (rule R48). -/
theorem Effect.inv {i : Instr} {s t : State} (ht : Effect s i t) (h : s.Inv) : t.Inv := by
  have ⟨hvalid, hwf, htaps, hreset, hdf⟩ := h
  have ⟨h1, h65535, _⟩ := hvalid
  cases ht with
  | answers => exact h
  | resets => exact State.resetOf_inv hvalid
  | starts hm hok =>
    exact inv_of_run rfl hvalid hwf htaps
      (deframerInv_of_reset (hreset hm).df fun _ => frameLimits_of_startError_none hok)
  | writesRegister sel data reg v r hm hlen =>
    exact inv_of_config hm hvalid hwf
      (tapCount_set_bounds h1 h65535 htaps fun b hb => ⟨data, hlen b hb⟩) (hreset hm)
  | writesCoef _ _ _ b k v _ hm =>
    exact inv_of_config hm hvalid (hwf.setCoef b k v) htaps (hreset hm)
  | fillsBank _ b taps l _ hm =>
    exact inv_of_config hm hvalid (State.writeBank_wf hwf b _ l)
      (tapCount_set_bounds h1 h65535 htaps (reg := .coefLen b) fun _ _ => ⟨taps, rfl⟩) (hreset hm)
  | receives hm hp => exact hp.inv h hm
  | setsDetect _ _ hm => exact inv_of_run hm hvalid hwf htaps hdf
  | clearsSlot _ hv =>
    have hm : s.mode = .run := by
      cases hmode : s.mode with
      | run => rfl
      | config =>
        rw [(hreset hmode).df] at hv
        exact absurd hv Bool.noConfusion
    obtain ⟨hlen, hrun, _, hhunt, hover⟩ := hdf
    exact inv_of_run hm hvalid hwf htaps ⟨hlen, hrun, fun hv => absurd hv Bool.noConfusion, hhunt,
      fun ho => ⟨(hover ho).1, rfl⟩⟩

/-- A command that stays in RUN leaves the configuration and the coefficients as they are (rule
R48(f)). -/
theorem Effect.configuration_of_stays {i : Instr} {s t : State} (h : Effect s i t)
    (hs : s.mode = .run) (ht : t.mode = .run) : t.cfg = s.cfg ∧ t.mem.coef = s.mem.coef := by
  by_cases hi : i = .reset
  · subst hi
    cases h with
    | answers => exact ⟨rfl, rfl⟩
    | resets => exact absurd ht Mode.noConfusion
    | receives _ hp => cases hp
  · obtain ⟨_, hcfg, hcoef, _⟩ := h.configuration_of_run hs hi
    exact ⟨hcfg, hcoef⟩

/-- A step is idle, refuses the word it takes with a response, or has the effect of the command the word
decodes to (rules R13, R22, R105). -/
theorem step_cases {s t : State} (h : step s = .next t) :
    t = s ∨ (∃ rest r, t = { s with cmds := rest, resp := some r }) ∨
      ∃ rest i, Effect { s with cmds := rest } i t := by
  cases hq : s.cmds with
  | nil =>
    rw [step_idle hq] at h
    cases h
    exact .inl rfl
  | cons w rest =>
    cases hw : decode w with
    | ok i =>
      rw [step_decoded hq hw] at h
      exact .inr (.inr ⟨rest, i, exec_effect h⟩)
    | illegalOp =>
      rw [step_illegalOp hq hw] at h
      exact .inr (.inl ⟨rest, _, State.raise_next h⟩)
    | reservedField =>
      rw [step_reservedField hq hw] at h
      exact .inr (.inl ⟨rest, _, State.raise_next h⟩)

/-- Settles O12: a step without a command changes nothing the invariant speaks of, and every command keeps
the invariant and, within RUN, the configuration. -/
theorem stepKeepsInvariant : Obligations.StepKeepsInvariant := by
  intro s t hinv h
  rcases step_cases h with rfl | ⟨rest, r, rfl⟩ | ⟨rest, i, heff⟩
  · exact ⟨hinv, fun _ _ => ⟨rfl, rfl⟩⟩
  · exact ⟨hinv, fun _ _ => ⟨rfl, rfl⟩⟩
  · have hrest : State.Inv { s with cmds := rest } := hinv
    exact ⟨heff.inv hrest, heff.configuration_of_stays⟩

end Sys2Proof.Machine
end

section
/-!
The history primitive over many pushes: what each place of a history holds after them, and the convolution
as a sum over the places (rules R12, R84).
-/

namespace Sys2Proof.Machine

/-! The places of a history -/

/-- The history after the values `xs` are pushed, the first one first (rule R12). -/
def pushAll (h : List Val) (n : Nat) (xs : List Val) : List Val :=
  xs.foldl (fun h x => push h n x) h

@[simp] theorem pushAll_nil (h : List Val) (n : Nat) : pushAll h n [] = h := rfl

theorem pushAll_concat (h : List Val) (n : Nat) (xs : List Val) (x : Val) :
    pushAll h n (xs ++ [x]) = push (pushAll h n xs) n x := by
  simp [pushAll]

theorem pushAll_length {h : List Val} {n : Nat} (hl : n ≤ h.length) (xs : List Val) :
    (pushAll h n xs).length = h.length := by
  induction xs using List.reverseRecOn with
  | nil => rfl
  | append_singleton xs x ih => rw [pushAll_concat, push_length x (ih ▸ hl), ih]

/-- The place `j` of a history that began with zeros holds the value pushed `n − 1 − j` pushes ago, and
0 where there have been no more than that many. -/
theorem pushAll_replicate_getElem? {size n : Nat} (hn : n ≤ size) (xs : List Val) {j : Nat}
    (hj : j < n) :
    (pushAll (List.replicate size (.lit 0)) n xs)[j]? =
      some (xs.reverse.getD (n - 1 - j) (.lit 0)) := by
  induction xs using List.reverseRecOn generalizing j with
  | nil => simp [hj.trans_le hn]
  | append_singleton xs x ih =>
    have hlen : n ≤ (pushAll (List.replicate size (.lit 0)) n xs).length := by
      rwa [pushAll_length (by simpa using hn), List.length_replicate]
    rw [pushAll_concat, push_getElem? x (by omega) hlen, List.reverse_concat]
    by_cases hlast : j + 1 = n
    · have hage : n - 1 - j = 0 := by omega
      rw [if_neg (by omega), if_pos hlast, hage, List.getD_cons_zero]
    · have hage : n - 1 - j = (n - 1 - (j + 1)) + 1 := by omega
      have hlt : j + 1 < n := by omega
      rw [if_pos hlt, ih hlt, hage, List.getD_cons_succ]

/-! The convolution -/

/-- The convolution over the real numbers, place by place (rule R12). -/
theorem conv_toReal_eq_sum {c h : List Val} {n : Nat} (hc : n ≤ c.length) (hh : n ≤ h.length) :
    Val.toReal (conv c h n) =
      ∑ j ∈ Finset.range n,
        Val.toReal (c.getD j (.lit 0)) * Val.toReal (h.getD j (.lit 0)) := by
  have hplaces : (((c.zip h).take n).map fun p => Val.toReal p.1 * Val.toReal p.2) =
      List.ofFn fun j : Fin n =>
        Val.toReal (c.getD j (.lit 0)) * Val.toReal (h.getD j (.lit 0)) := by
    refine List.ext_getElem (by simp [hc, hh]) fun j hj _ => ?_
    have hjn : j < n := by simp at hj; omega
    simp [List.getElem?_eq_getElem (hjn.trans_le hc), List.getElem?_eq_getElem (hjn.trans_le hh)]
  rw [conv_toReal, hplaces, List.sum_ofFn, Finset.sum_range]

/-- Settles O40: each term of the convolution reads its place of the pushed history. -/
theorem convolutionPairsPushes : Obligations.ConvolutionPairsPushes := by
  intro size n c xs _ hn hc
  change Val.toReal (conv c (pushAll (List.replicate size (.lit 0)) n xs) n) = _
  have hlen : (pushAll (List.replicate size (.lit 0)) n xs).length = size := by
    rw [pushAll_length (by simpa using hn), List.length_replicate]
  rw [conv_toReal_eq_sum (hc ▸ hn) (hlen.symm ▸ hn)]
  refine Finset.sum_congr rfl fun j hj => ?_
  rw [List.getD_eq_getElem?_getD (l := pushAll _ _ _),
    pushAll_replicate_getElem? hn xs (Finset.mem_range.mp hj), Option.getD_some]

end Sys2Proof.Machine
end

section
/-!
Octets on the line: what the shift registers hold after a run of decoded bits, and what a run of BITINs does
in state Filling up to the bit that completes an octet (rules R72, R211 to R217, R222).
-/

namespace Sys2Proof.Machine

/-! The shift registers -/

/-- A shift drops the oldest bit and takes in the new one (rules R212, R215). -/
theorem octetBits_shiftIn (r : Octet) (d : Bool) :
    octetBits (shiftIn r d) = (octetBits r).drop 1 ++ [d] := by
  have hkeep : ∀ k < 7, (shiftIn r d).getLsbD k = r.getLsbD (k + 1) := by
    intro k hk
    have hzero : (if d then 0x80#8 else 0#8).getLsbD k = false := by
      cases d <;> revert k <;> decide
    rw [shiftIn, BitVec.getLsbD_or, hzero, Bool.or_false, BitVec.getLsbD_ushiftRight, Nat.add_comm]
  have hnew : (shiftIn r d).getLsbD 7 = d := by
    rw [shiftIn, BitVec.getLsbD_or, BitVec.getLsbD_ushiftRight, BitVec.getLsbD_of_ge r _ (by decide)]
    cases d <;> decide
  calc octetBits (shiftIn r d)
    _ = (List.range 7).map (shiftIn r d).getLsbD ++ [(shiftIn r d).getLsbD 7] := rfl
    _ = ((List.range 7).map fun k => r.getLsbD (k + 1)) ++ [d] := by
      rw [hnew, List.map_congr_left fun k hk => hkeep k (List.mem_range.mp hk)]
    _ = (octetBits r).drop 1 ++ [d] := rfl

theorem octetBits_length (o : Octet) : (octetBits o).length = 8 := by simp [octetBits]

/-- An octet is its bits. -/
theorem octetBits_injective {o p : Octet} (h : octetBits o = octetBits p) : o = p :=
  BitVec.eq_of_getLsbD_eq fun k hk => List.map_inj_left.mp h k (List.mem_range.mpr hk)

theorem octetBits_flagPattern : octetBits flagPattern = flagBits := by decide

/-- A shift register after a run of bits holds the newest eight of the bits it held and the run. -/
theorem octetBits_foldl_shiftIn (l : List Bool) (r : Octet) :
    octetBits (l.foldl shiftIn r) = (octetBits r ++ l).drop l.length := by
  induction l generalizing r with
  | nil => simp
  | cons d l ih =>
    rw [List.foldl_cons, ih, octetBits_shiftIn, List.append_assoc, List.singleton_append,
      ← List.drop_append_of_le_length (by simp [octetBits_length]), List.drop_drop, List.length_cons,
      Nat.add_comm]

/-- The eight bits of an octet, shifted in with the lowest first, leave that octet in the register (rule R72). -/
theorem foldl_shiftIn_octetBits (r o : Octet) : (octetBits o).foldl shiftIn r = o := by
  apply octetBits_injective
  rw [octetBits_foldl_shiftIn, octetBits_length, ← octetBits_length r, List.drop_left]

/-- The bits shifted in one by one show the detector no flag where none stands in them (rules R212,
R213). -/
theorem NoFlag.uncons {r : Octet} {d : Bool} {l : List Bool} {n : Nat}
    (h : NoFlag (octetBits r ++ d :: l) 1 (n + 2)) :
    shiftIn r d ≠ flagPattern ∧ NoFlag (octetBits (shiftIn r d) ++ l) 1 (n + 1) := by
  have hdrop : octetBits (shiftIn r d) ++ l = (octetBits r ++ d :: l).drop 1 := by
    rw [octetBits_shiftIn, List.append_assoc, List.singleton_append,
      List.drop_append_of_le_length (by simp [octetBits_length])]
  constructor
  · intro hflag
    refine h 1 le_rfl (by omega) ?_
    rw [← hdrop, List.take_left' (octetBits_length _), hflag, octetBits_flagPattern]
  · intro k hk hkn
    rw [hdrop, List.drop_drop]
    exact h (1 + k) (by omega) (by omega)

/-! One BITIN -/

/-- The level an NRZI encoder sends for a bit, from the level before it (rule R222). -/
def lineLevel (level b : Bool) : Bool := if b then level else !level

theorem nrziSend_cons (level b : Bool) (l : List Bool) :
    nrziSend level (b :: l) = lineLevel level b :: nrziSend (lineLevel level b) l := rfl

/-- The NRZI decoder undoes the encoder (rules R211, R222). -/
@[simp] theorem nrzi_lineLevel (level b : Bool) : nrzi (lineLevel level b) level = b := by
  cases level <;> cases b <;> rfl

/-- A completed octet leaves the line's registers, the accumulator and the state of the deframer. -/
theorem octetDone_registers (d : Bool) (s : State) :
    (octetDone d s).1.df.prevRaw = s.df.prevRaw ∧ (octetDone d s).1.df.shiftReg = s.df.shiftReg ∧
      (octetDone d s).1.df.octetAcc = s.df.octetAcc ∧
      (octetDone d s).1.df.bitsInOctet = s.df.bitsInOctet ∧
      (octetDone d s).1.df.dfState = s.df.dfState := by
  rcases octetDone_cases d s with ⟨_, _, e⟩ | ⟨_, _, e⟩ | ⟨_, e⟩ <;> rw [e] <;>
    exact ⟨rfl, rfl, rfl, rfl, rfl⟩

/-- A completed octet is appended to the frame where it has room (rule R216). -/
theorem octetDone_of_room {s : State} (d : Bool) (h : s.df.frameLen < s.cfg.frameMax.toNat) :
    (octetDone d s).1.df.frameLen = s.df.frameLen + 1 ∧
      (octetDone d s).1.mem.frameBuf = s.mem.frameBuf.set s.df.frameLen s.df.octetAcc := by
  rcases octetDone_cases d s with ⟨_, _, e⟩ | ⟨_, _, e⟩ | ⟨hfull, _⟩
  · rw [e]; exact ⟨rfl, rfl⟩
  · rw [e]; exact ⟨rfl, rfl⟩
  · omega

/-- A completed octet is dropped, and the slot invalidated, where the frame is full (rule R217). -/
theorem octetDone_of_full {s : State} (d : Bool) (h : s.cfg.frameMax.toNat ≤ s.df.frameLen) :
    (octetDone d s).1 = s.dropOctet := by
  rcases octetDone_cases d s with ⟨hroom, _⟩ | ⟨hroom, _⟩ | ⟨_, e⟩
  · omega
  · omega
  · rw [e]

/-- The deframer step notes the level of the line (rule R211). -/
theorem dfStep_prevRaw (bit : Bool) (s : State) : (dfStep bit s).1.df.prevRaw = bit := by
  rcases dfStep_cases bit s with ⟨_, e⟩ | ⟨_, _, e⟩ | ⟨_, _, e⟩ <;> rw [e]
  · rfl
  · rfl
  · rcases accumulate_cases (nrzi bit s.df.prevRaw) (s.detect bit) with ⟨_, e⟩ | ⟨_, e⟩ <;> rw [e]
    · rfl
    · exact (octetDone_registers _ _).1

/-- The decoded bits `bits` taken in by the detector and the accumulator, and counted modulo 8, with the line
at `level` and the response `r` (rules R212, R215). -/
def State.takeBits (s : State) (bits : List Bool) (level : Bool) (r : Option Response) : State :=
  { s with
    df := { s.df with
      prevRaw := level, shiftReg := bits.foldl shiftIn s.df.shiftReg
      octetAcc := bits.foldl shiftIn s.df.octetAcc
      bitsInOctet := s.df.bitsInOctet + BitVec.ofNat 3 bits.length }
    resp := r }

theorem State.takeBits_nil (s : State) : s.takeBits [] s.df.prevRaw s.resp = s := by
  simp [State.takeBits]

theorem State.takeBits_takeBits (s : State) (l l' : List Bool) (v v' : Bool) (r r' : Option Response) :
    (s.takeBits l v r).takeBits l' v' r' = s.takeBits (l ++ l') v' r' := by
  simp [State.takeBits, BitVec.ofNat_add, BitVec.add_assoc]

/-- An octet's bits, taken in from an octet boundary, leave the octet in both shift registers and the count
at the next boundary (rules R72, R215). -/
theorem State.takeBits_octetBits {s : State} (h : s.df.bitsInOctet = 0#3) (o : Octet) (v : Bool)
    (r : Option Response) :
    (s.takeBits (octetBits o) v r).df = { s.df with
      prevRaw := v, shiftReg := o, octetAcc := o, bitsInOctet := 0#3 } := by
  simp only [State.takeBits, foldl_shiftIn_octetBits, octetBits_length, h]
  rfl

/-- A deframer step in state Filling that shows no flag takes its bit in, and completes an octet where
seven bits of it have gone before (rules R215, R216). -/
theorem dfStep_takeBits {s : State} (bit : Bool) (hf : s.df.dfState = .filling)
    (hflag : shiftIn s.df.shiftReg (nrzi bit s.df.prevRaw) ≠ flagPattern) :
    (s.df.bitsInOctet.toNat < 7 ∧
      (dfStep bit s).1 = s.takeBits [nrzi bit s.df.prevRaw] bit s.resp) ∨
    (s.df.bitsInOctet.toNat = 7 ∧
      (dfStep bit s).1 = (octetDone (nrzi bit s.df.prevRaw)
        (s.takeBits [nrzi bit s.df.prevRaw] bit s.resp)).1) := by
  rcases dfStep_cases bit s with ⟨h, _⟩ | ⟨_, h, _⟩ | ⟨_, _, e⟩
  · exact absurd h hflag
  · exact absurd (h.symm.trans hf) DfState.noConfusion
  · rcases accumulate_cases (nrzi bit s.df.prevRaw) (s.detect bit) with ⟨hlt, e'⟩ | ⟨hseven, e'⟩ <;>
      rw [e, e']
    · exact .inl ⟨hlt, rfl⟩
    · have hwrap : s.df.bitsInOctet + 1#3 = 0#3 := by
        rw [show s.df.bitsInOctet = 7#3 from BitVec.eq_of_toNat_eq hseven]
        rfl
      refine .inr ⟨hseven, ?_⟩
      simp only [State.takeBits, List.length_singleton, hwrap]
      rfl

/-- BITIN in RUN is a deframer step with a response (rule R219). -/
theorem exec_bitin_next {s : State} (hm : s.mode = .run) (bit : Bool) :
    ∃ r, exec (.bitin bit) s = .next { (dfStep bit s).1 with resp := r } :=
  ⟨_, State.inMode_of_eq s hm _⟩

/-! A run of BITINs -/

/-- The first bit of an encoded run is one deframer step, which leaves the line at the level from which the
encoder sends the rest (rules R211, R222). -/
theorem runAll_nrziSend_cons {s : State} (hm : s.mode = .run) (b : Bool) (l : List Bool) :
    ∃ t r, t = { (dfStep (lineLevel s.df.prevRaw b) s).1 with resp := r } ∧
      runAll ((nrziSend s.df.prevRaw (b :: l)).map .bitin) s =
        runAll ((nrziSend t.df.prevRaw l).map .bitin) t := by
  obtain ⟨r, hexec⟩ := exec_bitin_next hm (lineLevel s.df.prevRaw b)
  refine ⟨_, r, rfl, ?_⟩
  rw [nrziSend_cons, List.map_cons, runAll, hexec, dfStep_prevRaw]
  rfl

/-- In state Filling, bits that fit into the octet begun, with no flag among the last eight at any of them,
are taken in, and the rest of the run goes on from there. -/
theorem runAll_takeBits (l rest : List Bool) {s : State} {n : Nat} (hm : s.mode = .run)
    (hf : s.df.dfState = .filling) (hbits : s.df.bitsInOctet.toNat + l.length ≤ 7)
    (hflag : NoFlag (s.recentBits ++ (l ++ rest)) 1 (l.length + n + 1)) :
    ∃ t level r, t = s.takeBits l level r ∧ NoFlag (t.recentBits ++ rest) 1 (n + 1) ∧
      runAll ((nrziSend s.df.prevRaw (l ++ rest)).map .bitin) s =
        runAll ((nrziSend t.df.prevRaw rest).map .bitin) t := by
  induction l generalizing s with
  | nil =>
    rw [List.length_nil, Nat.zero_add] at hflag
    exact ⟨s, _, _, s.takeBits_nil.symm, hflag, rfl⟩
  | cons b l ih =>
    have hwidth : (b :: l).length + n + 1 = l.length + n + 2 := by rw [List.length_cons]; omega
    rw [hwidth] at hflag
    rw [List.length_cons] at hbits
    obtain ⟨hb, hrest⟩ := NoFlag.uncons (l := l ++ rest) hflag
    obtain ⟨t, r, ht, hrun⟩ := runAll_nrziSend_cons hm b (l ++ rest)
    rcases dfStep_takeBits (lineLevel s.df.prevRaw b) hf (by rwa [nrzi_lineLevel]) with
      ⟨_, e⟩ | ⟨hseven, _⟩
    · rw [e, nrzi_lineLevel] at ht
      have hcount : t.df.bitsInOctet.toNat = s.df.bitsInOctet.toNat + 1 := by
        rw [ht]
        exact BitVec.toNat_add_of_lt (by simp; omega)
      obtain ⟨u, level, r', hu, hflag', hrun'⟩ :=
        ih (s := t) (ht ▸ hm) (ht ▸ hf) (by omega) (ht ▸ hrest)
      refine ⟨u, level, r', ?_, hflag', hrun.trans hrun'⟩
      rw [hu, ht]
      exact s.takeBits_takeBits [b] l _ _ _ _
    · omega

/-- The bits of an octet go through the deframer from an octet boundary: they are taken in, and the last
one completes the octet (rules R72, R215). -/
theorem runAll_octetBits {s : State} {o : Octet} (hm : s.mode = .run) (hf : s.df.dfState = .filling)
    (hbits : s.df.bitsInOctet = 0#3) (hflag : NoFlag (s.recentBits ++ octetBits o) 1 9) :
    ∃ level r r', runAll ((nrziSend s.df.prevRaw (octetBits o)).map .bitin) s =
      some { (octetDone (o.getLsbD 7) (s.takeBits (octetBits o) level r)).1 with resp := r' } := by
  have hsplit : octetBits o = (octetBits o).take 7 ++ [o.getLsbD 7] := rfl
  have hseven : ((octetBits o).take 7).length = 7 := by simp [octetBits_length]
  rw [hsplit] at hflag ⊢
  obtain ⟨t, v, r, ht, hlast, hrun⟩ := runAll_takeBits (n := 1) _ [o.getLsbD 7] hm hf
    (by rw [hbits, hseven]; decide) (by rwa [hseven])
  obtain ⟨hb, _⟩ := NoFlag.uncons (n := 0) hlast
  obtain ⟨u, r', hu, hrun'⟩ := runAll_nrziSend_cons (s := t) (by rw [ht]; exact hm) (o.getLsbD 7) []
  have hcount : t.df.bitsInOctet.toNat = 7 := by
    simp only [ht, State.takeBits, hseven, hbits]
    rfl
  rcases dfStep_takeBits (s := t) (lineLevel t.df.prevRaw (o.getLsbD 7)) (by rw [ht]; exact hf)
    (by rwa [nrzi_lineLevel]) with ⟨hlt, _⟩ | ⟨_, e⟩
  · omega
  · rw [e, nrzi_lineLevel] at hu
    refine ⟨lineLevel t.df.prevRaw (o.getLsbD 7), t.resp, r', ?_⟩
    rw [hrun, hrun', hu, ← s.takeBits_takeBits _ _ v _ r, ← ht]
    rfl

/-- Settles O55, by what a completed octet does with room in the frame and without. -/
theorem octetAssembly : Obligations.OctetAssembly := by
  intro s o hm hf hbits hflag
  obtain ⟨level, r, r', hrun⟩ := runAll_octetBits hm hf hbits hflag
  have hdf := State.takeBits_octetBits hbits o level r
  obtain ⟨_, hshift, hacc, hcount, hstate⟩ :=
    octetDone_registers (o.getLsbD 7) (s.takeBits (octetBits o) level r)
  have hsame := octetDone_same (o.getLsbD 7) (s.takeBits (octetBits o) level r)
  rw [hdf] at hshift hacc hcount hstate
  refine ⟨_, hrun, hsame.mode.trans hm, hsame.cfg, hacc, hcount, hstate.trans hf, hshift,
    fun hroom => ?_, fun hfull => ?_⟩
  · have happend := octetDone_of_room (s := s.takeBits (octetBits o) level r) (o.getLsbD 7) hroom
    rwa [hdf] at happend
  · have hdrop := octetDone_of_full (s := s.takeBits (octetBits o) level r) (o.getLsbD 7) hfull
    rw [hdrop]
    exact ⟨rfl, rfl, rfl, rfl⟩

end Sys2Proof.Machine
end

section
/-!
The decoder read backwards: what a word is when it decodes to a command, and the two refusals of the decoder
against the tables of rules R101 and R106 (rules R100, R103, R105, R108).
-/

namespace Sys2Proof

open Machine

/-- Settles O1: the decoder reads back what the encoder wrote. -/
theorem decodeEncode : Obligations.DecodeEncode := decode_encode

/-- Settles O3: each worked word is the encoding of its command; the two refused words are looked up. -/
theorem workedEncodings : Obligations.WorkedEncodings :=
  ⟨decode_encode .reset, decode_encode .start, decode_encode (.cfgwr 0x00#8 48000#32),
    decode_encode (.cfgwr 0x04#8 1#32), decode_encode (.cfgrd 0x81#8),
    decode_encode (.coefwr 1#8 2#16 0x3E800000#32), decode_encode (.coefrd 0#8 7#16),
    decode_encode (.fdgen 1#8), decode_encode (.sample 0x3F000000#32),
    decode_encode (.sample 0xBF800000#32), decode_encode (.demodin 0x3F800000#32),
    decode_encode (.bitin true), decode_encode (.setdd true), decode_encode .framerd, rfl, rfl⟩

/-! The unused fields -/

/-- The bits of the fields that the format of the operation code does not use are zero (rule R101). -/
def Opcode.UnusedZero (o : Opcode) (sel : U8) (idx : U16) (data : U32) : Prop :=
  sel &&& o.unusedBits.1 = 0#8 ∧ idx &&& o.unusedBits.2.1 = 0#16 ∧ data &&& o.unusedBits.2.2 = 0#32

@[simp] theorem and_mask8 (a : U8) : a &&& 0xFF#8 = a := BitVec.and_allOnes

@[simp] theorem and_mask16 (a : U16) : a &&& 0xFFFF#16 = a := BitVec.and_allOnes

@[simp] theorem and_mask32 (a : U32) : a &&& 0xFFFFFFFF#32 = a := BitVec.and_allOnes

/-- An operand of format T whose unused bits are zero is a bit (rule R101). -/
theorem bitData_of_highBits_zero {a : U32} (h : a &&& 0xFFFFFFFE#32 = 0#32) :
    bitData (a.getLsbD 0) = a := by
  have hbit : a = a &&& 1#32 :=
    calc a = a &&& (0xFFFFFFFE#32 ||| 1#32) := BitVec.and_allOnes.symm
      _ = a &&& 1#32 := by rw [BitVec.and_or_distrib_left, h, BitVec.zero_or]
  conv_rhs => rw [hbit, BitVec.and_one_eq_setWidth_ofBool_getLsbD]
  cases a.getLsbD 0 <;> rfl

theorem highBits_zero_iff (a : U32) : a &&& 0xFFFFFFFE#32 = 0#32 ↔ a.toNat < 2 := by
  constructor
  · intro h
    rw [← bitData_of_highBits_zero h]
    exact Laws.EncodedFields.bitData_lt _
  · intro h
    have hcases : a = 0#32 ∨ a = 1#32 := by bv_omega
    rcases hcases with rfl | rfl <;> rfl

/-- The fields that rule R101 says a format does not use are those the decoder's mask covers. -/
theorem Opcode.unusedZero_iff (o : Opcode) (sel : U8) (idx : U16) (data : U32) :
    o.UnusedZero sel idx data ↔ ¬UnusedFieldSet o.byte.toNat sel.toNat idx.toNat data.toNat := by
  have hsel : sel = 0#8 ↔ sel.toNat = 0 := BitVec.toNat_inj.symm
  have hidx : idx = 0#16 ↔ idx.toNat = 0 := BitVec.toNat_inj.symm
  have hdata : data = 0#32 ↔ data.toNat = 0 := BitVec.toNat_inj.symm
  cases o <;>
    simp [UnusedZero, unusedBits, UnusedFieldSet, byte, highBits_zero_iff, hsel, hidx, hdata]

/-- The encoder writes back the fields of a word whose unused fields are zero. -/
theorem encode_instr {o : Opcode} {sel : U8} {idx : U16} {data : U32}
    (h : o.UnusedZero sel idx data) :
    encode (o.instr (fields o sel idx data)) = fields o sel idx data := by
  obtain ⟨hsel, hidx, hdata⟩ := h
  cases o with
  | bitin | setdd =>
    rw [Opcode.instr, fields_getLsbD_zero, encode, bitData_of_highBits_zero hdata]
    rw [show sel = 0#8 from BitVec.and_allOnes.symm.trans hsel,
      show idx = 0#16 from BitVec.and_allOnes.symm.trans hidx]
  | _ => simp_all [Opcode.unusedBits, Opcode.instr, encode]

/-! The cases of the decoder -/

/-- The reserved codes of rule R106 are the bytes that rule R103 does not assign. -/
theorem reservedOpcode_iff (b : U8) : ReservedOpcode b.toNat ↔ Opcode.ofByte b = none := by
  unfold ReservedOpcode
  revert b
  decide +kernel

theorem Opcode.byte_not_reserved (o : Opcode) : ¬ReservedOpcode o.byte.toNat := by
  rw [reservedOpcode_iff, Opcode.ofByte_byte]
  exact Option.some_ne_none o

/-- What a word is: one with a reserved operation code, or four fields, whose unused ones are zero or not
(rule R105, steps 1 and 2). -/
theorem decode_cases (w : Word) :
    (ReservedOpcode (opField w).toNat ∧ decode w = .illegalOp) ∨
    ∃ o sel idx data, w = fields o sel idx data ∧
      ((o.UnusedZero sel idx data ∧ decode w = .ok (o.instr w)) ∨
        (¬o.UnusedZero sel idx data ∧ decode w = .reservedField)) := by
  cases hop : Opcode.ofByte (opField w) with
  | none =>
    refine .inl ⟨(reservedOpcode_iff _).mpr hop, ?_⟩
    unfold decode
    rw [hop]
  | some o =>
    have hw := word_eq_fields w o (Opcode.byte_of_ofByte hop).symm
    have hzero : w &&& o.mustBeZero = 0#64 ↔
        o.UnusedZero (selField w) (idxField w) (dataField w) := by
      have hmask := fields_and_mustBeZero o (selField w) (idxField w) (dataField w)
      rwa [← hw] at hmask
    refine .inr ⟨o, _, _, _, hw, ?_⟩
    simp only [decode, hop, ← hzero]
    by_cases h : w &&& o.mustBeZero = 0#64
    · exact .inl ⟨h, if_pos h⟩
    · exact .inr ⟨h, if_neg h⟩

/-- Settles O2: a word that decodes is four fields with the unused ones zero, which the encoder writes. -/
theorem encodeDecode : Obligations.EncodeDecode := by
  intro w i h
  rcases decode_cases w with ⟨_, e⟩ | ⟨o, sel, idx, data, hw, ⟨hzero, e⟩ | ⟨_, e⟩⟩ <;> rw [e] at h
  · cases h
  · cases h
    rw [hw]
    exact encode_instr hzero
  · cases h

/-! The refusals of the decoder -/

/-- A word is refused in step 1 of rule R105 exactly for a reserved operation code (rule R106). -/
theorem decode_illegalOp_iff (w : Word) : decode w = .illegalOp ↔ ReservedOpcode (opField w).toNat := by
  rcases decode_cases w with ⟨hres, e⟩ | ⟨o, sel, idx, data, hw, he⟩
  · exact iff_of_true e hres
  · refine iff_of_false ?_ (by rw [hw, opField_fields]; exact o.byte_not_reserved)
    rcases he with ⟨_, e⟩ | ⟨_, e⟩ <;> rw [e] <;> exact Decoded.noConfusion

/-- The tables of rules R101 and R106 speak of different operation codes. -/
theorem not_unusedFieldSet_of_reserved {op : Nat} (h : ReservedOpcode op) (sel idx data : Nat) :
    ¬UnusedFieldSet op sel idx data := by
  unfold ReservedOpcode at h
  unfold UnusedFieldSet
  omega

/-- A word is refused in step 2 of rule R105 exactly for a bit in an unused field (rule R101). -/
theorem decode_reservedField_iff (w : Word) : decode w = .reservedField ↔
    UnusedFieldSet (opField w).toNat (selField w).toNat (idxField w).toNat (dataField w).toNat := by
  rcases decode_cases w with ⟨hres, e⟩ | ⟨o, sel, idx, data, hw, he⟩
  · exact iff_of_false (by rw [e]; exact Decoded.noConfusion) (not_unusedFieldSet_of_reserved hres _ _ _)
  · have hunused : UnusedFieldSet (opField w).toNat (selField w).toNat (idxField w).toNat
        (dataField w).toNat ↔ ¬o.UnusedZero sel idx data := by
      rw [hw, opField_fields, selField_fields, idxField_fields, dataField_fields,
        o.unusedZero_iff, not_not]
    rw [hunused]
    rcases he with ⟨hzero, e⟩ | ⟨hset, e⟩ <;> rw [e]
    · exact iff_of_false Decoded.noConfusion (not_not.mpr hzero)
    · exact iff_of_true rfl hset

/-- Settles O5, by the decoder's first refusal. -/
theorem reservedOpcodeRefused : Obligations.ReservedOpcodeRefused := by
  simp only [Obligations.ReservedOpcodeRefused, ← opField_toNat]
  exact ⟨decode_illegalOp_iff,
    fun s w rest h hres => step_illegalOp h ((decode_illegalOp_iff w).mpr hres), .inl rfl⟩

/-- Settles O6, by the decoder's second refusal. -/
theorem unusedFieldRefused : Obligations.UnusedFieldRefused := by
  simp only [Obligations.UnusedFieldRefused, ← opField_toNat, ← selField_toNat, ← idxField_toNat,
    ← dataField_toNat]
  refine ⟨decode_reservedField_iff, fun s w rest h hw => step_reservedField h hw, fun w => ?_⟩
  cases decode w <;> simp

end Sys2Proof
end

section
/-!
The responses of the data-path commands and their flags (rules R112, R218).
-/

namespace Sys2Proof.Machine

/-! The events of a data-path step -/

/-- At most one of `FLG`, `FE` and `OVF` (rule R218). -/
def DfEvent.AtMostOne (ev : DfEvent) : Prop :=
  (ev.flg && ev.fe) = false ∧ (ev.flg && ev.ovf) = false ∧ (ev.fe && ev.ovf) = false

theorem octetDone_atMostOne (d : Bool) (s : State) : (octetDone d s).2.AtMostOne := by
  rcases octetDone_cases d s with ⟨_, _, e⟩ | ⟨_, _, e⟩ | ⟨_, e⟩ <;> rw [e] <;>
    exact ⟨rfl, rfl, rfl⟩

theorem accumulate_atMostOne (d : Bool) (s : State) : (accumulate d s).2.AtMostOne := by
  rcases accumulate_cases d s with ⟨_, e⟩ | ⟨_, e⟩ <;> rw [e]
  · exact ⟨rfl, rfl, rfl⟩
  · exact octetDone_atMostOne d _

theorem dfStep_atMostOne (bit : Bool) (s : State) : (dfStep bit s).2.AtMostOne := by
  rcases dfStep_cases bit s with ⟨_, e⟩ | ⟨_, _, e⟩ | ⟨_, _, e⟩ <;> rw [e]
  · exact ⟨rfl, rfl, rfl⟩
  · exact ⟨rfl, rfl, rfl⟩
  · exact accumulate_atMostOne _ _

theorem DataStep.atMostOne {s : State} {i : Instr} {p : State × DataEvent} (h : DataStep s i p) :
    p.2.df.AtMostOne := by
  obtain ⟨u, _, ⟨_, e⟩ | ⟨bit, _, e⟩⟩ := h.endsInDeframer <;> rw [e]
  · exact ⟨rfl, rfl, rfl⟩
  · exact dfStep_atMostOne bit u

/-- A PLL step that hands no bit to the deframer reports none of its events (rules R112, R190). -/
theorem pllStepSign_noBit {sign : Bool} {s : State} (h : (pllStepSign sign s).2.bv = false) :
    (pllStepSign sign s).2.b = false ∧ (pllStepSign sign s).2.df = .none := by
  rcases pllStepSign_cases sign s with ⟨_, e⟩ | ⟨_, e⟩ <;> rw [e] at h ⊢
  · cases h
  · exact ⟨rfl, rfl⟩

theorem DataStep.noBit {s : State} {i : Instr} {p : State × DataEvent} (hp : DataStep s i p)
    (h : p.2.bv = false) : p.2.b = false ∧ p.2.df = .none := by
  cases hp with
  | bitin bit => cases h
  | demodin data d => exact pllStepSign_noBit h
  | sample data x => exact pllStepSign_noBit h

/-- A BITIN reports its own bit and no transition (rule R219). -/
theorem DataStep.bitin_event {s : State} {bit : Bool} {p : State × DataEvent}
    (h : DataStep s (.bitin bit) p) : p.2.bv = true ∧ p.2.b = bit ∧ p.2.tr = false := by
  cases h
  exact ⟨rfl, rfl, rfl⟩

/-! The outcomes of a data-path command -/

/-- The outcome of a data-path command: refused, or its step with the response of rule R112. -/
def AnswersData (s : State) (i : Instr) (o : Result) : Prop :=
  (∃ st, st ≠ .ok ∧ o = s.raise st) ∨
    ∃ p data, DataStep s i p ∧ o = p.1.respondData p.2 data

theorem answersData_inMode {s : State} {i : Instr} {go : Result} (m : Mode)
    (h : AnswersData s i go) : AnswersData s i (s.inMode m go) := by
  rcases s.inMode_cases m go with ⟨_, e⟩ | ⟨_, e⟩ <;> rw [e]
  · exact h
  · exact .inl ⟨_, Status.noConfusion, rfl⟩

theorem answersData_sample (data : U32) (s : State) :
    AnswersData s (.sample data) (exec (.sample data) s) := by
  refine answersData_inMode .run ?_
  split
  · exact .inl ⟨_, Status.noConfusion, rfl⟩
  · next x _ => exact .inr ⟨_, _, .sample data x, rfl⟩

theorem answersData_demodin (data : U32) (s : State) :
    AnswersData s (.demodin data) (exec (.demodin data) s) := by
  refine answersData_inMode .run ?_
  split
  · exact .inl ⟨_, Status.noConfusion, rfl⟩
  · next d _ => exact .inr ⟨_, _, .demodin data d, rfl⟩

theorem answersData_bitin (bit : Bool) (s : State) :
    AnswersData s (.bitin bit) (exec (.bitin bit) s) :=
  answersData_inMode .run (.inr ⟨_, _, .bitin bit, rfl⟩)

/-- A data-path command that is not refused answers with the flags of its step (rules R112, R169). -/
theorem AnswersData.of_ok {s t : State} {i : Instr} {r : Response}
    (ha : AnswersData s i (exec i s)) (h : exec i s = .next t) (hr : t.resp = some r)
    (hok : r.status = .ok) :
    ∃ p, DataStep s i p ∧ t.df = p.1.df ∧ r.fl = dataFlags p.2 p.1.df.slotValid ∧
      r.aux = auxOf p.1.df.frameLen := by
  rcases ha with ⟨st, hne, e⟩ | ⟨p, data, hp, e⟩ <;> rw [e] at h
  · rw [State.raise_next h] at hr
    cases hr
    exact absurd hok hne
  · rw [State.respondWith_next h] at hr ⊢
    cases hr
    exact ⟨p, hp, rfl, rfl, rfl⟩

/-- Settles O53: the flags are the events of the command's step, bit by bit. -/
theorem dataPathFlags : Obligations.DataPathFlags := by
  intro i s t r hi h hr hok
  have ha : AnswersData s i (exec i s) := by
    rcases hi with ⟨x, rfl | rfl⟩ | ⟨b, rfl⟩
    · exact answersData_sample x s
    · exact answersData_demodin x s
    · exact answersData_bitin b s
  obtain ⟨p, hp, hdf, hfl, haux⟩ := ha.of_ok h hr hok
  obtain ⟨hbv, hb, hdb, hflg, hfe, hfa, htr, hovf⟩ := dataFlags_bits p.2 p.1.df.slotValid
  rw [hfl, haux, hdf, hbv, hb, hdb, hflg, hfe, hfa, htr, hovf]
  obtain ⟨hflgfe, hflgovf, hfeovf⟩ := hp.atMostOne
  refine ⟨hflgfe, hflgovf, hfeovf, fun hno => ?_, rfl, rfl, ?_⟩
  · obtain ⟨hb0, hnone⟩ := hp.noBit hno
    rw [hnone]
    exact ⟨hb0, rfl, rfl, rfl, rfl⟩
  · rintro b rfl
    exact hp.bitin_event

end Sys2Proof.Machine
end

section
/-!
The words on the port: the response word and its fields, the response of a refused command, and the octets
of the payload words (rules R73, R102, R111, R260).
-/

namespace Sys2Proof.Machine

/-! The response word -/

/-- The number a response word is (rule R102). -/
theorem Response.word_toNat (r : Response) : r.word.toNat =
    r.status.code.toNat * 2 ^ 56 + r.fl.toNat * 2 ^ 48 + r.aux.toNat * 2 ^ 32 + r.data.toNat := by
  rw [Response.word, append_toNat, append_toNat, append_toNat]
  ring

/-- The fields of the response word (rule R102). -/
theorem Response.word_fields (r : Response) :
    r.word.extractLsb' 56 8 = r.status.code ∧ r.word.extractLsb' 48 8 = r.fl ∧
      r.word.extractLsb' 32 16 = r.aux ∧ r.word.extractLsb' 0 32 = r.data := by
  have hcode := r.status.code.isLt
  have hfl := r.fl.isLt
  have haux := r.aux.isLt
  have hdata := r.data.isLt
  refine ⟨?_, ?_, ?_, ?_⟩ <;> apply BitVec.eq_of_toNat_eq <;>
    rw [BitVec.extractLsb'_toNat, Nat.shiftRight_eq_div_pow, Response.word_toNat] <;> omega

/-- The word of an error response is its status code alone (rules R102, R260). -/
theorem Response.error_word_toNat (st : Status) :
    (Response.error st).word.toNat = st.code.toNat * 2 ^ 56 := by
  simp [Response.word_toNat, Response.error]

/-- Each status has the code that rule R260 gives it. -/
theorem code_mem_statusTable (st : Status) : (st, st.code) ∈ statusTable := by
  cases st <;> decide

/-! The response of a refused command -/

/-- The outcome of a command on `s` is an error on `s` itself or a response with status `OK` (rules R11,
R261). -/
def RaisesOrResponds (s : State) (o : Result) : Prop :=
  (∃ st, o = s.raise st) ∨
    ∃ (t : State) (fl : U8) (aux : U16) (data : U32) (l : List Octet), o = t.respondWith fl aux data l

theorem raisesOrResponds_raise (s : State) (st : Status) : RaisesOrResponds s (s.raise st) :=
  .inl ⟨st, rfl⟩

theorem raisesOrResponds_respondWith (s t : State) (fl : U8) (aux : U16) (data : U32)
    (l : List Octet) : RaisesOrResponds s (t.respondWith fl aux data l) :=
  .inr ⟨t, fl, aux, data, l, rfl⟩

theorem raisesOrResponds_respond (s t : State) (fl : U8) (aux : U16) (data : U32) :
    RaisesOrResponds s (t.respond fl aux data) :=
  raisesOrResponds_respondWith s t fl aux data []

theorem raisesOrResponds_check {s : State} {go : Result} (b : Bool) (st : Status)
    (h : RaisesOrResponds s go) : RaisesOrResponds s (s.check b st go) := by
  rcases s.check_cases b st go with ⟨_, e⟩ | ⟨_, e⟩ <;> rw [e]
  · exact h
  · exact raisesOrResponds_raise s st

theorem raisesOrResponds_inMode {s : State} {go : Result} (m : Mode) (h : RaisesOrResponds s go) :
    RaisesOrResponds s (s.inMode m go) := raisesOrResponds_check _ _ h

theorem AnswersData.raisesOrResponds {s : State} {i : Instr} {o : Result}
    (h : AnswersData s i o) : RaisesOrResponds s o := by
  rcases h with ⟨st, _, rfl⟩ | ⟨p, data, _, rfl⟩
  · exact raisesOrResponds_raise s st
  · exact raisesOrResponds_respond s p.1 _ _ _

theorem raisesOrResponds_execStart (s : State) : RaisesOrResponds s (execStart s) := by
  refine raisesOrResponds_inMode .config ?_
  split
  · exact raisesOrResponds_raise s _
  · exact raisesOrResponds_respond s _ _ _ _

theorem raisesOrResponds_execCfgwr (sel : U8) (data : U32) (s : State) :
    RaisesOrResponds s (execCfgwr sel data s) := by
  refine raisesOrResponds_inMode .config ?_
  split
  · exact raisesOrResponds_raise s _
  · exact raisesOrResponds_respond s _ _ _ _
  · exact raisesOrResponds_respond s _ _ _ _

theorem raisesOrResponds_execCfgrd (sel : U8) (s : State) :
    RaisesOrResponds s (execCfgrd sel s) := by
  unfold execCfgrd
  split
  · exact raisesOrResponds_raise s _
  · exact raisesOrResponds_respond s _ _ _ _

theorem raisesOrResponds_execCoefwr (sel : U8) (idx : U16) (data : U32) (s : State) :
    RaisesOrResponds s (execCoefwr sel idx data s) := by
  refine raisesOrResponds_inMode .config ?_
  split
  · exact raisesOrResponds_raise s _
  · refine raisesOrResponds_check _ _ ?_
    split
    · exact raisesOrResponds_raise s _
    · exact raisesOrResponds_respond s _ _ _ _

theorem raisesOrResponds_execCoefrd (sel : U8) (idx : U16) (s : State) :
    RaisesOrResponds s (execCoefrd sel idx s) := by
  unfold execCoefrd
  split
  · exact raisesOrResponds_raise s _
  · exact raisesOrResponds_check _ _ (raisesOrResponds_respond s _ _ _ _)

theorem raisesOrResponds_execFdgen (sel : U8) (s : State) :
    RaisesOrResponds s (execFdgen sel s) := by
  refine raisesOrResponds_inMode .config ?_
  split
  · exact raisesOrResponds_raise s _
  · exact raisesOrResponds_check _ _ (raisesOrResponds_respond s _ _ _ _)

theorem raisesOrResponds_execSetdd (bit : Bool) (s : State) :
    RaisesOrResponds s (execSetdd bit s) :=
  raisesOrResponds_inMode .run (raisesOrResponds_respond s _ _ _ _)

theorem raisesOrResponds_execFramerd (s : State) : RaisesOrResponds s (execFramerd s) := by
  unfold execFramerd
  split
  · exact raisesOrResponds_respondWith s _ _ _ _ _
  · exact raisesOrResponds_respond s _ _ _ _

/-- Every command ends with an error that changes nothing else or with status `OK` (rules R11, R261). -/
theorem raisesOrResponds_exec (i : Instr) (s : State) : RaisesOrResponds s (exec i s) := by
  cases i with
  | reset => exact raisesOrResponds_respond s _ _ _ _
  | start => exact raisesOrResponds_execStart s
  | cfgwr sel data => exact raisesOrResponds_execCfgwr sel data s
  | cfgrd sel => exact raisesOrResponds_execCfgrd sel s
  | coefwr sel idx data => exact raisesOrResponds_execCoefwr sel idx data s
  | coefrd sel idx => exact raisesOrResponds_execCoefrd sel idx s
  | fdgen sel => exact raisesOrResponds_execFdgen sel s
  | sample data => exact (answersData_sample data s).raisesOrResponds
  | demodin data => exact (answersData_demodin data s).raisesOrResponds
  | bitin bit => exact (answersData_bitin bit s).raisesOrResponds
  | setdd bit => exact raisesOrResponds_execSetdd bit s
  | framerd => exact raisesOrResponds_execFramerd s

/-- So does every step that takes a word, whatever the word decodes to. -/
theorem raisesOrResponds_step {s : State} {w : Word} {rest : List Word} (h : s.cmds = w :: rest) :
    RaisesOrResponds { s with cmds := rest } (step s) := by
  cases hw : decode w with
  | ok i => rw [step_decoded h hw]; exact raisesOrResponds_exec i _
  | illegalOp => rw [step_illegalOp h hw]; exact raisesOrResponds_raise _ _
  | reservedField => rw [step_reservedField h hw]; exact raisesOrResponds_raise _ _

/-- A status other than `OK` stands only in the outcome of `raise`. -/
theorem RaisesOrResponds.raise_of_refused {s t : State} {o : Result} {r : Response}
    (h : RaisesOrResponds s o) (ht : o = .next t) (hr : t.resp = some r) (hne : r.status ≠ .ok) :
    o = s.raise r.status ∧ r = .error r.status := by
  rcases h with ⟨st, rfl⟩ | ⟨u, fl, aux, data, l, rfl⟩
  · rw [State.raise_next ht] at hr
    cases hr
    exact ⟨rfl, rfl⟩
  · rw [State.respondWith_next ht] at hr
    cases hr
    exact absurd rfl hne

/-! The payload -/

/-- The number a payload word is: its octets are its digits to the base 256 (rule R73). -/
theorem payloadWord_toNat (l : List Octet) : (payloadWord l).toNat =
    (l.getD 7 0#8).toNat * 256 ^ 7 + (l.getD 6 0#8).toNat * 256 ^ 6 +
      (l.getD 5 0#8).toNat * 256 ^ 5 + (l.getD 4 0#8).toNat * 256 ^ 4 +
      (l.getD 3 0#8).toNat * 256 ^ 3 + (l.getD 2 0#8).toNat * 256 ^ 2 +
      (l.getD 1 0#8).toNat * 256 + (l.getD 0 0#8).toNat := by
  simp only [payloadWord, append_toNat]
  ring

/-- The octets of a payload word, the lowest one first (rule R73). -/
theorem payloadWord_octet (l : List Octet) {j : Nat} (hj : j < 8) :
    (payloadWord l).extractLsb' (8 * j) 8 = l.getD j 0#8 := by
  have hlt : ∀ k, (l.getD k 0#8).toNat < 2 ^ 8 := fun k => (l.getD k 0#8).isLt
  have h0 := hlt 0; have h1 := hlt 1; have h2 := hlt 2; have h3 := hlt 3
  have h4 := hlt 4; have h5 := hlt 5; have h6 := hlt 6; have h7 := hlt 7
  apply BitVec.eq_of_toNat_eq
  rw [BitVec.extractLsb'_toNat, Nat.shiftRight_eq_div_pow, payloadWord_toNat]
  interval_cases j <;> omega

/-- A payload word holds the eight octets from its place on (rules R73, R111). -/
theorem payloadWords_getElem? (l : List Octet) {n : Nat} (h : n < (l.length + 7) / 8) :
    (payloadWords l)[n]? = some (payloadWord (l.drop (8 * n))) := by
  rw [payloadWords, List.getElem?_map, List.getElem?_range h, Option.map_some]

/-- Octet `k` of the payload words is octet `k` of the payload, 0 beyond its end (rule R73). -/
theorem payloadWords_octet (l : List Octet) {k : Nat} (h : k < 8 * ((l.length + 7) / 8)) :
    ((payloadWords l)[k / 8]?).map (fun w => w.extractLsb' (8 * (k % 8)) 8) =
      some (l.getD k 0#8) := by
  rw [payloadWords_getElem? l (Nat.div_lt_of_lt_mul h), Option.map_some,
    payloadWord_octet _ (Nat.mod_lt k (by decide)), List.getD_eq_getElem?_getD, List.getElem?_drop,
    Nat.div_add_mod, ← List.getD_eq_getElem?_getD]

/-- Settles O60: the fields of the response word, the error responses, and the payload octet by octet. -/
theorem responseWordAndPayload : Obligations.ResponseWordAndPayload := by
  refine ⟨Response.word_fields, code_mem_statusTable, by decide, fun s t r h hq hr hne => ?_,
    fun l => ⟨?_, fun k hk => ?_⟩⟩
  · obtain ⟨w, rest, hq⟩ := List.exists_cons_of_ne_nil hq
    obtain ⟨_, herr⟩ := (raisesOrResponds_step hq).raise_of_refused h hr hne
    rw [herr]
    exact ⟨Response.error_word_toNat _, rfl⟩
  · rw [payloadWords, List.length_map, List.length_range]
  · rw [payloadWords_octet l hk]
    split
    · rfl
    · next hend => rw [List.getD_eq_default _ _ (not_lt.mp hend)]

end Sys2Proof.Machine
end

section
/-!
The coefficient banks: the tap count of a design (rule R131), and what COEFWR, COEFRD and FDGEN do, check by
check (rules R74, R133, R134, R139, R140, R143).
-/

namespace Sys2Proof.Machine

/-! The tap count -/

/-- A request that fits, made odd, is taken (rule R131). -/
theorem normTaps_of_fits {maxTaps : Nat} {n : U32} (h : n.toNat / 2 * 2 + 1 ≤ maxTaps) :
    normTaps maxTaps n = (n.toNat / 2 * 2 + 1, false) := by
  rcases normTaps_cases maxTaps n with ⟨_, e⟩ | ⟨hover, _⟩
  · exact e
  · exact absurd h hover.not_ge

/-- A request that does not fit gives way to the largest odd number at most `MAXTAPS` (rule R131). -/
theorem normTaps_of_over {maxTaps : Nat} {n : U32} (h : maxTaps < n.toNat / 2 * 2 + 1) :
    normTaps maxTaps n = (if maxTaps % 2 = 1 then maxTaps else maxTaps - 1, true) := by
  rcases normTaps_cases maxTaps n with ⟨hfits, _⟩ | ⟨_, e⟩
  · exact absurd h hfits.not_gt
  · exact e

/-- Settles O20: the request fits or is clamped, and the count is odd either way. (`normTaps` itself is the
name of the model's function.) -/
theorem normTaps_oddAndClamped : Obligations.NormTaps := by
  refine ⟨fun maxTaps n h1 _ => ?_, by decide⟩
  obtain ⟨hodd, hle⟩ := normTaps_odd_le h1 n
  refine ⟨normTaps_of_fits, fun h hmax => ?_, fun h hmax => ?_, hodd, by omega, hle⟩
  · rw [normTaps_of_over h, if_pos hmax]
  · rw [normTaps_of_over h, if_neg (by omega)]

/-! The bank number -/

theorem bankOf_bankTable : ∀ e ∈ bankTable, bankOf e.1 = some e.2 := by decide

/-- A number above 1 names no bank (rule R105 step 4). -/
theorem bankOf_eq_none {sel : U8} (h : 2 ≤ sel.toNat) : bankOf sel = none := by
  have h0 : sel ≠ 0#8 := by rintro rfl; exact absurd h (by decide)
  have h1 : sel ≠ 1#8 := by rintro rfl; exact absurd h (by decide)
  rw [bankOf, if_neg h0, if_neg h1]

/-! COEFWR and COEFRD: the refusals, in the order of rule R105 -/

section
variable {s : State} {sel : U8} {b : Ix} {idx : U16} {data : U32}

theorem exec_coefwr_noBank (hm : s.mode = .config) (hb : bankOf sel = none) :
    exec (.coefwr sel idx data) s = refusal s .errSel := by
  have hexec : exec (.coefwr sel idx data) s = execCoefwr sel idx data s := rfl
  rw [hexec, execCoefwr, State.inMode_of_eq s hm, hb]
  rfl

theorem exec_coefwr_badIndex (hm : s.mode = .config) (hb : bankOf sel = some b)
    (hi : s.params.maxTaps ≤ idx.toNat) :
    exec (.coefwr sel idx data) s = refusal s .errIndex := by
  have hexec : exec (.coefwr sel idx data) s = execCoefwr sel idx data s := rfl
  rw [hexec, execCoefwr, State.inMode_of_eq s hm, hb]
  exact s.check_false (decide_eq_false hi.not_gt) _ _

theorem exec_coefwr_badOperand (hm : s.mode = .config) (hb : bankOf sel = some b)
    (hi : idx.toNat < s.params.maxTaps) (hd : isValue data = false) :
    exec (.coefwr sel idx data) s = refusal s .errOperand := by
  have hexec : exec (.coefwr sel idx data) s = execCoefwr sel idx data s := rfl
  rw [hexec, execCoefwr, State.inMode_of_eq s hm, hb, dec32_eq_none hd]
  exact s.check_true (decide_eq_true hi) _ _

theorem exec_coefrd_noBank (hb : bankOf sel = none) :
    exec (.coefrd sel idx) s = refusal s .errSel := by
  have hexec : exec (.coefrd sel idx) s = execCoefrd sel idx s := rfl
  rw [hexec, execCoefrd, hb]
  rfl

theorem exec_coefrd_badIndex (hb : bankOf sel = some b) (hi : s.params.maxTaps ≤ idx.toNat) :
    exec (.coefrd sel idx) s = refusal s .errIndex := by
  have hexec : exec (.coefrd sel idx) s = execCoefrd sel idx s := rfl
  rw [hexec, execCoefrd, hb]
  exact s.check_false (decide_eq_false hi.not_gt) _ _

end

/-! One element of a bank -/

/-- Every element of the banks after one is written (rules R11, R74). -/
theorem Memory.setCoef_getElem? {m : Memory} {b : Ix} {i : Nat} (v : Val)
    (h : i < (m.coef.get b).length) (a : Ix) (j : Nat) :
    ((m.setCoef b i v).coef.get a)[j]? =
      if a = b ∧ j = i then some v else (m.coef.get a)[j]? := by
  rw [Memory.setCoef_coef, Two.get_set]
  by_cases ha : a = b
  · subst ha
    by_cases hj : j = i
    · subst hj
      rw [if_pos rfl, if_pos ⟨rfl, rfl⟩, List.getElem?_set_self h]
    · rw [if_pos rfl, if_neg fun hab => hj hab.2, List.getElem?_set_ne (Ne.symm hj)]
  · rw [if_neg ha, if_neg fun hab => ha hab.1]

theorem Memory.coefAt_of_getElem? {m : Memory} {b : Ix} {i : Nat} {v : Val}
    (h : (m.coef.get b)[i]? = some v) : m.coefAt b i = v := by
  rw [Memory.coefAt, List.getD_eq_getElem?_getD, h, Option.getD_some]

/-- Settles O23: the three refusals in their order, and the one element written. -/
theorem coefwrWritesOneElement : Obligations.CoefwrWritesOneElement := by
  refine ⟨fun s sel idx data hm => ⟨fun hsel => ?_, fun hsel hi => ?_, fun hsel hi hd => ?_⟩,
    fun s sel b idx data hm hsel hwf hi hd => ?_⟩
  · exact exec_coefwr_noBank hm (bankOf_eq_none hsel)
  · obtain ⟨b, hb⟩ := bankOf_of_lt hsel
    exact exec_coefwr_badIndex hm hb hi
  · obtain ⟨b, hb⟩ := bankOf_of_lt hsel
    exact exec_coefwr_badOperand hm hb hi hd
  · obtain ⟨hcoef, _⟩ := hwf
    exact ⟨_, exec_coefwr_ok hm (bankOf_bankTable _ hsel) hi hd,
      Memory.setCoef_getElem? _ ((hcoef b).symm ▸ hi)⟩

/-- Settles O24: the two refusals in their order, and the one element read. -/
theorem coefrdReadsOneElement : Obligations.CoefrdReadsOneElement := by
  refine ⟨fun s sel idx => ⟨fun hsel => ?_, fun hsel hi => ?_⟩, fun s sel b idx v hsel hi hv => ?_⟩
  · exact exec_coefrd_noBank (bankOf_eq_none hsel)
  · obtain ⟨b, hb⟩ := bankOf_of_lt hsel
    exact exec_coefrd_badIndex hb hi
  · rw [exec_coefrd_ok (bankOf_bankTable _ hsel) hi, Memory.coefAt_of_getElem? hv]

/-! The specification of a filter -/

/-- Every record orders two literals as the rational numbers they are (rules R9, R10). -/
theorem numOf_lt_lit (n : NumSel) (p q : Rat) :
    (numOf n).lt (.lit p) (.lit q) = true ↔ p < q := decide_eq_true_iff

theorem numOf_le_lit (n : NumSel) (p q : Rat) :
    (numOf n).le (.lit p) (.lit q) = true ↔ p ≤ q := by
  rw [Num.le, Bool.not_eq_true', Bool.eq_false_iff, ne_eq, numOf_lt_lit, not_lt]

theorem cutoffValid_iff (n : NumSel) (b : U32) :
    cutoffValid (numOf n) b = true ↔ CutoffRegister b := by
  unfold cutoffValid CutoffRegister
  cases hb : isValue b with
  | false => simp [dec32_eq_none hb]
  | true =>
    simp [dec32_of_isValue hb, Val.zero, Val.half, Rat.mkRat_eq_div, numOf_lt_lit]

theorem unitValid_iff (n : NumSel) (b : U32) :
    unitValid (numOf n) b = true ↔ UnitRegister b := by
  unfold unitValid UnitRegister
  cases hb : isValue b with
  | false => simp [dec32_eq_none hb]
  | true => simp [dec32_of_isValue hb, Val.zero, Val.one, numOf_le_lit]

theorem positiveValid_iff (n : NumSel) (b : U32) :
    positiveValid (numOf n) b = true ↔ isValue b = true ∧ 0 < decRat b := by
  unfold positiveValid
  cases hb : isValue b with
  | false => simp [dec32_eq_none hb]
  | true => simp [dec32_of_isValue hb, Val.zero, numOf_lt_lit]

theorem windowValid_iff (b : U32) : windowValid b = true ↔ b = 0#32 ∨ b = 1#32 := by
  simp [windowValid]

/-- FDGEN accepts the specifications of rule R134, in every record. -/
theorem specValid_iff (n : NumSel) (f : FilterSpec) :
    specValid (numOf n) f = true ↔ SpecLegal f := by
  unfold specValid SpecLegal
  split_ifs with h0 h1 h2
  · simp [h0, cutoffValid_iff, windowValid_iff]
  · simp [h1, cutoffValid_iff, windowValid_iff, and_assoc]
  · simp [h2, unitValid_iff, positiveValid_iff]
  · simp [h0, h1, h2]

/-! The bank a design fills -/

/-- The bank of `size` elements that holds the `n` taps `h`, and zeros above them (rule R143). -/
def filledBank (size n : Nat) (h : List Val) : List Val :=
  (List.range size).map fun i => if i < n then h.getD i .zero else .zero

theorem State.writeBank_coef_filledBank (s : State) (b : Ix) (n : Nat) (h : List Val) :
    (s.writeBank b n h).mem.coef = s.mem.coef.set b (filledBank s.params.maxTaps n h) := rfl

@[simp] theorem filledBank_length (size n : Nat) (h : List Val) :
    (filledBank size n h).length = size := by simp [filledBank]

theorem filledBank_getElem?_of_lt {size n i : Nat} {h : List Val} (hn : n ≤ size)
    (hlen : h.length = n) (hi : i < n) : (filledBank size n h)[i]? = h[i]? := by
  rw [filledBank, List.getElem?_map, List.getElem?_range (hi.trans_le hn), Option.map_some,
    if_pos hi, List.getD_eq_getElem?_getD, List.getElem?_eq_getElem (hlen.symm ▸ hi),
    Option.getD_some]

theorem filledBank_getElem?_of_ge {size n i : Nat} (h : List Val) (hn : n ≤ i) (hi : i < size) :
    (filledBank size n h)[i]? = some (.lit 0) := by
  rw [filledBank, List.getElem?_map, List.getElem?_range hi, Option.map_some, if_neg hn.not_gt]
  rfl

/-- A normalisation with the degenerate warning answers zeros (rule R138). -/
theorem normalise_degenerate {N : Machine.Num} {eps divisor : Val} {w : List Val}
    (h : (normalise N eps divisor w).2 = true) :
    ∀ v ∈ (normalise N eps divisor w).1, v = .lit 0 := by
  rcases normalise_cases N eps divisor w with ⟨_, e⟩ | ⟨_, e⟩ <;> rw [e] at h ⊢
  · rintro v hv
    obtain ⟨_, _, rfl⟩ := List.mem_map.mp hv
    rfl
  · exact absurd h Bool.false_ne_true

/-- A design with the degenerate warning is `n` zeros (rule R138). -/
theorem designFilter_degenerate {N : Machine.Num} {p : Params} {f : FilterSpec} {n : Nat}
    (h : (designFilter N p f n).2 = true) :
    (designFilter N p f n).1 = List.replicate n (.lit 0) := by
  refine List.eq_replicate_iff.mpr ⟨designFilter_length N p f n, ?_⟩
  revert h
  unfold designFilter
  split_ifs <;> exact normalise_degenerate

/-! FDGEN -/

theorem warningFlags_eq (clamp degen : Bool) :
    warningFlags clamp degen = BitVec.ofNat 8 (bitNat clamp + 2 * bitNat degen) := by
  revert clamp degen
  decide

section
variable {s : State} {sel : U8} {b : Ix}

theorem exec_fdgen_noBank (hm : s.mode = .config) (hb : bankOf sel = none) :
    exec (.fdgen sel) s = refusal s .errSel := by
  have hexec : exec (.fdgen sel) s = execFdgen sel s := rfl
  rw [hexec, execFdgen, State.inMode_of_eq s hm, hb]
  rfl

theorem exec_fdgen_illegal (hm : s.mode = .config) (hb : bankOf sel = some b)
    (hf : ¬SpecLegal (s.cfg.spec.get b)) : exec (.fdgen sel) s = refusal s .errCfgSpec := by
  have hexec : exec (.fdgen sel) s = execFdgen sel s := rfl
  have hinvalid : specValid s.num (s.cfg.spec.get b) = false :=
    Bool.eq_false_iff.mpr fun h => hf ((specValid_iff s.params.num _).mp h)
  rw [hexec, execFdgen, State.inMode_of_eq s hm, hb]
  exact s.check_false hinvalid _ _

/-- FDGEN of a legal specification, in CONFIG (rule R133). -/
theorem exec_fdgen_ok {n : Nat} {clamp degen : Bool} {h : List Val} (hm : s.mode = .config)
    (hb : bankOf sel = some b) (hf : SpecLegal (s.cfg.spec.get b))
    (hn : normTaps s.params.maxTaps (s.cfg.spec.get b).taps = (n, clamp))
    (hh : designFilter s.num s.params (s.cfg.spec.get b) n = (h, degen)) :
    exec (.fdgen sel) s = .next { s with
      mem := { s.mem with coef := s.mem.coef.set b (filledBank s.params.maxTaps n h) }
      cfg := { s.cfg with coefLen := s.cfg.coefLen.set b (BitVec.ofNat 32 n) }
      resp := some (okResponse (warningFlags clamp degen) (BitVec.ofNat 16 n) 0#32) } := by
  have hexec : exec (.fdgen sel) s = execFdgen sel s := rfl
  have hgen : s.generate b =
      (s.writeBank b n h).respond (warningFlags clamp degen) (auxOf n) 0#32 := by
    simp only [State.generate, hn, hh]
  rw [hexec, execFdgen, State.inMode_of_eq s hm, hb]
  exact (s.check_true ((specValid_iff s.params.num _).mpr hf) _ _).trans hgen

end

/-- Settles O29: the refusals in their order, and the bank, the length and the response of a design. -/
theorem fdgenFillsBank : Obligations.FdgenFillsBank := by
  refine ⟨fun s sel hm hsel => exec_fdgen_noBank hm (bankOf_eq_none hsel),
    fun s sel b hm hsel => ⟨exec_fdgen_illegal hm (bankOf_bankTable _ hsel), ?_⟩⟩
  rintro hf ⟨h1, -⟩
  obtain ⟨n, clamp, hn⟩ : ∃ n clamp, normTaps s.params.maxTaps (s.cfg.spec.get b).taps = (n, clamp) :=
    ⟨_, _, rfl⟩
  obtain ⟨h, degen, hh⟩ : ∃ h degen,
      designFilter s.num s.params (s.cfg.spec.get b) n = (h, degen) := ⟨_, _, rfl⟩
  have hle : n ≤ s.params.maxTaps := by
    simpa only [hn] using (normTaps_odd_le h1 (s.cfg.spec.get b).taps).2
  have hlen : h.length = n := by
    simpa only [hh] using designFilter_length s.num s.params (s.cfg.spec.get b) n
  have hbelow : ∀ i, i < n → (filledBank s.params.maxTaps n h)[i]? = h[i]? :=
    fun i => filledBank_getElem?_of_lt hle hlen
  have habove : ∀ i, n ≤ i → i < s.params.maxTaps →
      (filledBank s.params.maxTaps n h)[i]? = some (.lit 0) := fun i => filledBank_getElem?_of_ge h
  refine ⟨n, clamp, h, degen, _, hn, hh, filledBank_length _ n h, hlen, hbelow, habove,
    fun hdegen i hi => ?_, ?_⟩
  · rcases Nat.lt_or_ge i n with hin | hin
    · have hzero : h = List.replicate n (.lit 0) := by
        simpa only [hh] using designFilter_degenerate
          (show (designFilter s.num s.params (s.cfg.spec.get b) n).2 = true by rw [hh]; exact hdegen)
      rw [hbelow i hin, hzero, List.getElem?_replicate_of_lt hin]
    · exact habove i hin hi
  · rw [exec_fdgen_ok hm (bankOf_bankTable _ hsel) hf hn hh, warningFlags_eq]

end Sys2Proof.Machine
end

section
/-!
The three filter designs over the real numbers: the weights and the divisor of each are those of its rule, and
the normalisation divides them (rules R132, R135 to R138, R141).
-/

namespace Sys2Proof.Machine

/-! The places of the taps -/

/-- The two ways to write the distance from the centre tap agree for an odd number of taps. -/
theorem fromCentre_eq_tapOffset {n : Nat} (hodd : n % 2 = 1) (i : Nat) :
    fromCentre n i = tapOffset n i := by
  unfold fromCentre tapOffset
  omega

/-- The tap mirrored at the centre has the opposite offset. -/
theorem tapOffset_mirror {n i : Nat} (hodd : n % 2 = 1) (hi : i < n) :
    tapOffset n (n - 1 - i) = -tapOffset n i := by
  unfold tapOffset
  omega

/-! Normalisation over the real numbers -/

/-- The real number each weight is. -/
theorem taps_map_toReal (n : Nat) (f : Nat → Val) :
    (taps n f).map Val.toReal = (List.range n).map fun i => Val.toReal (f i) := by
  rw [taps, List.map_map]
  rfl

/-- A sum over the taps is the sum of the real numbers they are. -/
theorem sumVal_taps_toReal (n : Nat) (f : Nat → Val) :
    Val.toReal (sumVal (taps n f)) = ∑ i ∈ Finset.range n, Val.toReal (f i) := by
  rw [sumVal_toReal, taps_map_toReal]
  rfl

/-- A normalisation is a design of its weights and its divisor (rule R138). -/
theorem normalise_designIs {N : Machine.Num} (hN : N.IsReal) (eps divisor : Val) (n : Nat)
    (f : Nat → Val) :
    DesignIs (normalise N eps divisor (taps n f)) n (fun i => Val.toReal (f i))
      (Val.toReal divisor) (Val.toReal eps) := by
  have hle : N.le (.abs divisor) eps = true ↔ |Val.toReal divisor| ≤ Val.toReal eps :=
    hN.le_iff _ _
  rcases normalise_cases N eps divisor (taps n f) with ⟨h, e⟩ | ⟨h, e⟩ <;> rw [e]
  · have hsmall := hle.mp h
    refine ⟨iff_of_true rfl hsmall, ?_⟩
    simp only [taps, List.map_map, if_pos hsmall]
    exact List.map_congr_left fun _ _ => Rat.cast_zero
  · have hlarge : ¬|Val.toReal divisor| ≤ Val.toReal eps := fun hs => by
      rw [hle.mpr hs] at h
      exact absurd h.symm Bool.false_ne_true
    refine ⟨iff_of_false Bool.false_ne_true hlarge, ?_⟩
    simp [taps, hlarge, Val.toReal]

/-- A design normalised by the sum of its weights (rules R135, R137). -/
theorem normalise_sum_designIs {N : Machine.Num} (hN : N.IsReal) (eps : Val) (n : Nat)
    (f : Nat → Val) :
    DesignIs (normalise N eps (sumVal (taps n f)) (taps n f)) n (fun i => Val.toReal (f i))
      (∑ i ∈ Finset.range n, Val.toReal (f i)) (Val.toReal eps) := by
  rw [← sumVal_taps_toReal]
  exact normalise_designIs hN _ _ _ _

/-! The weights over the real numbers -/

/-- The window of rule R132. -/
theorem window_toReal {n : Nat} (hodd : n % 2 = 1) (wk : U32) (i : Nat) :
    Val.toReal (window wk n i) = windowReal wk n i := by
  unfold window windowReal
  rw [fromCentre_eq_tapOffset hodd]
  split_ifs
  · simp [Val.toReal, Val.one]
  · simp [Val.toReal]

theorem sincKernel_toReal (fc : Val) {k : Int} (hk : k ≠ 0) :
    Val.toReal (sincKernel fc k) = kernelReal (Val.toReal fc) k := by
  rw [kernelReal, if_neg hk]
  simp [sincKernel, Val.toReal, Val.two]

/-- The kernel of rule R135. -/
theorem lowpassRaw_toReal (fc : Val) (k : Int) :
    Val.toReal (lowpassRaw fc k) = kernelReal (Val.toReal fc) k := by
  unfold lowpassRaw
  split_ifs with hk
  · simp [kernelReal, hk, Val.toReal, Val.two]
  · exact sincKernel_toReal fc hk

/-- The difference of two kernels of rule R136. -/
theorem bandpassRaw_toReal (f1 f2 : Val) (k : Int) :
    Val.toReal (bandpassRaw f1 f2 k) =
      kernelReal (Val.toReal f2) k - kernelReal (Val.toReal f1) k := by
  unfold bandpassRaw
  split_ifs with hk
  · simp [kernelReal, hk, Val.toReal, Val.two]
  · rw [Val.toReal, sincKernel_toReal f1 hk, sincKernel_toReal f2 hk]

/-- The cosine that weighs a tap in the response at the band's centre (rule R136). -/
theorem centreCosine_toReal {n : Nat} (hodd : n % 2 = 1) (f1 f2 : Val) (i : Nat) :
    Val.toReal (centreCosine f1 f2 n i) =
      Real.cos (2 * Real.pi * ((Val.toReal f1 + Val.toReal f2) / 2) * tapOffset n i) := by
  rw [centreCosine, fromCentre_eq_tapOffset hodd]
  simp [Val.toReal, Val.two]

/-- The response at the band's centre is the sum of the weights times the cosines (rule R136). -/
theorem bandpassGain_taps_toReal (f1 f2 : Val) (n : Nat) (f : Nat → Val) :
    Val.toReal (bandpassGain f1 f2 n (taps n f)) =
      ∑ i ∈ Finset.range n, Val.toReal (f i) * Val.toReal (centreCosine f1 f2 n i) := by
  have hzip : (taps n f).zipWith Val.mul (taps n (centreCosine f1 f2 n)) =
      taps n fun i => .mul (f i) (centreCosine f1 f2 n i) := by
    simp [taps, List.zipWith_map, List.zipWith_self]
  rw [bandpassGain, hzip, sumVal_taps_toReal]
  rfl

/-! The pulses over the real numbers -/

/-- The default pulse of rule R141. -/
theorem pulseRaisedCosine_toReal {N : Machine.Num} (hN : N.IsReal) (eps t a : Val) :
    Val.toReal (pulseRaisedCosine N eps t a) =
      pulseReal (Val.toReal eps) (Val.toReal t) (Val.toReal a) := by
  have hcentre : N.le (.abs t) eps = true ↔ |Val.toReal t| ≤ Val.toReal eps := hN.le_iff _ _
  have hcorner : N.le (.abs (.sub (.abs (.mul (.mul .two a) t)) .one)) eps = true ↔
      |(|2 * Val.toReal a * Val.toReal t| - 1)| ≤ Val.toReal eps := by
    rw [hN.le_iff]
    simp [Val.toReal, Val.one, Val.two]
  unfold pulseRaisedCosine pulseReal
  simp only [hcentre, hcorner]
  split_ifs <;> simp [Val.toReal, Val.one, Val.two]

/-- The textbook root pulse of rule R141. -/
theorem pulseRoot_toReal {N : Machine.Num} (hN : N.IsReal) (eps t a : Val) :
    Val.toReal (pulseRoot N eps t a) =
      pulseRootReal (Val.toReal eps) (Val.toReal t) (Val.toReal a) := by
  have hcentre : N.eq t .zero = true ↔ Val.toReal t = 0 := by
    rw [hN.eq_iff]
    simp [Val.toReal, Val.zero]
  have hcorner : (N.lt .zero a &&
        N.le (.abs (.sub (.abs (.mul (.mul (.ofInt 4) a) t)) .one)) eps) = true ↔
      0 < Val.toReal a ∧ |(|4 * Val.toReal a * Val.toReal t| - 1)| ≤ Val.toReal eps := by
    rw [Bool.and_eq_true, hN.lt_iff, hN.le_iff]
    simp [Val.toReal, Val.zero, Val.one]
  unfold pulseRoot pulseRootReal
  simp only [hcentre, hcorner]
  split_ifs <;> simp [Val.toReal, Val.one, Val.two]

/-- The pulse `pulse` over the real numbers is one the spec defines, and the one the parameters select
(rule R141). -/
def PulseIs (p : Params) (pulse : ℝ → ℝ → ℝ) : Prop :=
  p.pulse = .raisedCosine ∧ pulse = pulseReal (Val.toReal p.singEps) ∨
    p.pulse = .root ∧ pulse = pulseRootReal (Val.toReal p.singEps)

theorem PulseIs.toReal {N : Machine.Num} (hN : N.IsReal) {p : Params} {g : ℝ → ℝ → ℝ}
    (hg : PulseIs p g) (t a : Val) :
    Val.toReal (pulse N p t a) = g (Val.toReal t) (Val.toReal a) := by
  unfold pulse
  rcases hg with ⟨hp, rfl⟩ | ⟨hp, rfl⟩ <;> rw [hp]
  · exact pulseRaisedCosine_toReal hN _ t a
  · exact pulseRoot_toReal hN _ t a

/-! The designs -/

section
variable {N : Machine.Num} {p : Params} {f : FilterSpec} {n : Nat}

theorem lowpass_lowpassIs (hN : N.IsReal) (eps fc : Val) (wk : U32) (hodd : n % 2 = 1) :
    LowpassIs (lowpass N eps fc n wk) n (Val.toReal fc) wk (Val.toReal eps) := by
  have hweights : (fun i => Val.toReal (.mul (lowpassRaw fc (fromCentre n i)) (window wk n i))) =
      fun i => kernelReal (Val.toReal fc) (tapOffset n i) * windowReal wk n i := by
    funext i
    rw [Val.toReal, lowpassRaw_toReal, window_toReal hodd, fromCentre_eq_tapOffset hodd]
  unfold LowpassIs
  rw [← hweights]
  exact normalise_sum_designIs hN eps n _

theorem bandpass_bandpassIs (hN : N.IsReal) (eps f1 f2 : Val) (wk : U32) (hodd : n % 2 = 1) :
    BandpassIs (bandpass N eps f1 f2 n wk) n (Val.toReal f1) (Val.toReal f2) wk
      (Val.toReal eps) := by
  have hweights :
      (fun i => Val.toReal (.mul (bandpassRaw f1 f2 (fromCentre n i)) (window wk n i))) =
        fun i => (kernelReal (Val.toReal f2) (tapOffset n i) -
          kernelReal (Val.toReal f1) (tapOffset n i)) * windowReal wk n i := by
    funext i
    rw [Val.toReal, bandpassRaw_toReal, window_toReal hodd, fromCentre_eq_tapOffset hodd]
  unfold BandpassIs
  rw [← hweights]
  simp only [← centreCosine_toReal hodd]
  rw [← bandpassGain_taps_toReal]
  exact normalise_designIs hN eps _ n _

theorem rrc_rrcIs (hN : N.IsReal) {g : ℝ → ℝ → ℝ} (hg : PulseIs p g) (a sps : Val)
    (hodd : n % 2 = 1) :
    RrcIs (rrc N p n a sps) n g (Val.toReal a) (Val.toReal sps) (Val.toReal p.normEps) := by
  have hweights : (fun i => Val.toReal (pulse N p (.div (.ofInt (fromCentre n i)) sps) a)) =
      fun i => g (tapOffset n i / Val.toReal sps) (Val.toReal a) := by
    funext i
    rw [hg.toReal hN, Val.toReal, Val.toReal, fromCentre_eq_tapOffset hodd]
  unfold RrcIs
  rw [← hweights]
  exact normalise_sum_designIs hN p.normEps n _

/-! The design a specification asks for (rule R133) -/

theorem designFilter_lowpass (hk : f.kind = 0#32) :
    designFilter N p f n = lowpass N p.normEps (valOf f.f1) n f.window := if_pos hk

theorem designFilter_bandpass (hk : f.kind = 1#32) :
    designFilter N p f n = bandpass N p.normEps (valOf f.f1) (valOf f.f2) n f.window := by
  rw [designFilter, if_neg (by rw [hk]; decide), if_pos hk]

theorem designFilter_rrc (h0 : f.kind ≠ 0#32) (h1 : f.kind ≠ 1#32) :
    designFilter N p f n = rrc N p n (valOf f.rolloff) (valOf f.sps) := by
  rw [designFilter, if_neg h0, if_neg h1]

end

/-- Settles O30: the low-pass, and the one a specification of kind 0 asks for. -/
theorem lowpassDesign : Obligations.LowpassDesign := by
  refine fun N hN => ⟨fun eps fc n wk hodd => lowpass_lowpassIs hN eps fc wk hodd,
    fun p f n hodd hk hv => ?_⟩
  rw [designFilter_lowpass hk, ← valOf_toReal hv]
  exact lowpass_lowpassIs hN _ _ _ hodd

/-- Settles O31: the band-pass, and the one a specification of kind 1 asks for. -/
theorem bandpassDesign : Obligations.BandpassDesign := by
  refine fun N hN => ⟨fun eps f1 f2 n wk hodd => bandpass_bandpassIs hN eps f1 f2 wk hodd,
    fun p f n hodd hk hv1 hv2 => ?_⟩
  rw [designFilter_bandpass hk, ← valOf_toReal hv1, ← valOf_toReal hv2]
  exact bandpass_bandpassIs hN _ _ _ _ hodd

/-- Settles O32: the root-raised-cosine, and the one a specification of kind 2 asks for. -/
theorem rrcDesign : Obligations.RrcDesign := by
  refine fun N hN p g hg => ⟨fun n a sps hodd => rrc_rrcIs hN hg a sps hodd,
    fun f n hodd hk hv1 hv2 => ?_⟩
  rw [designFilter_rrc (by rw [hk]; decide) (by rw [hk]; decide), ← valOf_toReal hv1,
    ← valOf_toReal hv2]
  exact rrc_rrcIs hN hg _ _ hodd

end Sys2Proof.Machine
end

section
/-!
What holds of every generated filter over the real numbers (rule R142): the unit sum, the unit response at the
band's centre, and the symmetry.
-/

namespace Sys2Proof.Machine

/-! A design without the degenerate warning -/

section
variable {r : List Val × Bool} {n : Nat} {w : Nat → ℝ} {d eps : ℝ}

theorem DesignIs.not_small (h : DesignIs r n w d eps) (hr : r.2 = false) : ¬|d| ≤ eps :=
  fun hd => Bool.false_ne_true (hr.symm.trans (h.1.mpr hd))

/-- The divisor is above `NORM_EPS`, and so is not 0 (rule R138). -/
theorem DesignIs.divisor_ne_zero (h : DesignIs r n w d eps) (heps : 0 ≤ eps) (hr : r.2 = false) :
    d ≠ 0 := by
  rintro rfl
  exact h.not_small hr (by rwa [abs_zero])

/-- The taps are the weights divided by the divisor (rules R135 to R137). -/
theorem DesignIs.map_toReal (h : DesignIs r n w d eps) (hr : r.2 = false) :
    r.1.map Val.toReal = (List.range n).map fun i => w i / d := by
  rw [h.2]
  simp only [if_neg (h.not_small hr)]

theorem DesignIs.toReal_getD (h : DesignIs r n w d eps) (hr : r.2 = false) {i : Nat} (hi : i < n) :
    Val.toReal (r.1.getD i .zero) = w i / d := by
  have hget := congrArg (·[i]?) (h.map_toReal hr)
  simp only [List.getElem?_map, List.getElem?_range hi, Option.map_some] at hget
  obtain ⟨v, hv, hval⟩ := Option.map_eq_some_iff.mp hget
  rw [List.getD_eq_getElem?_getD, hv, Option.getD_some, hval]

/-- A filter normalised by the sum of its weights sums to 1 (rule R142(b)). -/
theorem DesignIs.sum_eq_one (h : DesignIs r n w (∑ i ∈ Finset.range n, w i) eps) (heps : 0 ≤ eps)
    (hr : r.2 = false) : (r.1.map Val.toReal).sum = 1 := by
  have hne := h.divisor_ne_zero heps hr
  rw [h.map_toReal hr]
  change ∑ i ∈ Finset.range n, w i / ∑ j ∈ Finset.range n, w j = 1
  rw [← Finset.sum_div, div_self hne]

/-- A filter normalised by its response to the weights `c` has the response 1 to them (rule R142(c)). -/
theorem DesignIs.response_eq_one {c : Nat → ℝ}
    (h : DesignIs r n w (∑ i ∈ Finset.range n, w i * c i) eps) (heps : 0 ≤ eps) (hr : r.2 = false) :
    ∑ i ∈ Finset.range n, Val.toReal (r.1.getD i .zero) * c i = 1 := by
  have hne := h.divisor_ne_zero heps hr
  calc ∑ i ∈ Finset.range n, Val.toReal (r.1.getD i .zero) * c i
      = ∑ i ∈ Finset.range n, w i * c i / ∑ j ∈ Finset.range n, w j * c j :=
        Finset.sum_congr rfl fun i hi => by
          rw [h.toReal_getD hr (Finset.mem_range.mp hi), div_mul_eq_mul_div]
    _ = 1 := by rw [← Finset.sum_div, div_self hne]

/-- A filter with symmetric weights is symmetric, degenerate or not (rule R142(d)). -/
theorem DesignIs.symmetric (h : DesignIs r n w d eps) (hw : ∀ i < n, w (n - 1 - i) = w i) :
    (r.1.map Val.toReal).reverse = r.1.map Val.toReal := by
  rw [h.2]
  refine List.ext_getElem (by simp) fun i hi _ => ?_
  have hin : i < n := by simpa using hi
  simp [hw i hin]

end

/-! Even functions -/

theorem kernelReal_neg (fc : ℝ) (k : Int) : kernelReal fc (-k) = kernelReal fc k := by
  unfold kernelReal
  simp only [neg_eq_zero, Int.cast_neg, mul_neg, Real.sin_neg, neg_div_neg_eq]

theorem windowReal_mirror {n i : Nat} (hodd : n % 2 = 1) (hi : i < n) (wk : U32) :
    windowReal wk n (n - 1 - i) = windowReal wk n i := by
  unfold windowReal
  rw [tapOffset_mirror hodd hi, Int.cast_neg, mul_neg, neg_div, Real.cos_neg]

theorem pulseReal_neg (eps t a : ℝ) : pulseReal eps (-t) a = pulseReal eps t a := by
  unfold pulseReal
  simp only [mul_neg, abs_neg, Real.sin_neg, Real.cos_neg, neg_div_neg_eq, neg_mul, neg_neg]

theorem pulseRootReal_neg (eps t a : ℝ) : pulseRootReal eps (-t) a = pulseRootReal eps t a := by
  unfold pulseRootReal
  simp only [neg_eq_zero, mul_neg, abs_neg, neg_mul, neg_neg, Real.sin_neg, Real.cos_neg,
    ← neg_add, neg_div_neg_eq]

/-- The pulses the spec defines are even in the time. -/
theorem PulseIs.neg {p : Params} {g : ℝ → ℝ → ℝ} (hg : PulseIs p g) (t a : ℝ) :
    g (-t) a = g t a := by
  rcases hg with ⟨_, rfl⟩ | ⟨_, rfl⟩
  · exact pulseReal_neg _ t a
  · exact pulseRootReal_neg _ t a

/-! The properties of the three designs -/

section
variable {r : List Val × Bool} {n : Nat} {eps : ℝ}

theorem LowpassIs.symmetric {fc : ℝ} {wk : U32} (hodd : n % 2 = 1) (h : LowpassIs r n fc wk eps) :
    (r.1.map Val.toReal).reverse = r.1.map Val.toReal :=
  DesignIs.symmetric h fun i hi => by
    rw [tapOffset_mirror hodd hi, kernelReal_neg, windowReal_mirror hodd hi]

theorem BandpassIs.symmetric {f1 f2 : ℝ} {wk : U32} (hodd : n % 2 = 1)
    (h : BandpassIs r n f1 f2 wk eps) :
    (r.1.map Val.toReal).reverse = r.1.map Val.toReal :=
  DesignIs.symmetric h fun i hi => by
    rw [tapOffset_mirror hodd hi, kernelReal_neg, kernelReal_neg, windowReal_mirror hodd hi]

theorem RrcIs.symmetric {p : Params} {g : ℝ → ℝ → ℝ} {a sps : ℝ} (hg : PulseIs p g)
    (hodd : n % 2 = 1) (h : RrcIs r n g a sps eps) :
    (r.1.map Val.toReal).reverse = r.1.map Val.toReal :=
  DesignIs.symmetric h fun i hi => by
    rw [tapOffset_mirror hodd hi, Int.cast_neg, neg_div, hg.neg]

end

/-- Settles O33: both kinds are normalised by the sum of their weights. -/
theorem unitSum : Obligations.UnitSum := by
  intro N hN p f n heps hk hr
  rcases hk with hk | hk
  · rw [designFilter_lowpass hk] at hr ⊢
    exact (normalise_sum_designIs hN p.normEps n _).sum_eq_one heps hr
  · rw [designFilter_rrc (by rw [hk]; decide) (by rw [hk]; decide)] at hr ⊢
    exact (normalise_sum_designIs hN p.normEps n _).sum_eq_one heps hr

/-- Settles O34: a band-pass is normalised by its response at the centre. -/
theorem centreResponse : Obligations.CentreResponse := by
  intro N hN p f n heps hk hv1 hv2 hodd hr
  have hband := (bandpassDesign N hN).2 p f n hodd hk hv1 hv2
  exact DesignIs.response_eq_one hband heps hr

/-- Settles O35: every weight depends on the distance from the centre tap alone. -/
theorem generatedFilterSymmetric : Obligations.GeneratedFilterSymmetric := by
  intro N hN p f n hodd hk
  by_cases h0 : f.kind = 0#32
  · rw [designFilter_lowpass h0]
    exact (lowpass_lowpassIs hN _ _ _ hodd).symmetric hodd
  by_cases h1 : f.kind = 1#32
  · rw [designFilter_bandpass h1]
    exact (bandpass_bandpassIs hN _ _ _ _ hodd).symmetric hodd
  obtain ⟨g, hg⟩ : ∃ g, PulseIs p g := by
    rcases hk with hk | hk | hp | hp
    · exact absurd hk h0
    · exact absurd hk h1
    · exact ⟨_, .inl ⟨hp, rfl⟩⟩
    · exact ⟨_, .inr ⟨hp, rfl⟩⟩
  rw [designFilter_rrc h0 h1]
  exact (rrc_rrcIs hN hg _ _ hodd).symmetric hg hodd

end Sys2Proof.Machine
end

section
/-!
The AGC, the normaliser and `unwrap` over the real numbers (rules R165, R167, R170, R172(c)).
-/

namespace Sys2Proof.Machine

/-! The AGC -/

/-- An envelope moved by a coefficient, over the real numbers (rule R170). -/
theorem envelope_toReal (x e c : Val) : Val.toReal (envelope x e c) =
    Val.toReal x * Val.toReal c + Val.toReal e * (1 - Val.toReal c) := by
  simp [envelope, Val.toReal, Val.one]

/-- A coefficient from 0 to 1 moves an envelope toward the input and never past it (rule R170). -/
theorem envelope_between {c : Val} (h0 : 0 ≤ Val.toReal c) (h1 : Val.toReal c ≤ 1) (x e : Val) :
    min (Val.toReal x) (Val.toReal e) ≤ Val.toReal (envelope x e c) ∧
      Val.toReal (envelope x e c) ≤ max (Val.toReal x) (Val.toReal e) := by
  have hcombo : Val.toReal (envelope x e c) =
      Val.toReal c • Val.toReal x + (1 - Val.toReal c) • Val.toReal e := by
    rw [envelope_toReal, smul_eq_mul, smul_eq_mul]
    ring
  have h1' : 0 ≤ 1 - Val.toReal c := sub_nonneg.mpr h1
  rw [hcombo]
  exact ⟨Convex.min_le_combo _ _ h0 h1' (by ring), Convex.combo_le_max _ _ h0 h1' (by ring)⟩

/-- The next peak is the envelope moved by one of the two coefficients. -/
theorem nextPeak_cases (N : Machine.Num) (a d e x : Val) :
    nextPeak N a d e x = envelope x e a ∨ nextPeak N a d e x = envelope x e d := ite_eq_or_eq _ _ _

/-- The next valley is the envelope moved by one of the two coefficients. -/
theorem nextValley_cases (N : Machine.Num) (a d e x : Val) :
    nextValley N a d e x = envelope x e a ∨ nextValley N a d e x = envelope x e d :=
  ite_eq_or_eq _ _ _

section
variable {N : Machine.Num} (hN : N.IsReal)
include hN

theorem nextPeak_toReal (a d e x : Val) : Val.toReal (nextPeak N a d e x) =
    if Val.toReal e < Val.toReal x
    then Val.toReal x * Val.toReal a + Val.toReal e * (1 - Val.toReal a)
    else Val.toReal x * Val.toReal d + Val.toReal e * (1 - Val.toReal d) := by
  simp only [nextPeak, hN.lt_iff, apply_ite Val.toReal, envelope_toReal]

theorem nextValley_toReal (a d e x : Val) : Val.toReal (nextValley N a d e x) =
    if Val.toReal x < Val.toReal e
    then Val.toReal x * Val.toReal a + Val.toReal e * (1 - Val.toReal a)
    else Val.toReal x * Val.toReal d + Val.toReal e * (1 - Val.toReal d) := by
  simp only [nextValley, hN.lt_iff, apply_ite Val.toReal, envelope_toReal]

theorem clip_toReal (x p v : Val) : Val.toReal (clip N x p v) =
    max (min (Val.toReal x) (Val.toReal p)) (Val.toReal v) := by
  simp only [clip, hN.lt_iff, apply_ite Val.toReal, max_def_lt, min_comm (Val.toReal x), min_def_lt]

theorem normalised_toReal (x p v : Val) : Val.toReal (normalised N x p v) =
    if Val.toReal v < Val.toReal p then
      (max (min (Val.toReal x) (Val.toReal p)) (Val.toReal v) -
        (Val.toReal p + Val.toReal v) / 2) / (Val.toReal p - Val.toReal v)
    else 0 := by
  simp only [normalised, hN.lt_iff, apply_ite Val.toReal, Val.toReal, clip_toReal hN, Val.two,
    Val.zero, Rat.cast_ofNat, Rat.cast_zero]

/-- The clipped input lies between the envelopes, so it is at most half their distance from the middle
(rules R170, R172(c)). -/
theorem normalised_abs_le (x p v : Val) : |Val.toReal (normalised N x p v)| ≤ 1 / 2 := by
  rw [normalised_toReal hN]
  split_ifs with hvp
  · have hlow : Val.toReal v ≤ max (min (Val.toReal x) (Val.toReal p)) (Val.toReal v) :=
      le_max_right _ _
    have hhigh : max (min (Val.toReal x) (Val.toReal p)) (Val.toReal v) ≤ Val.toReal p :=
      max_le (min_le_right _ _) hvp.le
    have hpos : 0 < Val.toReal p - Val.toReal v := sub_pos.mpr hvp
    rw [abs_div, abs_of_pos hpos, div_le_iff₀ hpos, abs_le]
    constructor <;> linarith
  · norm_num

end

/-- Settles O41: each envelope moves by one of its two coefficients, and the normalised output is at most
1/2 in magnitude. -/
theorem agcNormaliser : Obligations.AgcNormaliser := by
  intro N hN a d x e
  refine ⟨nextPeak_toReal hN a d e x, nextValley_toReal hN a d e x, fun ha0 ha1 hd0 hd1 => ?_,
    fun p v => ⟨normalised_toReal hN x p v, normalised_abs_le hN x p v, fun y q u => ?_⟩⟩
  · have hattack := envelope_between ha0 ha1 x e
    have hdecay := envelope_between hd0 hd1 x e
    rw [← and_assoc]
    constructor
    · rcases nextPeak_cases N a d e x with h | h <;> rw [h]
      · exact hattack
      · exact hdecay
    · rcases nextValley_cases N a d e x with h | h <;> rw [h]
      · exact hattack
      · exact hdecay
  · calc |Val.toReal (normalised N x p v) - Val.toReal (normalised N y q u)|
        ≤ |Val.toReal (normalised N x p v)| + |Val.toReal (normalised N y q u)| := abs_sub _ _
      _ ≤ 1 / 2 + 1 / 2 := add_le_add (normalised_abs_le hN x p v) (normalised_abs_le hN y q u)
      _ = 1 := by norm_num

/-! The unwrapped phase difference -/

theorem unwrap_toReal {N : Machine.Num} (hN : N.IsReal) (r : Val) : Val.toReal (unwrap N r) =
    if Real.pi < Val.toReal r then Val.toReal r - 2 * Real.pi
    else if Val.toReal r ≤ -Real.pi then Val.toReal r + 2 * Real.pi
    else Val.toReal r := by
  simp only [unwrap, hN.lt_iff, hN.le_iff, apply_ite Val.toReal, Val.toReal, Val.two,
    Rat.cast_ofNat]

/-- Settles O42, by the three branches of `unwrap`. -/
theorem unwrapBringsIntoRange : Obligations.UnwrapBringsIntoRange := by
  intro N hN r
  have hpi := Real.pi_pos
  rw [unwrap_toReal hN]
  refine ⟨fun h => if_pos h, fun h => ?_, fun hlow hhigh => ?_, fun hlow hhigh => ?_, fun h => ?_,
    fun h => ?_⟩
  · rw [if_neg (by linarith), if_pos h]
  · rw [if_neg hhigh.not_gt, if_neg hlow.not_ge]
  · split_ifs <;> constructor <;> linarith
  · rw [if_neg h.not_gt, if_neg (by linarith), h]
  · rw [if_neg (by linarith), if_pos h.le]
    linarith

end Sys2Proof.Machine
end

section
/-!
SAMPLE as a command: its outcome, and what the PLL step and the deframer step after the demodulator stage
leave in their registers and in the response (rules R112, R160, R161, R169, R190 to R196).
-/

namespace Sys2Proof.Machine

/-! The command -/

/-- SAMPLE of a pattern that is not a value (rule R161). -/
theorem exec_sample_refused {s : State} {data : U32} (hm : s.mode = .run)
    (hd : isValue data = false) : exec (.sample data) s = refusal s .errOperand := by
  have hexec : exec (.sample data) s = execSample data s := rfl
  rw [hexec, execSample, State.inMode_of_eq s hm, dec32_eq_none hd]
  rfl

/-- SAMPLE of a value: the demodulator stage, the PLL step on its output, and the response (rules R160,
R169). -/
theorem exec_sample_ok {s : State} {data : U32} (hm : s.mode = .run) (hd : isValue data = true) :
    let p := demodulate (.lit (decRat data)) s
    let r := pllStep p.2 p.1
    exec (.sample data) s = .next { r.1 with
      resp := some (okResponse (dataFlags r.2 r.1.df.slotValid) (BitVec.ofNat 16 r.1.df.frameLen)
        (s.num.enc32 p.2)) } := by
  have hexec : exec (.sample data) s = execSample data s := rfl
  rw [hexec, execSample, State.inMode_of_eq s hm, dec32_of_isValue hd]
  rfl

/-- Settles O36: the two outcomes of the command in RUN. -/
theorem sampleRunsTheStages : Obligations.SampleRunsTheStages :=
  ⟨fun _ _ => exec_sample_refused, fun _ _ => exec_sample_ok⟩

/-! The PLL step -/

/-- The deframer's part of a PLL step: a deframer step on the bit, where the accumulator emits one (rule
R190). -/
def State.handBit (s : State) (bit : Bool) : State := if s.emits then (dfStep bit s).1 else s

/-- The flags of a data-path response as a number (rule R112). -/
theorem dataFlags_eq (ev : DataEvent) (fa : Bool) : dataFlags ev fa =
    BitVec.ofNat 8 (bitNat ev.bv + 2 * bitNat ev.b + 4 * bitNat ev.df.db + 8 * bitNat ev.df.flg +
      16 * bitNat ev.df.fe + 32 * bitNat fa + 64 * bitNat ev.tr + 128 * bitNat ev.df.ovf) := by
  obtain ⟨bv, b, tr, db, flg, fe, ovf⟩ := ev
  revert bv b tr db flg fe ovf fa
  decide

/-- A PLL step with the events it reports, where it emits a bit and where it emits none (rule R190). -/
theorem pllStepSign_eq (sign : Bool) (s : State) :
    (s.emits = true ∧ pllStepSign sign s = ((dfStep sign (s.afterPll sign)).1,
      { bv := true, b := sign, tr := decide (sign ≠ s.pll.prevSign), df := (dfStep sign s).2 })) ∨
    (s.emits = false ∧ pllStepSign sign s = (s.afterPll sign,
      { bv := false, b := false, tr := decide (sign ≠ s.pll.prevSign), df := .none })) := by
  have htr : (sign != s.pll.prevSign) = decide (sign ≠ s.pll.prevSign) := by
    cases sign <;> cases s.pll.prevSign <;> rfl
  have hevents : (dfStep sign (s.afterPll sign)).2 = (dfStep sign s).2 :=
    (dfStep_congr (s := s) (t := s.afterPll sign) sign rfl rfl rfl rfl).1
  rw [← s.wraps_eq_emits, ← htr, ← hevents]
  exact pllStepSign_cases sign s

/-- What a PLL step leaves in the deframer's registers and the octet buffers (rules R190, R210). -/
theorem pllStepSign_handBit (sign : Bool) (s : State) :
    (pllStepSign sign s).1.df = (s.handBit sign).df ∧
      (pllStepSign sign s).1.mem.frameBuf = (s.handBit sign).mem.frameBuf ∧
      (pllStepSign sign s).1.mem.slotBuf = (s.handBit sign).mem.slotBuf := by
  unfold State.handBit
  rcases pllStepSign_eq sign s with ⟨hemits, e⟩ | ⟨hemits, e⟩ <;> rw [e, hemits]
  · exact (dfStep_congr (s := s) (t := s.afterPll sign) sign rfl rfl rfl rfl).2
  · exact ⟨rfl, rfl, rfl⟩

/-- The response of a data-path command that ends in a PLL step (rules R112, R169, R197). -/
theorem pllStepSign_dataResponse (sign : Bool) (s : State) (data : U32) :
    okResponse (dataFlags (pllStepSign sign s).2 (pllStepSign sign s).1.df.slotValid)
      (BitVec.ofNat 16 (pllStepSign sign s).1.df.frameLen) data =
      s.dataResponse (pllStepSign sign s).1 sign data := by
  rw [State.dataResponse, dataFlags_eq]
  rcases pllStepSign_eq sign s with ⟨hemits, e⟩ | ⟨hemits, e⟩ <;> rw [e, hemits]
  · rfl
  · simp [DfEvent.none, bitNat]

/-! The PLL step after the demodulator stage -/

section
variable {s u : State} (h : SameButDemod s u)
include h

theorem SameButDemod.num : u.num = s.num := by rw [State.num, h.params, State.num]

theorem SameButDemod.emits : u.emits = s.emits := by
  rw [State.emits, h.pll, h.derived, State.emits]

theorem SameButDemod.pllRegisters (sign : Bool) : u.pllRegisters sign = s.pllRegisters sign := by
  rw [State.pllRegisters, h.emits, h.pll, h.derived, h.cfg, h.params, State.pllRegisters]

theorem SameButDemod.dataResponse (t : State) (sign : Bool) (data : U32) :
    u.dataResponse t sign data = s.dataResponse t sign data := by
  have hevents : (dfStep sign u).2 = (dfStep sign s).2 :=
    (dfStep_congr sign h.df h.cfg h.frameBuf h.slotBuf).1
  rw [State.dataResponse, h.emits, h.pll, hevents, State.dataResponse]

theorem SameButDemod.handBit (sign : Bool) : (u.handBit sign).df = (s.handBit sign).df ∧
    (u.handBit sign).mem.frameBuf = (s.handBit sign).mem.frameBuf ∧
    (u.handBit sign).mem.slotBuf = (s.handBit sign).mem.slotBuf := by
  unfold State.handBit
  rw [h.emits]
  split
  · exact (dfStep_congr sign h.df h.cfg h.frameBuf h.slotBuf).2
  · exact ⟨h.df, h.frameBuf, h.slotBuf⟩

end

/-- What SAMPLE leaves in each field where the demodulator stage leaves `p.1` with the output `p.2` (rules
R160, R169, R190 to R196). -/
structure SampleLeaves (s : State) (p : State × Val) (t : State) : Prop where
  rawh : t.mem.rawh = p.1.mem.rawh
  ih : t.mem.ih = p.1.mem.ih
  qh : t.mem.qh = p.1.mem.qh
  demod : t.demod = p.1.demod
  pll : t.pll = s.pllRegisters (positive s.num p.2)
  df : t.df = (s.handBit (positive s.num p.2)).df
  frameBuf : t.mem.frameBuf = (s.handBit (positive s.num p.2)).mem.frameBuf
  slotBuf : t.mem.slotBuf = (s.handBit (positive s.num p.2)).mem.slotBuf
  resp : t.resp = some (s.dataResponse t (positive s.num p.2) (s.num.enc32 p.2))
  params : t.params = s.params
  mode : t.mode = .run
  cfg : t.cfg = s.cfg
  derived : t.derived = s.derived
  coef : t.mem.coef = s.mem.coef
  cmds : t.cmds = s.cmds

/-- SAMPLE of a value in RUN, field by field. -/
theorem exec_sample_leaves {s : State} {data : U32} (hm : s.mode = .run) (hd : isValue data = true) :
    ∃ t, exec (.sample data) s = .next t ∧
      SampleLeaves s (demodulate (.lit (decRat data)) s) t := by
  have hexec := exec_sample_ok hm hd
  generalize hp : demodulate (.lit (decRat data)) s = p at hexec
  have hdemod : SameButDemod s p.1 := hp ▸ demodulate_same _ s
  have hstep : pllStep p.2 p.1 = pllStepSign (positive s.num p.2) p.1 := by
    rw [pllStep, hdemod.num]
  refine ⟨_, hexec, ?_⟩
  rw [hstep]
  have hsame := pllStepSign_same (positive s.num p.2) p.1
  have hpll := pllStepSign_pll (positive s.num p.2) p.1
  obtain ⟨hdf, hframe, hslot⟩ := pllStepSign_handBit (positive s.num p.2) p.1
  obtain ⟨hdf', hframe', hslot'⟩ := hdemod.handBit (positive s.num p.2)
  rw [State.afterPll_eq] at hpll
  exact {
    rawh := hsame.rawh
    ih := hsame.ih
    qh := hsame.qh
    demod := hsame.demod
    pll := hpll.trans (hdemod.pllRegisters _)
    df := hdf.trans hdf'
    frameBuf := hframe.trans hframe'
    slotBuf := hslot.trans hslot'
    resp := congrArg some
      ((pllStepSign_dataResponse _ p.1 _).trans (hdemod.dataResponse _ _ _))
    params := hsame.params.trans hdemod.params
    mode := (hsame.mode.trans hdemod.mode).trans hm
    cfg := hsame.cfg.trans hdemod.cfg
    derived := hsame.derived.trans hdemod.derived
    coef := hsame.coef.trans hdemod.coef
    cmds := hsame.cmds.trans hdemod.cmds }

end Sys2Proof.Machine
end

section
/-!
SAMPLE in each profile: the registers and the output of the demodulator stage (rules R162 to R171).
-/

namespace Sys2Proof

@[simp] theorem Two.set_i0 {α : Type} (p : Two α) (a : α) : p.set .i0 a = ⟨a, p.at1⟩ := rfl
@[simp] theorem Two.set_i1 {α : Type} (p : Two α) (a : α) : p.set .i1 a = ⟨p.at0, a⟩ := rfl

namespace Machine

/-! The pre-filter -/

/-- The history of the pre-filter after the sample `x` (rule R162). -/
def State.rawAfter (s : State) (x : Val) : List Val :=
  if s.cfg.demodCtrl.getLsbD 0 then push s.mem.rawh s.cfg.coefLen.at0.toNat x else s.mem.rawh

/-- What the pre-filter makes of the sample `x` (rule R162). -/
def State.filtered (s : State) (x : Val) : Val :=
  if s.cfg.demodCtrl.getLsbD 0 then conv s.mem.coef.at0 (s.rawAfter x) s.cfg.coefLen.at0.toNat else x

/-- The state the pre-filter leaves (rule R162). -/
def State.afterPrefilter (s : State) (x : Val) : State :=
  { s with mem := { s.mem with rawh := s.rawAfter x } }

theorem prefilter_eq (x : Val) (s : State) : prefilter x s = (s.afterPrefilter x, s.filtered x) := by
  unfold prefilter State.afterPrefilter State.filtered State.rawAfter Cfg.preEnabled
  split <;> rfl

/-! The AGC stage, field by field (rule R170) -/

section
variable (t : Ix) (x : Val) (s : State)

@[simp] theorem agc_num : (agc t x s).1.num = s.num := rfl
@[simp] theorem agc_cfg : (agc t x s).1.cfg = s.cfg := rfl
@[simp] theorem agc_oscPhase : (agc t x s).1.demod.oscPhase = s.demod.oscPhase := rfl

@[simp] theorem agc_agcPeak : (agc t x s).1.demod.agcPeak = s.demod.agcPeak.set t
    (nextPeak s.num (valOf s.cfg.agcAttack) (valOf s.cfg.agcDecay) (s.demod.agcPeak.get t) x) := rfl

@[simp] theorem agc_agcValley : (agc t x s).1.demod.agcValley = s.demod.agcValley.set t
    (nextValley s.num (valOf s.cfg.agcAttack) (valOf s.cfg.agcDecay) (s.demod.agcValley.get t) x) :=
  rfl

theorem agc_output : (agc t x s).2 = normalised s.num x ((agc t x s).1.demod.agcPeak.get t)
    ((agc t x s).1.demod.agcValley.get t) := by
  rw [agc_agcPeak, agc_agcValley, Two.get_set_self, Two.get_set_self]
  rfl

end

@[simp] theorem State.pushMix_num (s : State) (t : Ix) (x : Val) : (s.pushMix t x).num = s.num := rfl
@[simp] theorem State.advance_num (s : State) (t : Ix) : (s.advance t).num = s.num := rfl

/-! The amplitude-comparison profile -/

/-- The amplitude that the in-phase and quadrature histories `ih` and `qh` give in the branch of oscillator
`k` (rules R163, R165). -/
def State.branchAmplitude (s : State) (ih qh : Two (List Val)) (k : Ix) : Val :=
  amplitude (conv s.mem.coef.at1 (ih.get k) s.cfg.coefLen.at1.toNat)
    (conv s.mem.coef.at1 (qh.get k) s.cfg.coefLen.at1.toNat)

/-- What the branch of oscillator `k` does from `s` to `t` with the mixer's input `xf`: the mixer, the phase
advance and the AGC (rules R163, R164, R170). -/
structure BranchStep (s t : State) (xf : Val) (k : Ix) : Prop where
  ih : t.mem.ih.get k = push (s.mem.ih.get k) s.cfg.coefLen.at1.toNat
    (.mul xf (.cosPhase (s.demod.oscPhase.get k)))
  qh : t.mem.qh.get k = push (s.mem.qh.get k) s.cfg.coefLen.at1.toNat
    (.mul xf (.sinPhase (s.demod.oscPhase.get k)))
  oscPhase : t.demod.oscPhase.get k = s.demod.oscPhase.get k + s.derived.oscInc.get k
  agcPeak : t.demod.agcPeak.get k = nextPeak s.num (valOf s.cfg.agcAttack) (valOf s.cfg.agcDecay)
    (s.demod.agcPeak.get k) (s.branchAmplitude t.mem.ih t.mem.qh k)
  agcValley : t.demod.agcValley.get k = nextValley s.num (valOf s.cfg.agcAttack)
    (valOf s.cfg.agcDecay) (s.demod.agcValley.get k) (s.branchAmplitude t.mem.ih t.mem.qh k)

/-- The output of the branch of oscillator `k` that has made its step to `t` (rule R170). -/
def State.branchOutput (s t : State) (k : Ix) : Val :=
  normalised s.num (s.branchAmplitude t.mem.ih t.mem.qh k) (t.demod.agcPeak.get k)
    (t.demod.agcValley.get k)

/-- The state after both mixers (rule R165). -/
def State.mixed (s : State) (xf : Val) : State := (s.pushMix .i0 xf).pushMix .i1 xf

/-- The stages of the profile: both mixers, both phase advances, and the AGC of each branch (rule R165). -/
theorem amplitudeProfile_eq (xf : Val) (s : State) :
    amplitudeProfile xf s =
      let m := s.mixed xf
      let r := agc .i0 (s.branchAmplitude m.mem.ih m.mem.qh .i0) ((m.advance .i0).advance .i1)
      let r' := agc .i1 (s.branchAmplitude m.mem.ih m.mem.qh .i1) r.1
      (r'.1, .sub r.2 r'.2) := rfl

theorem amplitudeProfile_mixed (xf : Val) (s : State) :
    (amplitudeProfile xf s).1.mem = (s.mixed xf).mem := amplitudeProfile_mem xf s

/-- The branch of each oscillator makes its step. -/
theorem amplitudeProfile_branch (xf : Val) (s : State) (k : Ix) :
    BranchStep s (amplitudeProfile xf s).1 xf k := by
  constructor
  · cases k <;> simp [amplitudeProfile_mixed, State.mixed, Cfg.tapCount]
  · cases k <;> simp [amplitudeProfile_mixed, State.mixed, Cfg.tapCount]
  · rw [amplitudeProfile_eq]
    cases k <;> simp [State.mixed]
  · rw [amplitudeProfile_mixed, amplitudeProfile_eq]
    cases k <;> simp [State.mixed]
  · rw [amplitudeProfile_mixed, amplitudeProfile_eq]
    cases k <;> simp [State.mixed]

/-- The output is the difference of the two branches' (rule R165). -/
theorem amplitudeProfile_output (xf : Val) (s : State) : (amplitudeProfile xf s).2 =
    .sub (s.branchOutput (amplitudeProfile xf s).1 .i0)
      (s.branchOutput (amplitudeProfile xf s).1 .i1) := by
  rw [State.branchOutput, State.branchOutput, amplitudeProfile_mixed, amplitudeProfile_eq]
  simp [agc_output, State.mixed]

/-- The demodulator stage in the amplitude-comparison profile (rules R162 to R165, R170). -/
theorem demodulate_amplitude {s : State} (h : s.cfg.profile = 0#32) (x : Val) :
    ∃ u : State,
      demodulate x s = (u, .sub (s.branchOutput u .i0) (s.branchOutput u .i1)) ∧
      u.mem.rawh = s.rawAfter x ∧ (∀ k, BranchStep s u (s.filtered x) k) ∧
      u.demod.prevPhase = s.demod.prevPhase := by
  have hprofile : demodulate x s = amplitudeProfile (s.filtered x) (s.afterPrefilter x) := by
    rw [demodulate, prefilter_eq]
    exact if_pos h
  refine ⟨_, hprofile.trans (Prod.ext rfl (amplitudeProfile_output _ _)), rfl, fun k => ?_, rfl⟩
  have hbranch := amplitudeProfile_branch (s.filtered x) (s.afterPrefilter x) k
  exact ⟨hbranch.ih, hbranch.qh, hbranch.oscPhase, hbranch.agcPeak, hbranch.agcValley⟩

/-- Settles O37: each branch makes its step from the filtered sample, and the PLL step takes the difference of
their outputs. -/
theorem sampleAmplitudeProfile : Obligations.SampleAmplitudeProfile := by
  intro s data hm hd hprofile
  obtain ⟨t, hexec, ht⟩ := exec_sample_leaves hm hd
  obtain ⟨u, hstage, hraw, hbranch, hprev⟩ := demodulate_amplitude hprofile (.lit (decRat data))
  rw [hstage] at ht
  refine ⟨t, hexec, ?_⟩
  dsimp only
  rw [ht.ih, ht.qh, ht.demod]
  exact ⟨ht.rawh.trans hraw,
    fun k => ⟨(hbranch k).ih, (hbranch k).qh, (hbranch k).oscPhase, (hbranch k).agcPeak,
      (hbranch k).agcValley⟩,
    hprev, ht.pll, ht.df, ht.frameBuf, ht.slotBuf, ht.resp, ht.params, ht.mode, ht.cfg, ht.derived,
    ht.coef, ht.cmds⟩

/-! The discriminator profile -/

/-- The phase that the in-phase and quadrature histories `ih` and `qh` show (rule R166). -/
def State.detectedPhase (s : State) (ih qh : List Val) : Val :=
  .atan2 (conv s.mem.coef.at1 qh s.cfg.coefLen.at1.toNat)
    (conv s.mem.coef.at1 ih s.cfg.coefLen.at1.toNat)

/-- What the discriminator profile does from `s` to `t` with the input `xf` of the mixer (rules R163, R164,
R166). -/
structure DiscriminatorStep (s t : State) (xf : Val) : Prop where
  ih : t.mem.ih = ⟨push s.mem.ih.at0 s.cfg.coefLen.at1.toNat
    (.mul xf (.cosPhase s.demod.oscPhase.at0)), s.mem.ih.at1⟩
  qh : t.mem.qh = ⟨push s.mem.qh.at0 s.cfg.coefLen.at1.toNat
    (.mul xf (.sinPhase s.demod.oscPhase.at0)), s.mem.qh.at1⟩
  demod : t.demod = { s.demod with
    oscPhase := ⟨s.demod.oscPhase.at0 + s.derived.oscInc.at0, s.demod.oscPhase.at1⟩
    prevPhase := s.detectedPhase t.mem.ih.at0 t.mem.qh.at0 }

/-- The demodulator stage in the discriminator profile (rules R162 to R164, R166 to R168). -/
theorem demodulate_discriminator {s : State} (h : s.cfg.profile ≠ 0#32) (x : Val) :
    ∃ u : State,
      demodulate x s = (u, .mul (unwrap s.num
        (.sub (s.detectedPhase u.mem.ih.at0 u.mem.qh.at0) s.demod.prevPhase)) s.derived.discScale) ∧
      u.mem.rawh = s.rawAfter x ∧ DiscriminatorStep s u (s.filtered x) := by
  have hprofile : demodulate x s = discriminatorProfile (s.filtered x) (s.afterPrefilter x) := by
    rw [demodulate, prefilter_eq]
    exact if_neg h
  exact ⟨_, hprofile.trans (Prod.ext rfl rfl), rfl, rfl, rfl, rfl⟩

/-- Settles O38: the oscillator and the phase detector make their step from the filtered sample, and the PLL
step takes the scaled difference of the phases. -/
theorem sampleDiscriminatorProfile : Obligations.SampleDiscriminatorProfile := by
  intro s data hm hd hprofile
  have hprofile' : s.cfg.profile ≠ 0#32 := by rw [hprofile]; decide
  obtain ⟨t, hexec, ht⟩ := exec_sample_leaves hm hd
  obtain ⟨u, hstage, hraw, hstep⟩ := demodulate_discriminator hprofile' (.lit (decRat data))
  rw [hstage] at ht
  refine ⟨t, hexec, ?_⟩
  dsimp only
  rw [ht.ih, ht.qh, ht.demod]
  exact ⟨ht.rawh.trans hraw, hstep.ih, hstep.qh, hstep.demod, ht.pll, ht.df, ht.frameBuf, ht.slotBuf,
    ht.resp, ht.params, ht.mode, ht.cfg, ht.derived, ht.coef, ht.cmds⟩

end Machine

end Sys2Proof
end

section
/-!
Runs of SAMPLEs: the phases advance by their increments (rules R164, R166), and silence gives the output 0
(rule R172(d)).
-/

namespace Sys2Proof.Machine

/-! The phases -/

/-- What one SAMPLE adds to the phase of each oscillator: its increment, or nothing for oscillator 1 in the
discriminator profile (rules R164, R166). -/
def State.phaseStep (s : State) : Two U32 :=
  ⟨s.derived.oscInc.at0, if s.cfg.profile = 0#32 then s.derived.oscInc.at1 else 0#32⟩

theorem demodulate_oscPhase (x : Val) (s : State) (k : Ix) :
    (demodulate x s).1.demod.oscPhase.get k = s.demod.oscPhase.get k + s.phaseStep.get k := by
  by_cases hprofile : s.cfg.profile = 0#32
  · obtain ⟨u, hstage, _, hbranch, _⟩ := demodulate_amplitude hprofile x
    rw [hstage, (hbranch k).oscPhase]
    cases k <;> simp [State.phaseStep, hprofile]
  · obtain ⟨u, hstage, _, hstep⟩ := demodulate_discriminator hprofile x
    rw [hstage, hstep.demod]
    cases k <;> simp [State.phaseStep, hprofile]

/-- A run of SAMPLEs advances each phase by the run's length times its step. -/
theorem runAll_sample_phases (xs : List U32) {s : State} (hm : s.mode = .run)
    (hxs : ∀ x ∈ xs, isValue x = true) :
    ∃ t : State, runAll (xs.map .sample) s = some t ∧ t.mode = .run ∧ t.derived = s.derived ∧
      ∀ k, (t.demod.oscPhase.get k).toNat =
        ((s.demod.oscPhase.get k).toNat + xs.length * (s.phaseStep.get k).toNat) % 2 ^ 32 := by
  induction xs generalizing s with
  | nil =>
    refine ⟨s, rfl, hm, rfl, fun k => ?_⟩
    rw [List.length_nil, Nat.zero_mul, Nat.add_zero, Nat.mod_eq_of_lt (BitVec.isLt _)]
  | cons x xs ih =>
    obtain ⟨hx, hxs⟩ := List.forall_mem_cons.mp hxs
    obtain ⟨u, hexec, hu⟩ := exec_sample_leaves hm hx
    obtain ⟨t, hrun, htm, htd, hphase⟩ := ih hu.mode hxs
    have hstep : u.phaseStep = s.phaseStep := by
      rw [State.phaseStep, hu.derived, hu.cfg, State.phaseStep]
    refine ⟨t, ?_, htm, htd.trans hu.derived, fun k => ?_⟩
    · rw [List.map_cons, runAll, hexec]
      exact hrun
    · rw [hphase, hstep, hu.demod, demodulate_oscPhase, BitVec.toNat_add, Nat.mod_add_mod,
        List.length_cons]
      congr 1
      ring

/-- Settles O39, oscillator by oscillator. -/
theorem phaseAccumulates : Obligations.PhaseAccumulates := by
  intro xs s hm hxs
  obtain ⟨t, hrun, htm, htd, hphase⟩ := runAll_sample_phases xs hm hxs
  refine ⟨t, hrun, htm, htd, hphase .i0, (hphase .i1).trans ?_⟩
  simp only [Two.get_i1, State.phaseStep]
  split_ifs
  · rfl
  · exact Nat.mod_eq_of_lt (BitVec.isLt _)

/-! Silence -/

/-- Every value of the history is 0 as a real number. -/
def ZeroHistory (h : List Val) : Prop := ∀ v ∈ h, Val.toReal v = 0

theorem ZeroHistory.push {h : List Val} (hz : ZeroHistory h) (n : Nat) {x : Val}
    (hx : Val.toReal x = 0) : ZeroHistory (push h n x) := by
  cases n with
  | zero => exact hz
  | succ k =>
    intro v hv
    rcases List.mem_append.mp hv with hv | hv
    · exact hz v (List.mem_of_mem_take (List.mem_of_mem_drop hv))
    · rcases List.mem_cons.mp hv with rfl | hv
      · exact hx
      · exact hz v (List.mem_of_mem_drop hv)

theorem ZeroHistory.conv {h : List Val} (hz : ZeroHistory h) (c : List Val) (n : Nat) :
    Val.toReal (conv c h n) = 0 := by
  rw [conv_toReal]
  refine List.sum_eq_zero fun y hy => ?_
  obtain ⟨p, hp, rfl⟩ := List.mem_map.mp hy
  rw [hz p.2 (List.of_mem_zip (List.mem_of_mem_take hp)).2, mul_zero]

/-- Every history, envelope and the previous phase is 0 as a real number. -/
structure State.Quiet (s : State) : Prop where
  rawh : ZeroHistory s.mem.rawh
  ih : ∀ k, ZeroHistory (s.mem.ih.get k)
  qh : ∀ k, ZeroHistory (s.mem.qh.get k)
  agcPeak : ∀ k, Val.toReal (s.demod.agcPeak.get k) = 0
  agcValley : ∀ k, Val.toReal (s.demod.agcValley.get k) = 0
  prevPhase : Val.toReal s.demod.prevPhase = 0

theorem lit_zero_toReal : Val.toReal (.lit 0) = 0 := Rat.cast_zero

/-- At the input 0 the envelopes stay at 0, whatever the coefficients (rule R170). -/
theorem nextEnvelopes_zero (N : Machine.Num) (a d : Val) {e x : Val} (hx : Val.toReal x = 0)
    (he : Val.toReal e = 0) :
    Val.toReal (nextPeak N a d e x) = 0 ∧ Val.toReal (nextValley N a d e x) = 0 := by
  have henv : ∀ c, Val.toReal (envelope x e c) = 0 := fun c => by
    rw [envelope_toReal, hx, he, zero_mul, zero_mul, add_zero]
  constructor
  · rcases nextPeak_cases N a d e x with h | h <;> rw [h, henv]
  · rcases nextValley_cases N a d e x with h | h <;> rw [h, henv]

section
variable {s u : State} {x xf : Val} (hs : s.Quiet)
include hs

theorem State.Quiet.rawAfter (hx : Val.toReal x = 0) : ZeroHistory (s.rawAfter x) := by
  rw [State.rawAfter]
  split
  · exact hs.rawh.push _ hx
  · exact hs.rawh

theorem State.Quiet.filtered (hx : Val.toReal x = 0) : Val.toReal (s.filtered x) = 0 := by
  rw [State.filtered]
  split
  · exact (hs.rawAfter hx).conv _ _
  · exact hx

/-- In the amplitude-comparison profile silence stays, and the envelopes meet. -/
theorem State.Quiet.of_branches (hN : s.num.IsReal) (hraw : ZeroHistory u.mem.rawh)
    (hxf : Val.toReal xf = 0) (hbranch : ∀ k, BranchStep s u xf k)
    (hprev : u.demod.prevPhase = s.demod.prevPhase) :
    u.Quiet ∧ ∀ k, Val.toReal (s.branchOutput u k) = 0 := by
  have hih : ∀ k, ZeroHistory (u.mem.ih.get k) := fun k =>
    (hbranch k).ih ▸ (hs.ih k).push _ (by rw [Val.toReal, hxf, zero_mul])
  have hqh : ∀ k, ZeroHistory (u.mem.qh.get k) := fun k =>
    (hbranch k).qh ▸ (hs.qh k).push _ (by rw [Val.toReal, hxf, zero_mul])
  have hamp : ∀ k, Val.toReal (s.branchAmplitude u.mem.ih u.mem.qh k) = 0 := fun k => by
    simp [State.branchAmplitude, amplitude, Val.toReal, (hih k).conv, (hqh k).conv]
  have hpeak : ∀ k, Val.toReal (u.demod.agcPeak.get k) = 0 := fun k =>
    (hbranch k).agcPeak ▸ (nextEnvelopes_zero _ _ _ (hamp k) (hs.agcPeak k)).1
  have hvalley : ∀ k, Val.toReal (u.demod.agcValley.get k) = 0 := fun k =>
    (hbranch k).agcValley ▸ (nextEnvelopes_zero _ _ _ (hamp k) (hs.agcValley k)).2
  refine ⟨⟨hraw, hih, hqh, hpeak, hvalley, hprev ▸ hs.prevPhase⟩, fun k => ?_⟩
  rw [State.branchOutput, normalised_toReal hN, hpeak, hvalley, if_neg (lt_irrefl 0)]

/-- In the discriminator profile silence stays, and the detected phase is 0. -/
theorem State.Quiet.of_discriminator (hraw : ZeroHistory u.mem.rawh) (hxf : Val.toReal xf = 0)
    (hstep : DiscriminatorStep s u xf) :
    u.Quiet ∧ Val.toReal (s.detectedPhase u.mem.ih.at0 u.mem.qh.at0) = 0 := by
  have hih : ∀ k, ZeroHistory (u.mem.ih.get k) := fun k => by
    rw [hstep.ih]
    cases k
    · exact (hs.ih .i0).push _ (by rw [Val.toReal, hxf, zero_mul])
    · exact hs.ih .i1
  have hqh : ∀ k, ZeroHistory (u.mem.qh.get k) := fun k => by
    rw [hstep.qh]
    cases k
    · exact (hs.qh .i0).push _ (by rw [Val.toReal, hxf, zero_mul])
    · exact hs.qh .i1
  have hphase : Val.toReal (s.detectedPhase u.mem.ih.at0 u.mem.qh.at0) = 0 :=
    (toReal_atan2_origin (((hqh .i0).conv _ _).trans lit_zero_toReal.symm)
      (((hih .i0).conv _ _).trans lit_zero_toReal.symm)).trans lit_zero_toReal
  refine ⟨⟨hraw, hih, hqh, ?_, ?_, ?_⟩, hphase⟩ <;> rw [hstep.demod]
  · exact hs.agcPeak
  · exact hs.agcValley
  · exact hphase

/-- A zero sample leaves the demodulator stage quiet, with the output 0 (rule R172(d)). -/
theorem State.Quiet.demodulate (hN : s.num.IsReal) (hx : Val.toReal x = 0) :
    (demodulate x s).1.Quiet ∧ Val.toReal (demodulate x s).2 = 0 := by
  by_cases hprofile : s.cfg.profile = 0#32
  · obtain ⟨u, hstage, hraw, hbranch, hprev⟩ := demodulate_amplitude hprofile x
    obtain ⟨hu, hout⟩ :=
      hs.of_branches hN (hraw ▸ hs.rawAfter hx) (hs.filtered hx) hbranch hprev
    rw [hstage]
    exact ⟨hu, by rw [Val.toReal, hout, hout, sub_zero]⟩
  · obtain ⟨u, hstage, hraw, hstep⟩ := demodulate_discriminator hprofile x
    obtain ⟨hu, hphase⟩ := hs.of_discriminator (hraw ▸ hs.rawAfter hx) (hs.filtered hx) hstep
    have hpi := Real.pi_pos
    have hunwrap : Val.toReal (unwrap s.num (.sub (s.detectedPhase u.mem.ih.at0 u.mem.qh.at0)
        s.demod.prevPhase)) = 0 := by
      rw [unwrap_toReal hN, Val.toReal, hphase, hs.prevPhase, sub_zero, if_neg hpi.not_gt,
        if_neg (by linarith)]
    rw [hstage]
    exact ⟨hu, by rw [Val.toReal, hunwrap, zero_mul]⟩

end

theorem SampleLeaves.quiet {s t : State} {p : State × Val} (ht : SampleLeaves s p t)
    (hp : p.1.Quiet) : t.Quiet where
  rawh := ht.rawh ▸ hp.rawh
  ih := ht.ih ▸ hp.ih
  qh := ht.qh ▸ hp.qh
  agcPeak := ht.demod ▸ hp.agcPeak
  agcValley := ht.demod ▸ hp.agcValley
  prevPhase := ht.demod ▸ hp.prevPhase

/-- Both zero patterns are the value 0 (rule R10). -/
theorem zero_pattern {x : U32} (h : x = 0x00000000#32 ∨ x = 0x80000000#32) :
    isValue x = true ∧ decRat x = 0 := by
  rcases h with rfl | rfl <;> exact ⟨rfl, rfl⟩

/-- SAMPLE of a zero pattern in a quiet state answers 0 and leaves the state quiet. -/
theorem exec_sample_quiet {s : State} {x : U32} (hnum : s.params.num = .real) (hm : s.mode = .run)
    (hs : s.Quiet) (hx : x = 0x00000000#32 ∨ x = 0x80000000#32) :
    ∃ (t : State) (r : Response), exec (.sample x) s = .next t ∧ t.params = s.params ∧
      t.mode = .run ∧ t.Quiet ∧ t.resp = some r ∧ r.status = .ok ∧ r.data = 0x00000000#32 := by
  have hN : s.num.IsReal := by
    rw [State.num, hnum]
    exact numOf_real_isReal
  obtain ⟨hvalue, hzero⟩ := zero_pattern hx
  obtain ⟨t, hexec, ht⟩ := exec_sample_leaves hm hvalue
  obtain ⟨hquiet, hout⟩ := hs.demodulate hN (x := .lit (decRat x)) (hzero ▸ lit_zero_toReal)
  refine ⟨t, _, hexec, ht.params, ht.mode, ht.quiet hquiet, ht.resp, rfl, ?_⟩
  calc s.num.enc32 (demodulate (.lit (decRat x)) s).2
      = encReal (Config.underflowSign (demodulate (.lit (decRat x)) s).2) 0 := by rw [hN.2, hout]
    _ = 0x00000000#32 := encReal_zero _

/-- A run of zero samples from a quiet state answers 0 each time. -/
theorem runLog_sample_quiet (xs : List U32) {s : State} (hnum : s.params.num = .real)
    (hm : s.mode = .run) (hs : s.Quiet) (hxs : ∀ x ∈ xs, x = 0x00000000#32 ∨ x = 0x80000000#32) :
    ∃ (t : State) (rs : List Response), runLog (xs.map .sample) s = some (t, rs) ∧
      rs.length = xs.length ∧ ∀ r ∈ rs, r.status = .ok ∧ r.data = 0x00000000#32 := by
  induction xs generalizing s with
  | nil => exact ⟨s, [], rfl, rfl, by simp⟩
  | cons x xs ih =>
    obtain ⟨hx, hxs⟩ := List.forall_mem_cons.mp hxs
    obtain ⟨u, r, hexec, hparams, hum, hu, hresp, hok, hdata⟩ := exec_sample_quiet hnum hm hs hx
    obtain ⟨t, rs, hrun, hlen, hrs⟩ := ih (hparams ▸ hnum) hum hu hxs
    refine ⟨t, r :: rs, ?_, congrArg (· + 1) hlen, List.forall_mem_cons.mpr ⟨⟨hok, hdata⟩, hrs⟩⟩
    simp [runLog, hexec, nextOf, hrun, hresp]

/-- Settles O43: a quiet state stays quiet over the run. -/
theorem silenceGivesZero : Obligations.SilenceGivesZero := by
  intro xs s hnum hm hxs hraw hih hqh hpeak hvalley hprev
  have hquiet : s.Quiet := by
    refine ⟨fun v hv => hraw v hv ▸ lit_zero_toReal, fun k v hv => hih k v hv ▸ lit_zero_toReal,
      fun k v hv => hqh k v hv ▸ lit_zero_toReal, fun k => ?_, fun k => ?_, hprev ▸ lit_zero_toReal⟩
    · rw [hpeak]
      cases k <;> exact lit_zero_toReal
    · rw [hvalley]
      cases k <;> exact lit_zero_toReal
  exact runLog_sample_quiet xs hnum hm hquiet hxs

end Sys2Proof.Machine
end

section
/-!
The PLL: the nudge and the bit decision as arithmetic, DEMODIN and SETDD as commands, and runs of DEMODINs
without a transition (rules R190 to R199).
-/

namespace Sys2Proof.Machine

/-! The nudge -/

/-- Scaling by a factor of at most 1, truncated toward zero, keeps the sign and never grows the magnitude.
-/
theorem tdiv_scaled_between {k : Nat} (hk : k ≤ 65536) (a : ℤ) :
    (0 ≤ a → 0 ≤ (a * k).tdiv 65536 ∧ (a * k).tdiv 65536 ≤ a) ∧
      (a ≤ 0 → a ≤ (a * k).tdiv 65536 ∧ (a * k).tdiv 65536 ≤ 0) := by
  have hnonneg : ∀ b : ℤ, 0 ≤ b → 0 ≤ (b * k).tdiv 65536 ∧ (b * k).tdiv 65536 ≤ b := by
    intro b hb
    have hle : b * k ≤ b * 65536 := mul_le_mul_of_nonneg_left (by exact_mod_cast hk) hb
    have hbk : 0 ≤ b * (k : ℤ) := mul_nonneg hb k.cast_nonneg
    rw [Int.tdiv_eq_ediv_of_nonneg hbk]
    omega
  refine ⟨hnonneg a, fun ha => ?_⟩
  have hneg := hnonneg (-a) (by omega)
  rw [Int.neg_mul, Int.neg_tdiv] at hneg
  omega

theorem nudge_toInt (a : U32) {k : U32} (hk : k.toNat ≤ 65536) :
    (nudge a k).toInt = (a.toInt * k.toNat).tdiv 65536 := by
  obtain ⟨hpos, hneg⟩ := tdiv_scaled_between hk a.toInt
  have hlt := BitVec.toInt_lt (x := a)
  have hle := BitVec.le_toInt (x := a)
  exact BitVec.toInt_ofInt_eq_self (by decide) (by omega) (by omega)

theorem abs_nudge_toInt_le (a : U32) {k : U32} (hk : k.toNat ≤ 65536) :
    |(nudge a k).toInt| ≤ |a.toInt| := by
  obtain ⟨hpos, hneg⟩ := tdiv_scaled_between hk a.toInt
  rw [nudge_toInt a hk]
  rcases le_total 0 a.toInt with ha | ha
  · exact abs_le_abs_of_nonneg (hpos ha).1 (hpos ha).2
  · exact abs_le_abs_of_nonpos (hneg ha).2 (hneg ha).1

/-- The nudge is odd, where the accumulator has a negative. -/
theorem nudge_neg {a : U32} (ha : a.toInt ≠ -2 ^ 31) (k : U32) : nudge (-a) k = -nudge a k := by
  have hneg : (-a).toInt = -a.toInt :=
    BitVec.toInt_neg_of_ne_intMin fun h => ha (by rw [h]; rfl)
  rw [nudge, hneg, Int.neg_mul, Int.neg_tdiv, BitVec.ofInt_neg, nudge]

theorem nudge_one (a : U32) : nudge a 65536#32 = a := by
  have hone : (a.toInt * ((65536#32).toNat : ℤ)).tdiv 65536 = a.toInt :=
    Int.mul_tdiv_cancel _ (by decide)
  rw [nudge, hone, BitVec.ofInt_toInt]

theorem nudge_zero (a : U32) : nudge a 0#32 = 0#32 := by simp [nudge]

/-- Settles O45: the nudge as a scaling of integers, and the examples of rule R194 by evaluation. -/
theorem nudgeProperties : Obligations.NudgeProperties :=
  ⟨fun a k hk => ⟨nudge_toInt a hk, abs_nudge_toInt_le a hk, fun ha => nudge_neg ha k, nudge_one a,
    nudge_zero a⟩, by decide, by decide, by decide⟩

/-! The bit decision -/

theorem wraps_iff (prev acc : U32) :
    wraps prev acc = true ↔ prev.toNat < 2 ^ 31 ∧ 2 ^ 31 ≤ acc.toNat := by
  have hprev := BitVec.toInt_eq_toNat_cond prev
  have hacc := BitVec.toInt_eq_toNat_cond acc
  have hprevlt := prev.isLt
  have hacclt := acc.isLt
  rw [wraps, Bool.and_eq_true, decide_eq_true_iff, decide_eq_true_iff]
  split_ifs at hprev hacc <;> omega

/-- A step below `2^31` from the lower half ends in the upper half or stays in the lower one: it does not
pass the end of the range. -/
theorem wraps_add_iff (prev : U32) {step : U32} (hstep : step.toNat < 2 ^ 31) :
    wraps prev (prev + step) = true ↔ prev.toNat < 2 ^ 31 ∧ 2 ^ 31 ≤ prev.toNat + step.toNat := by
  rw [wraps_iff, BitVec.toNat_add]
  omega

/-- Settles O46: bit 31 of a word is 1 from `2^31` on. -/
theorem wrapDetection : Obligations.WrapDetection := by
  intro prev step hstep
  refine ⟨?_, wraps_add_iff prev hstep⟩
  rw [wraps_iff, BitVec.toNat_add]

/-! DEMODIN and SETDD -/

/-- DEMODIN of a pattern that is not a value (rule R197). -/
theorem exec_demodin_refused {s : State} {data : U32} (hm : s.mode = .run)
    (hd : isValue data = false) : exec (.demodin data) s = refusal s .errOperand := by
  have hexec : exec (.demodin data) s = execDemodin data s := rfl
  rw [hexec, execDemodin, State.inMode_of_eq s hm, dec32_eq_none hd]
  rfl

/-- The bit decision on a decoded operand is its sign as a rational number, in every record (rules R10,
R190). -/
theorem positive_lit (s : State) (q : Rat) : positive s.num (.lit q) = decide (0 < q) := by
  rw [Bool.eq_iff_iff, decide_eq_true_iff]
  exact numOf_lt_lit s.params.num 0 q

/-- DEMODIN of a value: the PLL step on its sign, and the response with the operand (rule R197). -/
theorem exec_demodin_ok {s : State} {data : U32} (hm : s.mode = .run) (hd : isValue data = true) :
    let t := (pllStepSign (decide (0 < decRat data)) s).1
    exec (.demodin data) s =
      .next { t with resp := some (s.dataResponse t (decide (0 < decRat data)) data) } := by
  have hexec : exec (.demodin data) s = execDemodin data s := rfl
  dsimp only
  rw [hexec, execDemodin, State.inMode_of_eq s hm, dec32_of_isValue hd, ← positive_lit s,
    ← pllStepSign_dataResponse]
  rfl

/-- SETDD in RUN (rule R198). -/
theorem exec_setdd {s : State} (bit : Bool) (hm : s.mode = .run) :
    exec (.setdd bit) s = .next { s with
      pll := { s.pll with dataDetect := bit }
      resp := some (okResponse 0#8 0#16 0#32) } := by
  have hexec : exec (.setdd bit) s = execSetdd bit s := rfl
  rw [hexec, execSetdd, State.inMode_of_eq s hm]
  rfl

/-- Settles O49: the outcome of SETDD in RUN. -/
theorem setddWritesDataDetect : Obligations.SetddWritesDataDetect := fun _ bit hm => exec_setdd bit hm

/-- The PLL step for a bit decision, where the accumulator emits a bit and where it emits none (rules R190 to
R196). -/
theorem pllStepSign_of_emits (sign : Bool) (s : State) :
    let tr := decide (sign ≠ s.pll.prevSign)
    let s1 : State := { s with pll := s.pllRegisters sign }
    (s.emits = true → pllStepSign sign s = ((dfStep sign s1).1,
      { bv := true, b := sign, tr := tr, df := (dfStep sign s1).2 })) ∧
    (s.emits = false → pllStepSign sign s =
      (s1, { bv := false, b := false, tr := tr, df := .none })) := by
  have hevents : (dfStep sign (s.afterPll sign)).2 = (dfStep sign s).2 :=
    (dfStep_congr (s := s) (t := s.afterPll sign) sign rfl rfl rfl rfl).1
  dsimp only
  rw [← State.afterPll_eq, hevents]
  rcases pllStepSign_eq sign s with ⟨hemits, e⟩ | ⟨hemits, e⟩
  · exact ⟨fun _ => e, fun h => absurd (hemits.symm.trans h) (by decide)⟩
  · exact ⟨fun h => absurd (hemits.symm.trans h) (by decide), fun _ => e⟩

/-- The state a PLL step leaves (rules R190 to R196). -/
theorem pllStepSign_state (sign : Bool) (s : State) :
    let s1 : State := { s with pll := s.pllRegisters sign }
    (pllStepSign sign s).1 = if s.emits then (dfStep sign s1).1 else s1 := by
  obtain ⟨hbit, hnone⟩ := pllStepSign_of_emits sign s
  dsimp only
  split
  · next h => rw [hbit h]
  · next h => rw [hnone (Bool.eq_false_of_not_eq_true h)]

/-- Settles O44: the PLL step by its two cases, and the two outcomes of DEMODIN in RUN. -/
theorem demodinIsOnePllStep : Obligations.DemodinIsOnePllStep := by
  refine ⟨fun d s => pllStepSign_of_emits (positive s.num d) s, fun _ _ => exec_demodin_refused,
    fun s data hm hd => ?_⟩
  dsimp only
  rw [exec_demodin_ok hm hd, ← pllStepSign_state]

/-- Settles O48: the PLL step and DEMODIN read their operand's sign alone, apart from the echo. -/
theorem amplitudeInsensitive : Obligations.AmplitudeInsensitive := by
  constructor
  · intro s d e h
    exact congrArg (pllStepSign · s) h
  · intro s a b hm ha hb h
    rw [exec_demodin_ok hm ha, exec_demodin_ok hm hb, decide_eq_decide.mpr h]
    exact ⟨_, _, _, rfl, rfl⟩

/-! Runs without a transition -/

/-- A PLL step reports a bit where the accumulator passes the half (rules R112, R192). -/
theorem pllStepSign_bv (sign : Bool) (s : State) : (pllStepSign sign s).2.bv = s.emits := by
  rcases pllStepSign_eq sign s with ⟨hemits, e⟩ | ⟨hemits, e⟩ <;> rw [e, hemits]

/-- What a DEMODIN of the present sign leaves and answers: the accumulator one step further, and a bit
where the step passes the half (rules R190, R192, R199(a)). -/
structure FreeStep (s t : State) (r : Response) : Prop where
  mode : t.mode = .run
  derived : t.derived = s.derived
  prevSign : t.pll.prevSign = s.pll.prevSign
  acc : t.pll.acc = s.pll.acc + s.derived.pllStep
  resp : t.resp = some r
  bit : r.fl.getLsbD 0 = s.emits

theorem exec_demodin_free {s : State} {x : U32} (hm : s.mode = .run) (hx : isValue x = true)
    (hsign : 0 < decRat x ↔ s.pll.prevSign = true) :
    ∃ (t : State) (r : Response), exec (.demodin x) s = .next t ∧ FreeStep s t r := by
  have hdecide : decide (0 < decRat x) = s.pll.prevSign := by
    rw [Bool.eq_iff_iff, decide_eq_true_iff, hsign]
  have hexec := exec_demodin_ok hm hx
  rw [hdecide] at hexec
  have hsame := pllStepSign_same s.pll.prevSign s
  have hpll : (pllStepSign s.pll.prevSign s).1.pll = s.pllRegisters s.pll.prevSign :=
    (pllStepSign_pll _ s).trans (by rw [State.afterPll_eq])
  have hacc : (s.pllRegisters s.pll.prevSign).acc = s.pll.acc + s.derived.pllStep := by
    simp [State.pllRegisters]
  refine ⟨_, _, hexec, {
    mode := hsame.mode.trans hm
    derived := hsame.derived
    prevSign := by rw [hpll]; rfl
    acc := by rw [hpll, hacc]
    resp := rfl
    bit := ?_ }⟩
  rw [← pllStepSign_dataResponse, ← pllStepSign_bv s.pll.prevSign s]
  exact (dataFlags_bits _ _).1

/-- A bit is one passage of the half: `(a + 2^31) / 2^32` counts the passages up to `a`, and a step below
`2^31` makes at most one (rules R191, R192). -/
theorem bitNat_emits_add {s : State} (hstep : s.derived.pllStep.toNat < 2 ^ 31) :
    bitNat s.emits + (s.pll.acc.toNat + 2 ^ 31) / 2 ^ 32 =
      (s.pll.acc.toNat + s.derived.pllStep.toNat + 2 ^ 31) / 2 ^ 32 := by
  have hemits := wraps_add_iff s.pll.acc hstep
  rw [s.wraps_eq_emits] at hemits
  have hacc := s.pll.acc.isLt
  by_cases h : s.emits = true
  · have hpass := hemits.mp h
    rw [bitNat, if_pos h]
    omega
  · have hstay := mt hemits.mpr h
    rw [bitNat, if_neg h]
    omega

/-- A run of DEMODINs of the present sign: the accumulator, and the bits counted as passages of the half. -/
theorem runLog_demodin_free (xs : List U32) {s : State} (hm : s.mode = .run)
    (hstep : s.derived.pllStep.toNat < 2 ^ 31)
    (hxs : ∀ x ∈ xs, isValue x = true ∧ (0 < decRat x ↔ s.pll.prevSign = true)) :
    ∃ (t : State) (rs : List Response), runLog (xs.map .demodin) s = some (t, rs) ∧
      rs.length = xs.length ∧
      t.pll.acc.toNat = (s.pll.acc.toNat + xs.length * s.derived.pllStep.toNat) % 2 ^ 32 ∧
      (rs.filter fun r => r.fl.getLsbD 0).length + (s.pll.acc.toNat + 2 ^ 31) / 2 ^ 32 =
        (s.pll.acc.toNat + xs.length * s.derived.pllStep.toNat + 2 ^ 31) / 2 ^ 32 := by
  induction xs generalizing s with
  | nil => exact ⟨s, [], rfl, rfl, by simp [Nat.mod_eq_of_lt s.pll.acc.isLt], by simp⟩
  | cons x xs ih =>
    obtain ⟨⟨hx, hsign⟩, hxs⟩ := List.forall_mem_cons.mp hxs
    obtain ⟨u, r, hexec, hu⟩ := exec_demodin_free hm hx hsign
    obtain ⟨t, rs, hrun, hlen, hacc, hcount⟩ :=
      ih hu.mode (hu.derived ▸ hstep) (hu.prevSign ▸ hxs)
    rw [hu.derived, hu.acc] at hacc hcount
    have htotal : s.pll.acc.toNat + (x :: xs).length * s.derived.pllStep.toNat =
        s.pll.acc.toNat + s.derived.pllStep.toNat + xs.length * s.derived.pllStep.toNat := by
      rw [List.length_cons]
      ring
    refine ⟨t, r :: rs, ?_, congrArg (· + 1) hlen, ?_, ?_⟩
    · simp [runLog, hexec, nextOf, hrun, hu.resp]
    · rw [hacc, htotal, BitVec.toNat_add, Nat.mod_add_mod]
    · have hbit := bitNat_emits_add hstep
      have hfilter : ((r :: rs).filter fun r => r.fl.getLsbD 0).length =
          bitNat s.emits + (rs.filter fun r => r.fl.getLsbD 0).length := by
        rw [List.filter_cons, hu.bit]
        cases s.emits <;> simp [bitNat, Nat.add_comm]
      rw [BitVec.toNat_add] at hcount
      rw [hfilter, htotal]
      omega

/-- A count of passages of the half is the advance in turns to within one. -/
theorem passages_within_one {count acc advance : Nat}
    (h : count + (acc + 2 ^ 31) / 2 ^ 32 = (acc + advance + 2 ^ 31) / 2 ^ 32) :
    |(count : ℤ) * 2 ^ 32 - advance| < 2 ^ 32 := by
  rw [abs_lt]
  omega

/-- Settles O47: by induction on the run, with the bits counted as passages of the half. -/
theorem freeRunningPll : Obligations.FreeRunningPll := by
  intro xs s hm hstep hxs
  obtain ⟨t, rs, hrun, hlen, hacc, hcount⟩ := runLog_demodin_free xs hm hstep hxs
  exact ⟨t, rs, hrun, hlen, hacc, hcount, by exact_mod_cast passages_within_one hcount⟩

end Sys2Proof.Machine
end

section
/-!
The deframer step branch by branch, and the two commands of the deframer (rules R111, R210 to R220).
-/

namespace Sys2Proof.Machine

/-! The parts of a step as numbers -/

theorem nrzi_eq_decide (bit prev : Bool) : nrzi bit prev = decide (bit = prev) := rfl

/-- A shift halves the register and adds the new bit at place 7 (rules R212, R215). -/
theorem shiftIn_eq_ofNat (r : Octet) (d : Bool) :
    shiftIn r d = BitVec.ofNat 8 (r.toNat / 2 + 128 * bitNat d) := by
  apply BitVec.eq_of_toNat_eq
  have hhalf : r.toNat / 2 < 2 ^ 7 := by have := r.isLt; omega
  have hor : r.toNat / 2 ||| 128 = r.toNat / 2 + 128 := by
    rw [Nat.or_comm, Nat.add_comm]
    exact (Nat.shiftLeft_add_eq_or_of_lt hhalf 1).symm
  rw [shiftIn, BitVec.toNat_or, BitVec.toNat_ushiftRight, Nat.shiftRight_one, BitVec.toNat_ofNat]
  cases d
  · simp [bitNat]
    omega
  · simp [bitNat, hor]
    omega

/-- The count of bits goes up by one, modulo 8 (rule R215). -/
theorem ofNat_toNat_add_one (n : BitVec 3) : BitVec.ofNat 3 (n.toNat + 1) = n + 1#3 := by
  rw [BitVec.ofNat_add, BitVec.ofNat_toNat, BitVec.setWidth_eq]

/-! The branches -/

section
variable {s : State} {bit : Bool}

/-- The step that recognises the flag (rule R213). -/
theorem dfStep_of_flag (h : shiftIn s.df.shiftReg (nrzi bit s.df.prevRaw) = flagPattern) :
    dfStep bit s = ({ s.detect bit with df := (s.detect bit).df.atFlag },
      { db := nrzi bit s.df.prevRaw, flg := true, fe := false, ovf := false }) := if_pos h

/-- The Hunting guard (rule R214). -/
theorem dfStep_of_hunting (h : shiftIn s.df.shiftReg (nrzi bit s.df.prevRaw) ≠ flagPattern)
    (hh : s.df.dfState = .hunting) :
    dfStep bit s = (s.detect bit,
      { db := nrzi bit s.df.prevRaw, flg := false, fe := false, ovf := false }) := by
  rcases dfStep_cases bit s with ⟨hflag, _⟩ | ⟨_, _, e⟩ | ⟨_, hf, _⟩
  · exact absurd hflag h
  · exact e
  · exact absurd (hh.symm.trans hf) DfState.noConfusion

/-- Octet accumulation (rule R215). -/
theorem dfStep_of_filling (h : shiftIn s.df.shiftReg (nrzi bit s.df.prevRaw) ≠ flagPattern)
    (hf : s.df.dfState = .filling) :
    dfStep bit s = accumulate (nrzi bit s.df.prevRaw) (s.detect bit) := by
  rcases dfStep_cases bit s with ⟨hflag, _⟩ | ⟨_, hh, _⟩ | ⟨_, _, e⟩
  · exact absurd hflag h
  · exact absurd (hh.symm.trans hf) DfState.noConfusion
  · exact e

end

/-- The decoded bit `d` in the accumulator as the last one of its octet, and the count at the next boundary
(rule R215). -/
def State.completeOctet (s : State) (d : Bool) : State :=
  { s with df := { s.df with octetAcc := shiftIn s.df.octetAcc d, bitsInOctet := 0#3 } }

section
variable {s : State} (d : Bool)

theorem accumulate_of_lt (h : s.df.bitsInOctet.toNat < 7) :
    accumulate d s = ({ s with df := { s.df with
        octetAcc := shiftIn s.df.octetAcc d, bitsInOctet := s.df.bitsInOctet + 1#3 } },
      { db := d, flg := false, fe := false, ovf := false }) := if_pos h

theorem accumulate_of_seven (h : s.df.bitsInOctet.toNat = 7) :
    accumulate d s = octetDone d (s.completeOctet d) := if_neg h.not_lt

/-- An octet of a frame that is still too short for the slot (rule R216). -/
theorem octetDone_of_short (h : s.df.frameLen < s.cfg.frameMax.toNat)
    (hmin : s.df.frameLen + 1 < s.cfg.frameMin.toNat) :
    octetDone d s = (s.appendOctet s.df.octetAcc,
      { db := d, flg := false, fe := false, ovf := false }) :=
  (if_pos h).trans (if_neg hmin.not_ge)

/-- An octet of a frame long enough for the slot (rule R216). -/
theorem octetDone_of_enough (h : s.df.frameLen < s.cfg.frameMax.toNat)
    (hmin : s.cfg.frameMin.toNat ≤ s.df.frameLen + 1) :
    octetDone d s = ((s.appendOctet s.df.octetAcc).writeSlot,
      { db := d, flg := false, fe := true, ovf := false }) :=
  (if_pos h).trans (if_pos hmin)

/-- An octet beyond the maximum length (rule R217). -/
theorem octetDone_of_max (h : s.cfg.frameMax.toNat ≤ s.df.frameLen) :
    octetDone d s = (s.dropOctet, { db := d, flg := false, fe := false, ovf := true }) :=
  if_neg h.not_gt

end

/-- Settles O51: the flag, the guard, and in state Filling the counted bit or the completed octet with its
three outcomes. -/
theorem deframerStep : Obligations.DeframerStep := by
  intro bit s
  simp only [← nrzi_eq_decide, ← shiftIn_eq_ofNat, ofNat_toNat_add_one]
  refine ⟨dfStep_of_flag, dfStep_of_hunting, fun hno hf hlt => ?_, fun hno hf hseven => ?_⟩
  · exact (dfStep_of_filling hno hf).trans (accumulate_of_lt (s := s.detect bit) _ hlt)
  · rw [dfStep_of_filling hno hf, accumulate_of_seven (s := s.detect bit) _ hseven]
    exact ⟨octetDone_of_short (s := (s.detect bit).completeOctet _) _,
      octetDone_of_enough (s := (s.detect bit).completeOctet _) _,
      octetDone_of_max (s := (s.detect bit).completeOctet _) _⟩

/-! BITIN -/

/-- The response of a BITIN in RUN (rules R112, R219). -/
def State.bitinResponse (s : State) (bit : Bool) : Response :=
  okResponse
    (dataFlags { bv := true, b := bit, tr := false, df := (dfStep bit s).2 }
      (dfStep bit s).1.df.slotValid)
    (auxOf (dfStep bit s).1.df.frameLen) 0#32

theorem exec_bitin {s : State} (hm : s.mode = .run) (bit : Bool) :
    exec (.bitin bit) s =
      .next { (dfStep bit s).1 with resp := some (s.bitinResponse bit) } :=
  State.inMode_of_eq s hm _

/-- Settles O52: the outcome of BITIN, with its flag byte as a number. -/
theorem bitinIsOneDeframerStep : Obligations.BitinIsOneDeframerStep := by
  intro s bit hm
  have hset : bitNat true = 1 := rfl
  have hclear : bitNat false = 0 := rfl
  rw [exec_bitin hm, State.bitinResponse, dataFlags_eq, hset, hclear]
  rfl

/-! FRAMERD -/

/-- FRAMERD with a frame in the slot (rule R220). -/
theorem exec_framerd_of_valid {s : State} (h : s.df.slotValid = true) :
    exec .framerd s = .next { s with
      df := { s.df with slotValid := false, slotLen := 0 }
      resp := some { status := .ok, fl := 0x01#8, aux := BitVec.ofNat 16 s.df.slotLen, data := 0#32
                     payload := s.mem.slotBuf.take s.df.slotLen } } := if_pos h

/-- FRAMERD with an empty slot (rule R220). -/
theorem exec_framerd_of_empty {s : State} (h : s.df.slotValid = false) :
    exec .framerd s = .next { s with resp := some (okResponse 0#8 0#16 0#32) } :=
  if_neg (by rw [h]; exact Bool.false_ne_true)

/-- FRAMERD leaves the slot empty (rule R220). -/
theorem exec_framerd_clears {s t : State} (h : exec .framerd s = .next t) :
    t.df.slotValid = false := by
  cases hv : s.df.slotValid with
  | true =>
    rw [exec_framerd_of_valid hv] at h
    cases h
    rfl
  | false =>
    rw [exec_framerd_of_empty hv] at h
    cases h
    exact hv

/-- Settles O59: the two outcomes of FRAMERD, and the empty slot it leaves. -/
theorem framerdReadsAndClears : Obligations.FramerdReadsAndClears :=
  ⟨fun _ hv _ => exec_framerd_of_valid hv, fun _ => exec_framerd_of_empty,
    fun _ _ h => exec_framerd_of_empty (exec_framerd_clears h)⟩

end Sys2Proof.Machine
end

section
/-!
Runs of decoded bits: what BITINs on the encoded line do, one bit after another, and the run that never
shows the flag (rules R211 to R214, R219, R222).
-/

namespace Sys2Proof.Machine

/-- The state after a BITIN of the level an NRZI encoder sends for the decoded bit `b` (rules R211,
R219, R222). -/
def State.receive (s : State) (b : Bool) : State :=
  { (dfStep (lineLevel s.df.prevRaw b) s).1 with
    resp := some (s.bitinResponse (lineLevel s.df.prevRaw b)) }

theorem exec_bitin_receive {s : State} (hm : s.mode = .run) (b : Bool) :
    exec (.bitin (lineLevel s.df.prevRaw b)) s = .next (s.receive b) := exec_bitin hm _

/-- A bit leaves the mode and the configuration. -/
theorem State.receive_same (s : State) (b : Bool) :
    (s.receive b).mode = s.mode ∧ (s.receive b).cfg = s.cfg :=
  have h := dfStep_same (lineLevel s.df.prevRaw b) s
  ⟨h.mode, h.cfg⟩

theorem State.receive_prevRaw (s : State) (b : Bool) :
    (s.receive b).df.prevRaw = lineLevel s.df.prevRaw b := dfStep_prevRaw _ s

/-- The deframer step shifts the decoded bit into the detector (rule R212). -/
theorem dfStep_shiftReg (bit : Bool) (s : State) :
    (dfStep bit s).1.df.shiftReg = shiftIn s.df.shiftReg (nrzi bit s.df.prevRaw) := by
  rcases dfStep_cases bit s with ⟨_, e⟩ | ⟨_, _, e⟩ | ⟨_, _, e⟩ <;> rw [e]
  · rfl
  · rfl
  · rcases accumulate_cases (nrzi bit s.df.prevRaw) (s.detect bit) with ⟨_, e⟩ | ⟨_, e⟩ <;> rw [e]
    · rfl
    · exact (octetDone_registers _ _).2.1

theorem State.receive_shiftReg (s : State) (b : Bool) :
    (s.receive b).df.shiftReg = shiftIn s.df.shiftReg b :=
  (dfStep_shiftReg _ s).trans (by rw [nrzi_lineLevel])

/-- The detector after a run of bits (rule R212). -/
theorem foldl_receive_shiftReg (l : List Bool) (s : State) :
    (l.foldl State.receive s).df.shiftReg = l.foldl shiftIn s.df.shiftReg := by
  induction l generalizing s with
  | nil => rfl
  | cons b l ih => rw [List.foldl_cons, ih, s.receive_shiftReg, List.foldl_cons]

/-- BITINs of an encoded run hand the deframer the bits of the run (rules R211, R222). -/
theorem runAll_nrziSend (l : List Bool) {s : State} (hm : s.mode = .run) :
    runAll ((nrziSend s.df.prevRaw l).map .bitin) s = some (l.foldl State.receive s) := by
  induction l generalizing s with
  | nil => rfl
  | cons b l ih =>
    rw [nrziSend_cons, List.map_cons, runAll, exec_bitin_receive hm, ← s.receive_prevRaw]
    exact ih ((s.receive_same b).1.trans hm)

/-- A run of bits in RUN keeps the invariant, the mode and the configuration (rule R48). -/
theorem foldl_receive_inv (l : List Bool) {s : State} (h : s.Inv) (hm : s.mode = .run) :
    (l.foldl State.receive s).Inv ∧ (l.foldl State.receive s).mode = .run ∧
      (l.foldl State.receive s).cfg = s.cfg := by
  induction l generalizing s with
  | nil => exact ⟨h, hm, rfl⟩
  | cons b l ih =>
    obtain ⟨hmode, hcfg⟩ := s.receive_same b
    have hinv := (exec_effect (exec_bitin_receive hm b)).inv h
    rw [← hcfg]
    exact ih hinv (hmode.trans hm)

/-! A run without a flag -/

/-- In state Hunting a bit that shows no flag changes the registers of the line alone (rule R214). -/
theorem State.receive_of_hunting {s : State} {b : Bool} (hh : s.df.dfState = .hunting)
    (hflag : shiftIn s.df.shiftReg b ≠ flagPattern) :
    (s.receive b).df = { s.df with
      prevRaw := lineLevel s.df.prevRaw b, shiftReg := shiftIn s.df.shiftReg b } := by
  rw [State.receive, dfStep_of_hunting (by rwa [nrzi_lineLevel]) hh]
  simp only [State.detect, nrzi_lineLevel]

/-- A run of bits that never shows the flag leaves the deframer Hunting, with the slot and the frame's
length as they were (rules R214, R222(d)). -/
theorem foldl_receive_of_hunting (l : List Bool) {s : State} (hh : s.df.dfState = .hunting)
    (hflag : NoFlag (s.recentBits ++ l) 1 (l.length + 1)) :
    (l.foldl State.receive s).df.dfState = .hunting ∧
      (l.foldl State.receive s).df.slotValid = s.df.slotValid ∧
      (l.foldl State.receive s).df.frameLen = s.df.frameLen := by
  induction l generalizing s with
  | nil => exact ⟨hh, rfl, rfl⟩
  | cons b l ih =>
    obtain ⟨hb, hrest⟩ := NoFlag.uncons (n := l.length) hflag
    have hdf := State.receive_of_hunting hh hb
    obtain ⟨hstate, hvalid, hlen⟩ := ih (s := s.receive b) (by rw [hdf]; exact hh)
      (by rwa [State.recentBits, s.receive_shiftReg])
    rw [hdf] at hvalid hlen
    exact ⟨hstate, hvalid, hlen⟩

/-! The constant level -/

/-- A run of ones keeps the level of the line (rule R222). -/
theorem nrziSend_replicate_true (level : Bool) (n : Nat) :
    nrziSend level (List.replicate n true) = List.replicate n level := by
  induction n with
  | zero => rfl
  | succ n ih =>
    rw [List.replicate_succ, nrziSend_cons]
    exact congrArg (level :: ·) ih

/-- A constant level decodes to one bit that compares it with the level before, and then to ones (rule
R211). -/
theorem nrziSend_constant (prev level : Bool) (n : Nat) :
    nrziSend prev (nrzi level prev :: List.replicate n true) = List.replicate (n + 1) level := by
  have hlevel : lineLevel prev (nrzi level prev) = level := by
    cases prev <;> cases level <;> rfl
  rw [nrziSend_cons, hlevel, nrziSend_replicate_true, List.replicate_succ]

/-- The places of a flag in a run of bits. -/
theorem getElem?_of_flag {l : List Bool} {k j : Nat} (h : (l.drop k).take 8 = flagBits) (hj : j < 8) :
    l[k + j]? = flagBits[j]? := by
  rw [← h, List.getElem?_take_of_lt hj, List.getElem?_drop]

/-- After zeros, one bit and then ones hold no flag: a flag has a one before its last place, and a zero
there (rule R213). -/
theorem noFlag_constant (b : Bool) (n : Nat) :
    NoFlag (List.replicate 8 false ++ b :: List.replicate n true) 1 (n + 2) := by
  intro k hk hkn hflag
  obtain rfl | ⟨m, rfl⟩ : k = 1 ∨ ∃ m, k = m + 2 := by
    rcases Nat.lt_or_ge k 2 with h | h
    · exact .inl (by omega)
    · exact .inr ⟨k - 2, by omega⟩
  · have hzero := getElem?_of_flag (j := 6) hflag (by decide)
    simp [flagBits] at hzero
  · have hone := getElem?_of_flag (j := 7) hflag (by decide)
    rw [List.getElem?_append_right (by simp)] at hone
    have hidx : m + 2 + 7 - (List.replicate 8 false).length = m + 1 := by simp
    rw [hidx, List.getElem?_cons_succ, List.getElem?_replicate_of_lt (by omega)] at hone
    simp [flagBits] at hone

/-- Settles O58: a run without a flag, and the constant level as such a run. -/
theorem silentDeframer : Obligations.SilentDeframer := by
  constructor
  · intro s bs hm hh hempty hflag
    obtain ⟨hstate, hvalid, hlen⟩ := foldl_receive_of_hunting bs hh hflag
    exact ⟨_, runAll_nrziSend bs hm, hstate, hvalid.trans hempty, hlen⟩
  · intro s level n hm hreset
    cases n with
    | zero => exact ⟨s, rfl, by rw [hreset]; exact ⟨rfl, rfl, rfl⟩⟩
    | succ n =>
      have hflag : NoFlag (s.recentBits ++ nrzi level s.df.prevRaw :: List.replicate n true) 1
          ((nrzi level s.df.prevRaw :: List.replicate n true).length + 1) := by
        rw [State.recentBits, hreset, List.length_cons, List.length_replicate]
        exact noFlag_constant _ n
      have hrun := runAll_nrziSend (nrzi level s.df.prevRaw :: List.replicate n true) hm
      rw [nrziSend_constant, List.map_replicate] at hrun
      obtain ⟨hstate, hvalid, hlen⟩ := foldl_receive_of_hunting _ (by rw [hreset]; rfl) hflag
      exact ⟨_, hrun, hstate, hvalid.trans (by rw [hreset]; rfl), hlen.trans (by rw [hreset]; rfl)⟩

end Sys2Proof.Machine
end

section
/-!
A frame between two flags: the octets gathered since the opening flag, and what the closing flag leaves in
the slot (rules R213 to R217, R220, R222).
-/

namespace Sys2Proof.Machine

/-! Runs of bits without a flag, cut in two -/

theorem NoFlag.left {l l' : List Bool} {a b : Nat} (h : NoFlag (l ++ l') a b)
    (hb : b + 7 ≤ l.length) : NoFlag l a b := by
  intro k ha hk hflag
  refine h k ha hk ?_
  rw [List.drop_append_of_le_length (by omega), List.take_append_of_le_length (by simp; omega), hflag]

theorem NoFlag.right {l l' : List Bool} {a a' b : Nat} (h : NoFlag (l ++ l') a (l.length + b))
    (ha : a ≤ l.length + a') : NoFlag l' a' b := by
  intro k hk hkb hflag
  refine h (l.length + k) (by omega) (by omega) ?_
  rw [← List.drop_drop, List.drop_left, hflag]

/-! The octets since the opening flag -/

/-- The slot holds the frame `os` (rule R216). -/
structure State.SlotHolds (s : State) (os : List Octet) : Prop where
  valid : s.df.slotValid = true
  len : s.df.slotLen = os.length
  octets : s.mem.slotBuf.take os.length = os

/-- The octets `os` have gone through since the opening flag: up to the maximum length they stand in the
frame buffer, and from the minimum length on in the slot; beyond the maximum the slot is empty (rules R216,
R217). -/
structure State.Gathered (s : State) (os : List Octet) : Prop where
  space : s.cfg.frameMax.toNat ≤ s.mem.frameBuf.length
  len : s.df.frameLen = min os.length s.cfg.frameMax.toNat
  octets : os.length ≤ s.cfg.frameMax.toNat → s.mem.frameBuf.take os.length = os
  slot : s.cfg.frameMin.toNat ≤ os.length → os.length ≤ s.cfg.frameMax.toNat → s.SlotHolds os
  dropped : s.cfg.frameMax.toNat < os.length → s.df.slotValid = false

/-- The slot's frame depends on its registers and its octets alone. -/
theorem State.SlotHolds.congr {s t : State} {os : List Octet} (h : s.SlotHolds os)
    (hvalid : t.df.slotValid = s.df.slotValid) (hlen : t.df.slotLen = s.df.slotLen)
    (hmem : t.mem = s.mem) : t.SlotHolds os :=
  ⟨hvalid.trans h.valid, hlen.trans h.len, by rw [hmem, h.octets]⟩

/-- The octets gathered depend on the configuration, the storage spaces and three registers alone. -/
theorem State.Gathered.congr {s t : State} {os : List Octet} (h : s.Gathered os) (hcfg : t.cfg = s.cfg)
    (hmem : t.mem = s.mem) (hlen : t.df.frameLen = s.df.frameLen)
    (hslotLen : t.df.slotLen = s.df.slotLen) (hvalid : t.df.slotValid = s.df.slotValid) :
    t.Gathered os where
  space := by rw [hcfg, hmem]; exact h.space
  len := by rw [hcfg, hlen]; exact h.len
  octets := by rw [hcfg, hmem]; exact h.octets
  slot := by
    rw [hcfg]
    exact fun hmin hmax => (h.slot hmin hmax).congr hvalid hslotLen hmem
  dropped := by rw [hcfg, hvalid]; exact h.dropped

/-- An octet written behind the first ones follows them. -/
theorem take_set_succ {l os : List Octet} (o : Octet) (hroom : os.length < l.length)
    (h : l.take os.length = os) :
    (l.set os.length o).take (os ++ [o]).length = os ++ [o] := by
  rw [List.length_append, List.length_singleton, List.take_add_one, List.take_set_of_le le_rfl, h,
    List.getElem?_set_self hroom]
  rfl

/-- An append puts the octet behind those gathered (rule R216). -/
theorem State.Gathered.appendOctet_octets {s : State} {os : List Octet} (h : s.Gathered os) (o : Octet)
    (hroom : os.length < s.cfg.frameMax.toNat) :
    (s.appendOctet o).df.frameLen = (os ++ [o]).length ∧
      (s.appendOctet o).mem.frameBuf.take (os ++ [o]).length = os ++ [o] := by
  have hlen : s.df.frameLen = os.length := by rw [h.len]; omega
  rw [State.appendOctet_df_frameLen, State.appendOctet_mem_frameBuf, hlen]
  exact ⟨by simp, take_set_succ o (hroom.trans_le h.space) (h.octets hroom.le)⟩

/-- A slot write copies the frame (rule R216). -/
theorem State.writeSlot_slotHolds {s : State} {os : List Octet} (hlen : s.df.frameLen = os.length)
    (h : s.mem.frameBuf.take os.length = os) : s.writeSlot.SlotHolds os := by
  refine ⟨rfl, hlen, ?_⟩
  rw [State.writeSlot_mem_slotBuf, hlen, h, List.take_left]

/-- A completed octet joins those gathered (rules R216, R217). -/
theorem octetDone_gathered {s : State} {os : List Octet} {o : Octet} (d : Bool) (h : s.Gathered os)
    (hacc : s.df.octetAcc = o) : (octetDone d s).1.Gathered (os ++ [o]) := by
  have hlen := h.len
  have hcount : (os ++ [o]).length = os.length + 1 := by simp
  rcases octetDone_cases d s with ⟨hroom, hmin, e⟩ | ⟨hroom, hmin, e⟩ | ⟨hfull, e⟩ <;>
    simp only [e, hacc]
  · have hmax : (os ++ [o]).length ≤ s.cfg.frameMax.toNat := by omega
    obtain ⟨hlen', hoctets⟩ := h.appendOctet_octets o (by omega)
    exact {
      space := h.space.trans_eq List.length_set.symm
      len := hlen'.trans (Nat.min_eq_left hmax).symm
      octets := fun _ => hoctets
      slot := fun _ _ => State.writeSlot_slotHolds hlen' hoctets
      dropped := fun hover => absurd hover hmax.not_gt }
  · have hmax : (os ++ [o]).length ≤ s.cfg.frameMax.toNat := by omega
    have hshort : (os ++ [o]).length < s.cfg.frameMin.toNat := by omega
    obtain ⟨hlen', hoctets⟩ := h.appendOctet_octets o (by omega)
    exact {
      space := h.space.trans_eq List.length_set.symm
      len := hlen'.trans (Nat.min_eq_left hmax).symm
      octets := fun _ => hoctets
      slot := fun henough _ => absurd henough hshort.not_ge
      dropped := fun hover => absurd hover hmax.not_gt }
  · have hover : s.cfg.frameMax.toNat < (os ++ [o]).length := by omega
    have hkept : s.df.frameLen = min (os ++ [o]).length s.cfg.frameMax.toNat := by omega
    exact {
      space := h.space
      len := hkept
      octets := fun hle => absurd hle hover.not_ge
      slot := fun _ hle => absurd hle hover.not_ge
      dropped := fun _ => rfl }

/-! The octets of a frame, received -/

/-- RUN, state Filling, no octet begun (rules R41, R215). -/
structure State.AtOctet (s : State) : Prop where
  mode : s.mode = .run
  dfState : s.df.dfState = .filling
  bits : s.df.bitsInOctet = 0#3

/-- An octet received from an octet boundary joins those gathered (rules R215 to R217). -/
theorem foldl_receive_octetBits {s : State} {os : List Octet} {o : Octet} (hs : s.AtOctet)
    (hg : s.Gathered os) (hflag : NoFlag (s.recentBits ++ octetBits o) 1 9) :
    ((octetBits o).foldl State.receive s).AtOctet ∧
      ((octetBits o).foldl State.receive s).Gathered (os ++ [o]) := by
  obtain ⟨level, r, r', hrun⟩ := runAll_octetBits hs.mode hs.dfState hs.bits hflag
  rw [runAll_nrziSend _ hs.mode, Option.some.injEq] at hrun
  have hdf := State.takeBits_octetBits hs.bits o level r
  obtain ⟨_, _, _, hbits, hstate⟩ :=
    octetDone_registers (o.getLsbD 7) (s.takeBits (octetBits o) level r)
  have hsame := octetDone_same (o.getLsbD 7) (s.takeBits (octetBits o) level r)
  have htaken : (s.takeBits (octetBits o) level r).Gathered os := hg.congr rfl rfl rfl rfl rfl
  have hdone := octetDone_gathered (o.getLsbD 7) htaken (o := o) (by rw [hdf])
  rw [hdf] at hbits hstate
  rw [hrun]
  exact ⟨⟨hsame.mode.trans hs.mode, hstate.trans hs.dfState, hbits⟩,
    hdone.congr rfl rfl rfl rfl rfl⟩

theorem recentBits_foldl_receive (o : Octet) (s : State) :
    ((octetBits o).foldl State.receive s).recentBits = octetBits o := by
  rw [State.recentBits, foldl_receive_shiftReg, foldl_shiftIn_octetBits]

/-- The octets of a frame join those gathered, one after another, up to the closing flag (rule R222). -/
theorem foldl_receive_octets (l : List Octet) {s : State} {os : List Octet} (hs : s.AtOctet)
    (hg : s.Gathered os)
    (hflag : NoFlag (s.recentBits ++ (l.flatMap octetBits ++ flagBits)) 1 (8 + 8 * l.length)) :
    ((l.flatMap octetBits).foldl State.receive s).AtOctet ∧
      ((l.flatMap octetBits).foldl State.receive s).Gathered (os ++ l) ∧
      NoFlag (((l.flatMap octetBits).foldl State.receive s).recentBits ++ flagBits) 1 8 := by
  induction l generalizing s os with
  | nil => exact ⟨hs, by rwa [List.append_nil], hflag⟩
  | cons o l ih =>
    have hrecent : s.recentBits.length = 8 := octetBits_length _
    rw [List.flatMap_cons, List.append_assoc] at hflag
    have hoctet : NoFlag (s.recentBits ++ octetBits o) 1 9 := by
      rw [← List.append_assoc] at hflag
      refine NoFlag.left (l' := l.flatMap octetBits ++ flagBits) (fun k hk hk9 => hflag k hk ?_) ?_
      · rw [List.length_cons]; omega
      · rw [List.length_append, hrecent, octetBits_length]
    have hrest : NoFlag (octetBits o ++ (l.flatMap octetBits ++ flagBits)) 1 (8 + 8 * l.length) := by
      refine NoFlag.right (l := s.recentBits) (a := 1) ?_ (by omega)
      rwa [hrecent, show 8 + (8 + 8 * l.length) = 8 + 8 * (o :: l).length by
        rw [List.length_cons]; omega]
    obtain ⟨hs', hg'⟩ := foldl_receive_octetBits hs hg hoctet
    rw [← recentBits_foldl_receive o s] at hrest
    rw [List.flatMap_cons, List.foldl_append, List.append_cons]
    exact ih hs' hg' hrest

/-! The flags around a frame -/

/-- The last bit of a flag, after whatever its first seven bits have done (rule R213). -/
theorem foldl_receive_flagBits (s : State) : ∃ t level r,
    t = (flagBits.take 7).foldl State.receive s ∧
    flagBits.foldl State.receive s = { t with
      df := { t.df with prevRaw := level, shiftReg := flagPattern }.atFlag, resp := r } := by
  have hshift : shiftIn ((flagBits.take 7).foldl State.receive s).df.shiftReg false = flagPattern := by
    rw [foldl_receive_shiftReg]
    exact foldl_shiftIn_octetBits s.df.shiftReg flagPattern
  have hlast : flagBits.foldl State.receive s =
      ((flagBits.take 7).foldl State.receive s).receive false := rfl
  rw [hlast, State.receive, dfStep_of_flag (by rwa [nrzi_lineLevel])]
  simp only [State.detect, nrzi_lineLevel, hshift]
  exact ⟨_, _, _, rfl, rfl⟩

/-- After an opening flag in RUN no octet has been gathered (rules R48, R213). -/
theorem foldl_receive_openingFlag {s : State} (h : s.Inv) (hm : s.mode = .run) :
    (flagBits.foldl State.receive s).AtOctet ∧ (flagBits.foldl State.receive s).Gathered [] := by
  obtain ⟨⟨_, hwf, _, _, _, hrun, _⟩, hmode, _⟩ := foldl_receive_inv flagBits h hm
  obtain ⟨_, hmin, _, hcap⟩ := hrun hmode
  obtain ⟨_, _, _, _, hframe, _⟩ := hwf
  obtain ⟨t, level, r, _, e⟩ := foldl_receive_flagBits s
  rw [e] at hmode hmin hcap hframe ⊢
  exact ⟨⟨hmode, rfl, rfl⟩, hcap.trans_eq hframe.symm, (Nat.zero_min _).symm, fun _ => rfl,
    fun hle => absurd (hmin.trans hle) (Nat.not_succ_le_zero 0),
    fun hlt => absurd hlt (Nat.not_lt_zero _)⟩

/-- A closing flag on an octet boundary completes no octet and leaves the slot (rules R213, R222). -/
theorem foldl_receive_closingFlag {s : State} (hs : s.AtOctet)
    (hflag : NoFlag (s.recentBits ++ flagBits) 1 8) :
    (flagBits.foldl State.receive s).df.slotValid = s.df.slotValid ∧
      (flagBits.foldl State.receive s).df.slotLen = s.df.slotLen ∧
      (flagBits.foldl State.receive s).mem = s.mem := by
  have hseven : NoFlag (s.recentBits ++ (flagBits.take 7 ++ [])) 1 ((flagBits.take 7).length + 0 + 1) :=
    NoFlag.left (l' := [false]) (by rwa [List.append_nil, List.append_assoc])
      (by rw [List.length_append, State.recentBits, octetBits_length]; decide)
  obtain ⟨u, v, r', hu, _, hrun⟩ :=
    runAll_takeBits (n := 0) (flagBits.take 7) [] hs.mode hs.dfState (by rw [hs.bits]; decide) hseven
  rw [List.append_nil, runAll_nrziSend _ hs.mode] at hrun
  obtain ⟨t, level, r, ht, e⟩ := foldl_receive_flagBits s
  rw [e, ht, Option.some.inj hrun, hu]
  exact ⟨rfl, rfl, rfl⟩

/-! A whole frame -/

/-- What a frame between two flags leaves in the slot, by its length (rules R216, R217, R222). -/
theorem foldl_receive_frame {s : State} {os : List Octet} (h : s.Inv) (hm : s.mode = .run)
    (hflag : NoFlag (flagBits ++ os.flatMap octetBits ++ flagBits) 1 (8 + 8 * os.length)) :
    let t := (flagBits ++ os.flatMap octetBits ++ flagBits).foldl State.receive s
    (s.cfg.frameMin.toNat ≤ os.length → os.length ≤ s.cfg.frameMax.toNat → t.SlotHolds os) ∧
      (s.cfg.frameMax.toNat < os.length → t.df.slotValid = false) := by
  obtain ⟨hopen, hnone⟩ := foldl_receive_openingFlag h hm
  have hrecent : (flagBits.foldl State.receive s).recentBits = flagBits :=
    recentBits_foldl_receive flagPattern s
  obtain ⟨hclose, hgathered, hlast⟩ := foldl_receive_octets os hopen hnone
    (by rwa [hrecent, ← List.append_assoc])
  obtain ⟨hvalid, hlen, hmem⟩ := foldl_receive_closingFlag hclose hlast
  obtain ⟨_, _, hcfg⟩ := foldl_receive_inv (flagBits ++ os.flatMap octetBits) h hm
  rw [List.foldl_append] at hcfg
  rw [List.foldl_append, List.foldl_append, ← hcfg]
  exact ⟨fun hmin hmax => (hgathered.slot hmin hmax).congr hvalid hlen hmem,
    fun hover => hvalid.trans (hgathered.dropped hover)⟩

/-- Settles O56: the closing flag finds the frame in the slot, and FRAMERD returns what the slot holds. -/
theorem frameRoundTrip : Obligations.FrameRoundTrip := by
  intro s os hinv hm hmin hmax hflag
  obtain ⟨hslot, _⟩ := foldl_receive_frame hinv hm hflag
  obtain ⟨hvalid, hlen, hoctets⟩ := hslot hmin hmax
  exact ⟨_, _, runAll_nrziSend _ hm, hvalid, exec_framerd_of_valid hvalid, by rw [hlen, hoctets]⟩

/-- Settles O57: the closing flag finds the slot emptied by the first octet beyond the maximum length. -/
theorem oversizeFrameDropped : Obligations.OversizeFrameDropped := by
  intro s os hinv hm hmax hflag
  obtain ⟨_, hdropped⟩ := foldl_receive_frame hinv hm hflag
  have hempty := hdropped hmax
  exact ⟨_, runAll_nrziSend _ hm, hempty, exec_framerd_of_empty hempty⟩

end Sys2Proof.Machine
end

section
/-!
START: its check is the first failing line of rule R241, and the constants it derives are those of rule
R242, in the ranges of rules R168 and R191 (rules R8, R168, R191, R241, R242).
-/

namespace Sys2Proof.Machine

/-! The lines of rule R241, read in order -/

open Classical in
/-- The status of the first line whose condition holds. -/
noncomputable def firstFailing : List (Prop × Status) → Option Status
  | [] => none
  | (p, st) :: lines => if p then some st else firstFailing lines

theorem firstFailing_of_forall_not {lines : List (Prop × Status)} (h : ∀ e ∈ lines, ¬e.1) :
    firstFailing lines = none := by
  induction lines with
  | nil => rfl
  | cons e lines ih =>
    obtain ⟨hhead, htail⟩ := List.forall_mem_cons.mp h
    exact (if_neg hhead).trans (ih htail)

theorem firstFailing_of_getElem? {lines : List (Prop × Status)} {k : Nat} {p : Prop} {st : Status}
    (hk : lines[k]? = some (p, st)) (hp : p)
    (hbefore : ∀ (j : Nat) (q : Prop) (c : Status), j < k → lines[j]? = some (q, c) → ¬q) :
    firstFailing lines = some st := by
  induction lines generalizing k with
  | nil => cases hk
  | cons e lines ih =>
    cases k with
    | zero =>
      cases hk
      exact if_pos hp
    | succ k =>
      have hhead : ¬e.1 := hbefore 0 e.1 e.2 k.succ_pos rfl
      exact (if_neg hhead).trans
        (ih hk fun j q c hj hq => hbefore (j + 1) q c (Nat.succ_lt_succ hj) hq)

/-- One branch of a check is one line of the list. -/
theorem ite_eq_firstFailing {c p : Prop} [Decidable c] {st : Status} {r : Option Status}
    {lines : List (Prop × Status)} (hc : c ↔ p) (hr : r = firstFailing lines) :
    (if c then some st else r) = firstFailing ((p, st) :: lines) := by
  by_cases h : c
  · exact (if_pos h).trans (if_pos (hc.mp h)).symm
  · exact (if_neg h).trans (hr.trans (if_neg (mt hc.mpr h)).symm)

/-- The status of the first failing line is that of some line. -/
theorem mem_of_firstFailing {lines : List (Prop × Status)} {st : Status}
    (h : firstFailing lines = some st) : ∃ e ∈ lines, e.2 = st := by
  induction lines with
  | nil => cases h
  | cons e lines ih =>
    by_cases hp : e.1
    · exact ⟨e, List.mem_cons_self, Option.some.inj ((if_pos hp).symm.trans h)⟩
    · obtain ⟨f, hf, hst⟩ := ih ((if_neg hp).symm.trans h)
      exact ⟨f, List.mem_cons_of_mem e hf, hst⟩

/-! The check of START -/

theorem rateBad_iff (v fs : U32) :
    rateBad v fs = true ↔ v.toNat = 0 ∨ fs.toNat ≤ 2 * v.toNat := by
  rw [rateBad, Bool.or_eq_true, beq_iff_eq, decide_eq_true_iff]

/-- An AGC coefficient is refused where a roll-off would be (rules R134, R241). -/
theorem agcBad_eq (N : Machine.Num) (b : U32) : agcBad N b = !unitValid N b := by
  unfold agcBad unitValid
  cases dec32 b <;> rfl

theorem agcBad_iff (n : NumSel) (b : U32) : agcBad (numOf n) b = true ↔ ¬UnitRegister b := by
  rw [agcBad_eq, Bool.not_eq_true', Bool.eq_false_iff, ne_eq, unitValid_iff]

theorem Cfg.tapCount_eq_zero_iff (c : Cfg) (b : Ix) : c.tapCount b = 0 ↔ c.coefLen.get b = 0#32 :=
  BitVec.toNat_inj (y := 0#32)

/-- The machine's check of START is the list of rule R241, in every numerics record. -/
theorem startError_eq (s : State) :
    startError s.num s.params.maxFrame s.cfg = firstFailing (startLines s) := by
  have htone : (rateBad s.cfg.markFreq s.cfg.sampleRate ||
      rateBad s.cfg.spaceFreq s.cfg.sampleRate) = true ↔
      s.cfg.markFreq.toNat = 0 ∨ s.cfg.sampleRate.toNat ≤ 2 * s.cfg.markFreq.toNat ∨
        s.cfg.spaceFreq.toNat = 0 ∨ s.cfg.sampleRate.toNat ≤ 2 * s.cfg.spaceFreq.toNat := by
    rw [Bool.or_eq_true, rateBad_iff, rateBad_iff, or_assoc]
  have hfilter : (s.cfg.preEnabled = true ∧ s.cfg.tapCount .i0 = 0) ∨ s.cfg.tapCount .i1 = 0 ↔
      (s.cfg.demodCtrl.getLsbD 0 = true ∧ s.cfg.coefLen.at0 = 0#32) ∨ s.cfg.coefLen.at1 = 0#32 :=
    or_congr (and_congr_right' (s.cfg.tapCount_eq_zero_iff .i0)) (s.cfg.tapCount_eq_zero_iff .i1)
  have hagc : (agcBad s.num s.cfg.agcAttack || agcBad s.num s.cfg.agcDecay) = true ↔
      ¬(UnitRegister s.cfg.agcAttack ∧ UnitRegister s.cfg.agcDecay) := by
    rw [Bool.or_eq_true, State.num, agcBad_iff, agcBad_iff, not_and_or]
  exact
    ite_eq_firstFailing Iff.rfl <|
    ite_eq_firstFailing (rateBad_iff _ _) <|
    ite_eq_firstFailing htone <|
    ite_eq_firstFailing not_or.symm <|
    ite_eq_firstFailing (and_congr_right' BitVec.toNat_inj.symm) <|
    ite_eq_firstFailing hfilter <|
    ite_eq_firstFailing (and_congr_right' hagc) <|
    ite_eq_firstFailing Iff.rfl <|
    ite_eq_firstFailing Iff.rfl rfl

/-- No line of rule R241 answers `ERR_MODE`. -/
theorem startError_ne_errMode {s : State} {st : Status}
    (h : startError s.num s.params.maxFrame s.cfg = some st) : st ≠ .errMode := by
  rw [startError_eq] at h
  obtain ⟨e, he, rfl⟩ := mem_of_firstFailing h
  revert e
  simp [startLines]

/-- START in CONFIG with a failing line (rule R241). -/
theorem exec_start_refused {s : State} {st : Status} (hm : s.mode = .config)
    (h : firstFailing (startLines s) = some st) : exec .start s = refusal s st := by
  have hexec : exec .start s = execStart s := rfl
  rw [hexec, execStart, State.inMode_of_eq s hm, startError_eq, h]
  rfl

/-- START in CONFIG with no failing line (rule R242). -/
theorem exec_start_accepted {s : State} (hm : s.mode = .config) (h : StartAccepts s) :
    exec .start s = .next { s with
      mode := .run, derived := deriveConstants s.cfg
      resp := some (okResponse 0#8 0#16 0#32) } := by
  have hexec : exec .start s = execStart s := rfl
  rw [hexec, execStart, State.inMode_of_eq s hm, startError_eq, firstFailing_of_forall_not h]
  rfl

/-- Settles O16: the machine's check is the first failing line. -/
theorem startRefusesFirstFailingLine : Obligations.StartRefusesFirstFailingLine :=
  fun _ _ _ _ hm hk hp hbefore => exec_start_refused hm (firstFailing_of_getElem? hk hp hbefore)

/-! What an accepted START knows of the configuration -/

/-- The lines of rule R241 on rates, tones and profile, where none fails. -/
structure RatesInRange (c : Cfg) : Prop where
  symbol : 1 ≤ c.symbolRate.toNat ∧ 2 * c.symbolRate.toNat < c.sampleRate.toNat
  mark : 1 ≤ c.markFreq.toNat ∧ 2 * c.markFreq.toNat < c.sampleRate.toNat
  space : 1 ≤ c.spaceFreq.toNat ∧ 2 * c.spaceFreq.toNat < c.sampleRate.toNat
  tonesDiffer : c.profile = 1#32 → c.markFreq.toNat ≠ c.spaceFreq.toNat

theorem StartAccepts.ratesInRange {s : State} (h : StartAccepts s) : RatesInRange s.cfg := by
  unfold StartAccepts startLines at h
  simp only [List.forall_mem_cons] at h
  obtain ⟨-, hsymbol, htone, -, hequal, -⟩ := h
  exact ⟨by omega, by omega, by omega, fun hp he => hequal ⟨hp, he⟩⟩

theorem RatesInRange.sampleRate_pos {c : Cfg} (h : RatesInRange c) : 0 < c.sampleRate.toNat :=
  (Nat.zero_le _).trans_lt h.symbol.2

/-! The derived constants -/

/-- The machine's rounding on naturals is that of rule R8 on the quotient. -/
theorem ofNat_roundHalfUp (a : Nat) {b : Nat} (hb : 0 < b) :
    BitVec.ofNat 32 (roundHalfUp a b) = roundHalfUpRat (a / b) := by
  rw [roundHalfUpRat, ← roundHalfUp_floor a b hb, BitVec.ofInt_natCast]

theorem increment_eq (f : U32) {fs : U32} (h : 0 < fs.toNat) :
    increment f fs = roundHalfUpRat (2 ^ 32 * f.toNat / fs.toNat) := by
  rw [increment, ofNat_roundHalfUp _ h]
  push_cast
  rfl

theorem centreIncrement_eq (mark space : U32) {fs : U32} (h : 0 < fs.toNat) :
    centreIncrement mark space fs =
      roundHalfUpRat (2 ^ 31 * (mark.toNat + space.toNat) / fs.toNat) := by
  rw [centreIncrement, ofNat_roundHalfUp _ h]
  push_cast
  rfl

theorem discScaleOf_eq (mark space fs : U32) : discScaleOf mark space fs =
    .div .one (.div (.mul (.mul (.mul .half
      (.ofInt |(mark.toNat : Int) - (space.toNat : Int)|)) .two) .pi) (.ofInt fs.toNat)) := by
  rw [discScaleOf, Int.natCast_natAbs]

/-- Settles O15: the constants of each profile, as rule R242 writes them. -/
theorem startEntersRun : Obligations.StartEntersRun := by
  intro s hm h
  have hfs := h.ratesInRange.sampleRate_pos
  rw [exec_start_accepted hm h]
  by_cases hp : s.cfg.profile = 0#32
  · simp only [deriveConstants, if_pos hp, increment_eq _ hfs]
    rfl
  · simp only [deriveConstants, if_neg hp, increment_eq _ hfs, centreIncrement_eq _ _ hfs,
      discScaleOf_eq]

/-! Their ranges -/

/-- `inc` is an increment of rule R191 that is nearest to the quotient `a / fs`. -/
def IncrementNear (inc : U32) (a fs : Nat) : Prop :=
  (1 ≤ inc.toNat ∧ inc.toNat < 2 ^ 31) ∧ 2 * |(inc.toNat : Int) * fs - a| ≤ fs

/-- Rounding half up moves a quotient by at most one half. -/
theorem roundHalfUp_near (a : Nat) {b : Nat} (hb : 0 < b) :
    2 * a < 2 * (roundHalfUp a b * b) + b ∧ 2 * (roundHalfUp a b * b) ≤ 2 * a + b := by
  have hdiv := Nat.div_add_mod (2 * a + b) (2 * b)
  have hmod := Nat.mod_lt (2 * a + b) (Nat.mul_pos two_pos hb)
  have hmul : 2 * b * roundHalfUp a b = 2 * (roundHalfUp a b * b) := by ring
  rw [← roundHalfUp, hmul] at hdiv
  omega

/-- A rate `g / 2` that is at least 1 and below half the sample rate has an increment from 1 to below `2^31`:
the sample rate is below `2^32`, so that the quotient is far enough from both ends (rule R191). -/
theorem incrementNear_of_lt {g : Nat} {fs : U32} (hg : 2 ≤ g) (hlt : g < fs.toNat) :
    IncrementNear (BitVec.ofNat 32 (roundHalfUp (2 ^ 31 * g) fs.toNat)) (2 ^ 31 * g) fs.toNat := by
  have hfs := fs.isLt
  obtain ⟨hlo, hhi⟩ := roundHalfUp_near (2 ^ 31 * g) (b := fs.toNat) (by omega)
  generalize roundHalfUp (2 ^ 31 * g) fs.toNat = r at hlo hhi ⊢
  have hpos : 1 ≤ r := by
    by_contra hzero
    obtain rfl : r = 0 := by omega
    omega
  have hmax : r < 2 ^ 31 := by
    by_contra hlarge
    have hmul : 2 ^ 31 * fs.toNat ≤ r * fs.toNat := Nat.mul_le_mul_right _ (not_lt.mp hlarge)
    omega
  have hr : (BitVec.ofNat 32 r).toNat = r := by
    rw [BitVec.toNat_ofNat, Nat.mod_eq_of_lt (by omega)]
  rw [IncrementNear, hr]
  refine ⟨⟨hpos, hmax⟩, ?_⟩
  zify at hlo hhi
  rcases abs_cases ((r : Int) * fs.toNat - (2 ^ 31 * g : Nat)) with ⟨e, _⟩ | ⟨e, _⟩ <;> rw [e] <;>
    push_cast <;> omega

theorem increment_near {f fs : U32} (h : 1 ≤ f.toNat ∧ 2 * f.toNat < fs.toNat) :
    IncrementNear (increment f fs) (2 ^ 32 * f.toNat) fs.toNat := by
  have hdouble : 2 ^ 32 * f.toNat = 2 ^ 31 * (2 * f.toNat) := by ring
  rw [increment, hdouble]
  exact incrementNear_of_lt (by omega) h.2

theorem RatesInRange.centreIncrement_near {c : Cfg} (h : RatesInRange c) :
    IncrementNear (centreIncrement c.markFreq c.spaceFreq c.sampleRate)
      (2 ^ 31 * (c.markFreq.toNat + c.spaceFreq.toNat)) c.sampleRate.toNat := by
  obtain ⟨hmark, hmarkMax⟩ := h.mark
  obtain ⟨hspace, hspaceMax⟩ := h.space
  exact incrementNear_of_lt (by omega) (by omega)

/-- The scale of the discriminator as a real number (rule R168). -/
theorem discScaleOf_toReal (mark space fs : U32) : Val.toReal (discScaleOf mark space fs) =
    1 / (1 / 2 * |(mark.toNat : ℝ) - (space.toNat : ℝ)| * (2 * Real.pi) / fs.toNat) := by
  simp only [discScaleOf_eq, Val.toReal, Val.one, Val.two, Val.half, half_toReal]
  push_cast
  ring

theorem discScaleOf_pos {mark space fs : U32} (hne : mark.toNat ≠ space.toNat)
    (hfs : 0 < fs.toNat) : 0 < Val.toReal (discScaleOf mark space fs) := by
  have hdeviation : 0 < |(mark.toNat : ℝ) - (space.toNat : ℝ)| :=
    abs_pos.mpr (sub_ne_zero.mpr (Nat.cast_injective.ne hne))
  have hrate : (0 : ℝ) < fs.toNat := Nat.cast_pos.mpr hfs
  rw [discScaleOf_toReal]
  positivity

/-- Settles O17, profile by profile: each increment is one of `IncrementNear`. -/
theorem startBounds : Obligations.StartBounds := by
  intro s t hm h ht
  have hrates := h.ratesInRange
  rw [exec_start_accepted hm h] at ht
  cases ht
  have hsymbol := increment_near hrates.symbol
  by_cases hp : s.cfg.profile = 0#32
  · have hmark := increment_near hrates.mark
    have hspace := increment_near hrates.space
    have hnot : s.cfg.profile ≠ 1#32 := by rw [hp]; decide
    simp only [deriveConstants, if_pos hp]
    exact ⟨⟨hsymbol.1.1, hsymbol.1.2, mod_cast hsymbol.2⟩, hmark.1,
      fun _ => ⟨mod_cast hmark.2, hspace.1.1, hspace.1.2, mod_cast hspace.2⟩,
      fun hone => absurd hone hnot⟩
  · have hcentre := hrates.centreIncrement_near
    simp only [deriveConstants, if_neg hp]
    exact ⟨⟨hsymbol.1.1, hsymbol.1.2, mod_cast hsymbol.2⟩, hcentre.1, fun hzero => absurd hzero hp,
      fun hone => ⟨mod_cast hcentre.2, trivial,
        discScaleOf_pos (hrates.tonesDiffer hone) hrates.sampleRate_pos, discScaleOf_toReal _ _ _⟩⟩

end Sys2Proof.Machine
end

section
/-!
The mode table: each command checks its mode first, and no later check of a command answers `ERR_MODE`
(rules R103, R105, R245).
-/

namespace Sys2Proof.Machine

/-! Outcomes without `ERR_MODE` -/

/-- The outcome is not an answer of `ERR_MODE`. -/
def NoModeError (o : Result) : Prop := ∀ t, o = .next t → t.status ≠ some .errMode

theorem noModeError_raise (s : State) {st : Status} (h : st ≠ .errMode) :
    NoModeError (s.raise st) := by
  intro t ht
  rw [State.raise_next ht]
  exact fun e => h (Option.some.inj e)

theorem noModeError_respondWith (s : State) (fl : U8) (aux : U16) (data : U32) (l : List Octet) :
    NoModeError (s.respondWith fl aux data l) := by
  intro t ht
  rw [State.respondWith_next ht]
  exact fun e => Status.noConfusion (Option.some.inj e)

theorem noModeError_respond (s : State) (fl : U8) (aux : U16) (data : U32) :
    NoModeError (s.respond fl aux data) := noModeError_respondWith s fl aux data []

theorem noModeError_check (s : State) (b : Bool) {st : Status} {go : Result} (h : st ≠ .errMode)
    (hgo : NoModeError go) : NoModeError (s.check b st go) := by
  rcases s.check_cases b st go with ⟨_, e⟩ | ⟨_, e⟩ <;> rw [e]
  · exact hgo
  · exact noModeError_raise s h

/-! The commands against the table -/

/-- The outcome `o` of the command on `s` is the one of the mode table: `ERR_MODE` in the modes in which
the command is not accepted, and another answer in the others (rule R245). -/
def FollowsModeTable (i : Instr) (s : State) (o : Result) : Prop :=
  (allowedIn i s.mode = false ∧ o = s.raise .errMode) ∨
    (allowedIn i s.mode = true ∧ NoModeError o)

/-- A command that begins with the check of its mode. -/
theorem followsModeTable_inMode {i : Instr} {s : State} {m : Mode} {go : Result}
    (hi : allowedIn i s.mode = (s.mode == m)) (hgo : NoModeError go) :
    FollowsModeTable i s (s.inMode m go) := by
  rcases s.inMode_cases m go with ⟨hm, e⟩ | ⟨hm, e⟩ <;> rw [e]
  · exact .inr ⟨hi.trans (beq_iff_eq.mpr hm), hgo⟩
  · exact .inl ⟨hi.trans (beq_eq_false_iff_ne.mpr hm), rfl⟩

/-- A command accepted in both modes. -/
theorem followsModeTable_always {i : Instr} {s : State} {o : Result}
    (hi : allowedIn i s.mode = true) (ho : NoModeError o) : FollowsModeTable i s o := .inr ⟨hi, ho⟩

theorem followsModeTable_start (s : State) : FollowsModeTable .start s (execStart s) := by
  refine followsModeTable_inMode rfl ?_
  split
  · next st hst => exact noModeError_raise s (startError_ne_errMode hst)
  · exact noModeError_respond _ _ _ _

theorem followsModeTable_cfgwr (sel : U8) (data : U32) (s : State) :
    FollowsModeTable (.cfgwr sel data) s (execCfgwr sel data s) := by
  refine followsModeTable_inMode rfl ?_
  split
  · exact noModeError_raise s Status.noConfusion
  · exact noModeError_respond _ _ _ _
  · exact noModeError_respond _ _ _ _

theorem noModeError_execCfgrd (sel : U8) (s : State) : NoModeError (execCfgrd sel s) := by
  unfold execCfgrd
  split
  · exact noModeError_raise s Status.noConfusion
  · exact noModeError_respond _ _ _ _

theorem followsModeTable_coefwr (sel : U8) (idx : U16) (data : U32) (s : State) :
    FollowsModeTable (.coefwr sel idx data) s (execCoefwr sel idx data s) := by
  refine followsModeTable_inMode rfl ?_
  split
  · exact noModeError_raise s Status.noConfusion
  · refine noModeError_check s _ Status.noConfusion ?_
    split
    · exact noModeError_raise s Status.noConfusion
    · exact noModeError_respond _ _ _ _

theorem noModeError_execCoefrd (sel : U8) (idx : U16) (s : State) :
    NoModeError (execCoefrd sel idx s) := by
  unfold execCoefrd
  split
  · exact noModeError_raise s Status.noConfusion
  · exact noModeError_check s _ Status.noConfusion (noModeError_respond _ _ _ _)

theorem followsModeTable_fdgen (sel : U8) (s : State) :
    FollowsModeTable (.fdgen sel) s (execFdgen sel s) := by
  refine followsModeTable_inMode rfl ?_
  split
  · exact noModeError_raise s Status.noConfusion
  · exact noModeError_check s _ Status.noConfusion (noModeError_respond _ _ _ _)

theorem followsModeTable_sample (data : U32) (s : State) :
    FollowsModeTable (.sample data) s (execSample data s) := by
  refine followsModeTable_inMode rfl ?_
  split
  · exact noModeError_raise s Status.noConfusion
  · exact noModeError_respond _ _ _ _

theorem followsModeTable_demodin (data : U32) (s : State) :
    FollowsModeTable (.demodin data) s (execDemodin data s) := by
  refine followsModeTable_inMode rfl ?_
  split
  · exact noModeError_raise s Status.noConfusion
  · exact noModeError_respond _ _ _ _

theorem noModeError_execFramerd (s : State) : NoModeError (execFramerd s) := by
  unfold execFramerd
  split
  · exact noModeError_respondWith _ _ _ _ _
  · exact noModeError_respond _ _ _ _

/-- Every command follows the mode table (rules R103, R245). -/
theorem followsModeTable_exec (i : Instr) (s : State) : FollowsModeTable i s (exec i s) := by
  cases i with
  | reset => exact followsModeTable_always rfl (noModeError_respond _ _ _ _)
  | start => exact followsModeTable_start s
  | cfgwr sel data => exact followsModeTable_cfgwr sel data s
  | cfgrd sel => exact followsModeTable_always rfl (noModeError_execCfgrd sel s)
  | coefwr sel idx data => exact followsModeTable_coefwr sel idx data s
  | coefrd sel idx => exact followsModeTable_always rfl (noModeError_execCoefrd sel idx s)
  | fdgen sel => exact followsModeTable_fdgen sel s
  | sample data => exact followsModeTable_sample data s
  | demodin data => exact followsModeTable_demodin data s
  | bitin bit => exact followsModeTable_inMode rfl (noModeError_respond _ _ _ _)
  | setdd bit => exact followsModeTable_inMode rfl (noModeError_respond _ _ _ _)
  | framerd => exact followsModeTable_always rfl (noModeError_execFramerd s)

/-- The status tells whether the mode accepts the command. -/
theorem FollowsModeTable.status_iff {i : Instr} {s t : State} {o : Result}
    (h : FollowsModeTable i s o) (ht : o = .next t) :
    t.status = some .errMode ↔ allowedIn i s.mode = false := by
  rcases h with ⟨hi, e⟩ | ⟨hi, ho⟩
  · rw [State.raise_next (e.symm.trans ht)]
    exact iff_of_true rfl hi
  · exact iff_of_false (ho t ht) (by rw [hi]; exact Bool.noConfusion)

theorem FollowsModeTable.refusal_iff {i : Instr} {s : State} {o : Result}
    (h : FollowsModeTable i s o) : o = refusal s .errMode ↔ allowedIn i s.mode = false := by
  refine ⟨fun ho => (h.status_iff ho).mp rfl, fun hi => ?_⟩
  rcases h with ⟨_, e⟩ | ⟨hallowed, _⟩
  · exact e
  · exact absurd (hi.symm.trans hallowed) Bool.noConfusion

/-- The slot is empty in CONFIG (rule R48(e)). -/
theorem State.Inv.slotValid_of_config {s : State} (h : s.Inv) (hm : s.mode = .config) :
    s.df.slotValid = false := by
  obtain ⟨-, -, -, hreset, -⟩ := h
  obtain ⟨-, -, -, hdf, -⟩ := hreset hm
  rw [hdf]
  rfl

/-- Settles O9: every command follows the table, and FRAMERD finds the slot empty in CONFIG. -/
theorem modeTable : Obligations.ModeTable :=
  ⟨fun i s => (followsModeTable_exec i s).refusal_iff,
    fun i s _ h => (followsModeTable_exec i s).status_iff h,
    fun _ h hm => exec_framerd_of_empty (h.slotValid_of_config hm)⟩

end Sys2Proof.Machine
end

section
/-!
A refused command changes nothing but the response (rule R261).
-/

namespace Sys2Proof.Machine

/-- `raise` is the outcome of a refused command: the response alone changes (rules R11, R261). -/
theorem State.raise_eq_refusal (s : State) (st : Status) : s.raise st = refusal s st := rfl

/-- An outcome whose status is not `OK` is the refusal with that status: a response with another
status stands only at the end of `raise`, on the state the command began with (rule R261). -/
theorem RaisesOrResponds.refusal_of_refused {s t : State} {o : Result} {r : Response}
    (h : RaisesOrResponds s o) (ht : o = .next t) (hr : t.resp = some r) (hne : r.status ≠ .ok) :
    o = refusal s r.status := by
  obtain ⟨hraise, _⟩ := h.raise_of_refused ht hr hne
  exact hraise.trans (s.raise_eq_refusal r.status)

/-- Settles O8: every command, and every step that takes a word, raises its error on the state it began
with or answers `OK`. -/
theorem refusedCommandChangesNothing : Obligations.RefusedCommandChangesNothing :=
  ⟨fun i s _ _ => (raisesOrResponds_exec i s).refusal_of_refused,
    fun _ _ _ _ _ hq => (raisesOrResponds_step hq).refusal_of_refused⟩

end Sys2Proof.Machine
end
